-- ==== Sys2Proof/Word.lean ====
section
/-! DEFINITION. The words of the block: 32-bit registers and SRAM words, bytes, and host byte addresses
(spec/00_scope.md R7, R8). -/

namespace Sys2Proof

/-- A 32-bit register or SRAM word (00_scope.md R7). -/
abbrev Word := BitVec 32

/-- One byte of the little-endian byte view of a word (20_memory.md R51). -/
abbrev Byte := BitVec 8

/-- A host byte address, offsets `0x0000` to `0x7FFF` (00_scope.md R7). -/
abbrev HostAddr := BitVec 15

end Sys2Proof
end

