-- ==== Sys2Proof/Machine/Consts.lean ====
section
/-! DEFINITION. The fixed constants of the block, spec/40_primitives.md R90, and the default scene's numbers,
spec/41_lifecycle.md R123. All are integers in the formats of R91. -/

namespace Sys2Proof.Machine

/-- 1.0 in the `.24` formats, 2^24. -/
abbrev ONE : Int := 16777216
/-- 0.5 in the `.24` formats, 2^23. -/
abbrev HALF : Int := 8388608
/-- A quarter cycle in UQ0.32, 2^30. -/
abbrev QUARTER : Int := 1073741824
/-- 8000 Hz in UQ24.8. -/
abbrev FS_MIN_Q : Int := 2048000
/-- 384000 Hz in UQ24.8. -/
abbrev FS_MAX_Q : Int := 98304000
/-- The base voice's pitch, 55 Hz in UQ24.8. -/
abbrev BASE_Q : Int := 14080
/-- The LFO rate, 0.125 Hz in UQ24.8. -/
abbrev LFO_Q : Int := 32
/-- The drift depth, 3 cents in Q23.8. -/
abbrev DRIFT_Q : Int := 768
/-- 20 Hz in UQ24.8. -/
abbrev FC_MIN_Q : Int := 5120
/-- The least drive, RNE(0.1 * 2^24). -/
abbrev DRIVE_MIN_Q : Int := 1677722
/-- The greatest drive, 5 * 2^24. -/
abbrev DRIVE_MAX_Q : Int := 83886080
/-- The greatest detune, 2400 cents in Q23.8. -/
abbrev DETUNE_MAX_Q : Int := 614400
/-- Q23.8 cents per octave, 1200 * 256. -/
abbrev CENT_DIV : Int := 307200
/-- Sine polynomial, pi/2 in Q2.30. -/
abbrev C1 : Int := 1686629713
/-- Sine polynomial, (pi - 3)/2 in Q2.30. -/
abbrev C5 : Int := 76016977
/-- Sine polynomial, 2^30 - C1 - C5. -/
abbrev C3 : Int := -688904866
/-- Cubic for 2^f, first coefficient, Q2.30. -/
abbrev B1 : Int := 747247505
/-- Cubic for 2^f, second coefficient, Q2.30. -/
abbrev B2 : Int := 241534262
/-- Cubic for 2^f, third coefficient, 2^30 - B1 - B2. -/
abbrev B3 : Int := 84960057
/-- RNE(2 pi * 2^16). -/
abbrev TWOPI_Q16 : Int := 411775
/-- RNE(1000 * ln(100) * 2^24). -/
abbrev C_LN100 : Int := 77261934927
/-- The largest value of a 32-bit unsigned format, 2^32 - 1. -/
abbrev U32_MAX : Int := 4294967295

/-- ID, `0x414D_4231` (10_state.md R24). -/
abbrev ID_VALUE : Word := 0x414D4231

/-- Default base cutoff, 800 Hz (41_lifecycle.md R123). -/
abbrev DEF_CUT_BASE : Word := 204800
/-- Default cutoff span, 600 Hz. -/
abbrev DEF_CUT_SPAN : Word := 153600
/-- Default drive, 1.5. -/
abbrev DEF_DRIVE : Word := 25165824
/-- Default output gain, 0.5. -/
abbrev DEF_OUT_GAIN : Word := 8388608
/-- Default detune, 7 cents. -/
abbrev DEF_DETUNE : Word := 1792
/-- Default post gain, 1.0. -/
abbrev DEF_POST_GAIN : Word := 16777216

end Sys2Proof.Machine
end

