-- ==== Sys2Proof/Config.lean ====
section
/-! DEFINITION. What a build of the block fixes (spec/00_scope.md R6) and the free values of the spec
(spec/20_memory.md R65, spec/70_reset_and_hazards.md R198). -/

namespace Sys2Proof

/-- The build parameters of 00_scope.md R6. They do not change while the block runs: the model carries them in
`State.build`, which no step writes, so that a statement about every state is one about every build (log 1).
`CMD_LATENCY` is not here: no rule depends on it (70_reset_and_hazards.md R196, log 13). -/
structure Build where
  /-- `SRAM_WORDS`, the number of 32-bit words of sample memory, 1..4096. -/
  sramWords : Nat
  /-- `T99_MS`, the smoothing time in milliseconds, 1..1000. -/
  t99Ms : Nat
  deriving DecidableEq, Repr

/-- The reference values of 00_scope.md R6, the ones 95_test_vectors.md uses. DESIGN CHOICE (log 1): `State.reset`
is a block of this build. -/
def Build.reference : Build := { sramWords := 4096, t99Ms := 50 }

namespace Config

/-- The unspecified value of an SRAM word: draw number `k` of word `a`. Draw 0 is the value after power-on
(20_memory.md R65, 70_reset_and_hazards.md R191); draw `k > 0` is the value the `k`-th abandoned command left
(70_reset_and_hazards.md R198). It has no body: a claim holds whatever it is (log 4, log 5). -/
opaque sramDraw : (k : Nat) → (a : Nat) → Word

end Config

end Sys2Proof
end

