-- ==== Sys2Proof/Syntax.lean ====
section
/-! DEFINITION. The commands of the block, one constructor per row of spec/opcode_table.json
(spec/30_encoding.md R72). -/

namespace Sys2Proof

/-- The 13 commands of 30_encoding.md R72. A command word has no register fields and no immediate fields: every
operand is in ARG0..ARG3 (R70, R71), so no constructor carries data. -/
inductive Instr
  /-- NOP, `0x00` (41_lifecycle.md R120). -/
  | nop
  /-- CREATE, `0x01` (41_lifecycle.md R121). -/
  | create
  /-- DESTROY, `0x02` (41_lifecycle.md R124). -/
  | destroy
  /-- RESET, `0x03` (41_lifecycle.md R125). -/
  | reset
  /-- RENDER, `0x04` (43_render.md R140). -/
  | render
  /-- SET_GAIN, `0x10` (42_setters.md R131). -/
  | setGain
  /-- SET_CUT_BASE, `0x11` (42_setters.md R132). -/
  | setCutBase
  /-- SET_CUT_SPAN, `0x12` (42_setters.md R133). -/
  | setCutSpan
  /-- SET_DRIVE, `0x13` (42_setters.md R134). -/
  | setDrive
  /-- SET_OUT_GAIN, `0x14` (42_setters.md R135). -/
  | setOutGain
  /-- SET_DETUNE, `0x15` (42_setters.md R136). -/
  | setDetune
  /-- MIXG, `0x20` (44_kernels.md R160). -/
  | mixg
  /-- SINEG, `0x21` (44_kernels.md R161). -/
  | sineg
  deriving DecidableEq, Repr

end Sys2Proof
end

