-- ==== Sys2Proof/Machine/State.lean ====
section
/-! DEFINITION. The state of the block as plain data (spec/10_state.md), the reasons a step can stop, and the state
right after reset (spec/10_state.md R38, spec/70_reset_and_hazards.md R190). -/

namespace Sys2Proof.Machine

/-- Why the machine stops with a fault. It has NO constructor: the block has no trap and no stop, every error is
reported in STATUS (60_exceptions.md R170 to R175), every access has an outcome (20_memory.md R53, R58, R63) and
"Nothing in the block is `stuck`" (93_implementation_defined.md). Safe: it only makes claims stronger. -/
inductive Fault
  deriving DecidableEq, Repr

/-- Why an instruction has no meaning. -/
inductive Refusal
  /-- Raised by an arm of `exec` whose command is not modelled. No arm raises it: all 13 commands have their meaning.
  Safe: a run stops where the hardware would go on. -/
  | notModelled (mnemonic : String)
  deriving DecidableEq, Repr

/-- The lifecycle state `S.life` (10_state.md R31). -/
inductive Life
  /-- No engine instance exists. -/
  | uninit
  /-- An engine instance exists. -/
  | ready
  deriving DecidableEq, Repr

/-- The error codes of STATUS.ERRCODE (60_exceptions.md R170). Codes 4..15 are never produced (10_state.md R27), so
they are no values of this type (log 15). -/
inductive ErrCode
  /-- 0: the command completed with its full effect. -/
  | ok
  /-- 1: the command word is not one of the 13 commands. -/
  | illegal
  /-- 2: the command needs a lifecycle state the block is not in. -/
  | state
  /-- 3: an operand is out of range or not a valid number. -/
  | arg
  deriving DecidableEq, Repr

/-- The stored fields of STATUS (10_state.md R27). READY is the view of `S.life`; reserved bits read 0. -/
structure Status where
  /-- Bit 0. -/
  busy : Bool
  /-- Bit 1, write 1 to clear. -/
  done : Bool
  /-- Bits 7:4. -/
  errcode : ErrCode
  /-- Bit 8, sticky, write 1 to clear. -/
  ebusy : Bool
  /-- Bit 9, sticky, write 1 to clear. -/
  eill : Bool
  /-- Bit 10, sticky, write 1 to clear. -/
  estate : Bool
  /-- Bit 11, sticky, write 1 to clear. -/
  earg : Bool
  deriving DecidableEq, Repr

/-- STATUS after reset: every field 0 (R38). -/
def Status.zero : Status :=
  { busy := false, done := false, errcode := .ok, ebusy := false, eill := false, estate := false, earg := false }

/-- One value per smoothed scene parameter (10_state.md R32), each as its 32-bit representation. -/
structure Scene where
  /-- UQ24.8 Hz. -/
  cutBase : Word
  /-- UQ24.8 Hz. -/
  cutSpan : Word
  /-- UQ8.24. -/
  drive : Word
  /-- UQ8.24. -/
  outGain : Word
  /-- Q23.8 cents, two's complement. -/
  detune : Word
  deriving DecidableEq, Repr

/-- A scene of zeros. -/
def Scene.zero : Scene := { cutBase := 0, cutSpan := 0, drive := 0, outGain := 0, detune := 0 }

/-- The engine state `S` (10_state.md R30), each field as its 32-bit representation. Its phases are the block's only
time-like state (60_exceptions.md R181). -/
structure Engine where
  /-- `S.life`. -/
  life : Life
  /-- `S.fs_q`, UQ24.8 Hz. -/
  fsQ : Word
  /-- `S.inc1`, UQ0.32 cycles per sample. -/
  inc1 : Word
  /-- `S.inc_lfo`, UQ0.32 cycles per sample. -/
  incLfo : Word
  /-- `S.ksm`, UQ8.24. -/
  ksm : Word
  /-- `S.ph1`, UQ0.32. -/
  ph1 : Word
  /-- `S.ph2`, UQ0.32. -/
  ph2 : Word
  /-- `S.modph`, UQ0.32. -/
  modph : Word
  /-- `S.y`, Q8.24, two's complement. -/
  y : Word
  /-- `S.post_gain`, UQ8.24. -/
  postGain : Word
  /-- `S.cur`, the current value of each scene parameter. -/
  cur : Scene
  /-- `S.tgt`, the target of each scene parameter. -/
  tgt : Scene
  deriving DecidableEq, Repr

/-- The engine state while UNINIT: every numeric field is 0 (10_state.md R30). -/
def Engine.zero : Engine :=
  { life := .uninit, fsQ := 0, inc1 := 0, incLfo := 0, ksm := 0, ph1 := 0, ph2 := 0, modph := 0, y := 0,
    postGain := 0, cur := Scene.zero, tgt := Scene.zero }

/-- What an SRAM word holds. -/
inductive Mark
  /-- A value that the host or a command has written. -/
  | stored
  /-- Nothing written since it became unspecified: the free draw of this number (`Config.sramDraw`). -/
  | drawn (k : Nat)
  deriving DecidableEq, Repr

/-- The SRAM (20_memory.md R52). Byte address `4 * a + k` is byte `k` of word `a`, little-endian (R51). `marks` says
which words hold a written value and which a free draw; an unlisted word holds the power-on draw, number 0 (R65).
`cells` lists the bytes of written words; an unlisted byte of a written word is 0. The canonical form is `Memory.wf`
(log 6). -/
structure Memory where
  /-- The listed bytes, addresses strictly rising. -/
  cells : List Host.Cell
  /-- The listed words, addresses strictly rising. -/
  marks : List (Nat × Mark)
  deriving DecidableEq, Repr

/-- One event of the outside world (00_scope.md R5, 20_memory.md R50, 70_reset_and_hazards.md R190). -/
inductive HostEvent
  /-- A 32-bit read at a byte offset. -/
  | read (haddr : HostAddr)
  /-- A 32-bit write at a byte offset. -/
  | write (haddr : HostAddr) (hwdata : Word)
  /-- `rst_n` goes to 0. -/
  | rstLow
  /-- `rst_n` goes to 1. -/
  | rstHigh
  /-- The host leaves this turn to the sequencer (log 2). -/
  | pass
  deriving DecidableEq, Repr

/-- The state of the block and of its ports. The block has no timer, cycle counter or compare register
(60_exceptions.md R181). -/
structure State where
  /-- The build parameters, which no step writes (00_scope.md R6, log 1). -/
  build : Build
  /-- The level of the input `rst_n` (10_state.md R40). -/
  rstN : Bool
  /-- CTRL.IE (10_state.md R26). -/
  ie : Bool
  /-- STATUS (10_state.md R27). -/
  status : Status
  /-- ARG0 (10_state.md R21). -/
  arg0 : Word
  /-- ARG1. -/
  arg1 : Word
  /-- ARG2. -/
  arg2 : Word
  /-- ARG3. -/
  arg3 : Word
  /-- RESULT (10_state.md R22). -/
  result : Word
  /-- PEND, the hidden latch of the pending command word (10_state.md R33). -/
  pend : Word
  /-- The engine state `S` (10_state.md R30). -/
  eng : Engine
  /-- The SRAM (20_memory.md R52). -/
  mem : Memory
  /-- MODEL's own: how many abandoned commands have left SRAM words unspecified (log 5). -/
  draws : Nat
  /-- The output `hrdata` (10_state.md R40): `some v` in the step of a read, `none` in every other (log 7). -/
  hrdata : Option Word
  /-- MODEL's own: the events of the outside world still to come, in order (log 2). -/
  inputs : List HostEvent
  deriving DecidableEq, Repr

/-- The block of build `b` right after power-on and its first `rst_n`, released (10_state.md R38,
70_reset_and_hazards.md R190, R191). -/
def State.resetOf (b : Build) : State :=
  { build := b, rstN := true, ie := false, status := Status.zero, arg0 := 0, arg1 := 0, arg2 := 0, arg3 := 0,
    result := 0, pend := 0, eng := Engine.zero, mem := { cells := [], marks := [] }, draws := 0, hrdata := none,
    inputs := [] }

/-- The block of the reference build right after reset (log 1). -/
def State.reset : State := State.resetOf Build.reference

end Sys2Proof.Machine
end

