-- ==== Sys2Proof/Machine/Flags.lean ====
section
/-! DEFINITION. The flags of the block: STATUS and CTRL as words, the sticky flags, write-1-to-clear and `irq`
(spec/10_state.md R26, R27, R35, R37, spec/60_exceptions.md R170, R176). -/

namespace Sys2Proof.Machine

/-- One bit as a field of width 1. -/
def bit (b : Bool) : BitVec 1 := BitVec.ofBool b

/-- The 4-bit value of ERRCODE (60_exceptions.md R170). -/
def ErrCode.bits : ErrCode → BitVec 4
  | .ok => 0
  | .illegal => 1
  | .state => 2
  | .arg => 3

/-- READY as a flag: 1 exactly when `S.life` is READY (10_state.md R27). -/
def Life.isReady : Life → Bool
  | .uninit => false
  | .ready => true

/-- STATUS as a 32-bit word (10_state.md R27): 31:12 reserved, EARG, ESTATE, EILL, EBUSY, ERRCODE in 7:4, 3 reserved,
READY, DONE, BUSY. -/
def statusWord (st : Status) (l : Life) : Word :=
  (0 : BitVec 20) ++ bit st.earg ++ bit st.estate ++ bit st.eill ++ bit st.ebusy ++ st.errcode.bits
    ++ (0 : BitVec 1) ++ bit l.isReady ++ bit st.done ++ bit st.busy

/-- CTRL as a 32-bit word (10_state.md R26): IE in bit 0, SRST and the reserved bits read 0. -/
def ctrlWord (ie : Bool) : Word := (0 : BitVec 31) ++ bit ie

/-- A host write to STATUS (10_state.md R27): a 1 clears a write-1-to-clear bit, a 0 leaves it, all other written bits
are ignored. -/
def Status.writeOneToClear (st : Status) (w : Word) : Status :=
  { st with
    done := st.done && !w.getLsbD 1
    ebusy := st.ebusy && !w.getLsbD 8
    eill := st.eill && !w.getLsbD 9
    estate := st.estate && !w.getLsbD 10
    earg := st.earg && !w.getLsbD 11 }

/-- A non-zero error code sets its sticky flag (60_exceptions.md R170). -/
def Status.setSticky (st : Status) : ErrCode → Status
  | .ok => st
  | .illegal => { st with eill := true }
  | .state => { st with estate := true }
  | .arg => { st with earg := true }

/-- What every completion writes to STATUS (60_exceptions.md R174, R175): ERRCODE, the sticky flag of a non-zero code,
DONE and BUSY. -/
def Status.completed (st : Status) (c : ErrCode) : Status :=
  { st.setSticky c with errcode := c, done := true, busy := false }

/-- The output `irq`, a level: IE AND DONE (10_state.md R35, 60_exceptions.md R176). -/
def State.irq (s : State) : Bool := s.ie && s.status.done

end Sys2Proof.Machine
end

