-- ==== Sys2Proof/WellFormed.lean ====
section
/-! DEFINITION. The checks of well-formedness: of a command word (spec/30_encoding.md R70, R72 to R74), of a command,
and of a build (spec/00_scope.md R6). -/

namespace Sys2Proof

/-- The `OPC` values of 30_encoding.md R72; every other value is unassigned (R74). -/
def assignedOpcodes : List Nat :=
  [0x00, 0x01, 0x02, 0x03, 0x04, 0x10, 0x11, 0x12, 0x13, 0x14, 0x15, 0x20, 0x21]

/-- The check of R73: the field `RSV`, bits 31:8, is 0. -/
def rsvIsZero (w : Word) : Bool := w.toNat / 256 == 0

/-- The check of R74: the field `OPC`, bits 7:0, is assigned. -/
def opcIsAssigned (w : Word) : Bool := assignedOpcodes.contains (w.toNat % 256)

/-- A command word that is one of the 13 commands (R74: every other word is ILLEGAL). -/
def wordWellFormed (w : Word) : Bool := rsvIsZero w && opcIsAssigned w

/-- Every command is well formed: it carries no field that could be out of range (R70, R71). -/
def Instr.wellFormed : Instr → Bool
  | .nop => true
  | .create => true
  | .destroy => true
  | .reset => true
  | .render => true
  | .setGain => true
  | .setCutBase => true
  | .setCutSpan => true
  | .setDrive => true
  | .setOutGain => true
  | .setDetune => true
  | .mixg => true
  | .sineg => true

/-- The legal ranges of the build parameters (00_scope.md R6). -/
def Build.wellFormed (b : Build) : Bool :=
  decide (1 ≤ b.sramWords) && decide (b.sramWords ≤ 4096) && decide (1 ≤ b.t99Ms) && decide (b.t99Ms ≤ 1000)

end Sys2Proof
end

