-- ==== Sys2Proof/Decode.lean ====
section
/-! DEFINITION. The decoder of command words and the encoder, written from spec/30_encoding.md R70, R72 to R74, R80. -/

namespace Sys2Proof

/-- Why a command word is ILLEGAL (30_encoding.md R73, R74). -/
inductive DecodeError
  /-- `RSV`, bits 31:8, is not 0 (R73). -/
  | reservedBits
  /-- `OPC` is not in the opcode map (R74). -/
  | unassignedOpcode
  deriving DecidableEq, Repr

/-- The field `OPC`, bits 7:0 (R70). -/
def opcField (w : Word) : BitVec 8 := w.extractLsb' 0 8

/-- The field `RSV`, bits 31:8 (R70). -/
def rsvField (w : Word) : BitVec 24 := w.extractLsb' 8 24

/-- The opcode map of R72. -/
def decodeOpc (o : BitVec 8) : Option Instr :=
  match o.toNat with
  | 0x00 => some .nop
  | 0x01 => some .create
  | 0x02 => some .destroy
  | 0x03 => some .reset
  | 0x04 => some .render
  | 0x10 => some .setGain
  | 0x11 => some .setCutBase
  | 0x12 => some .setCutSpan
  | 0x13 => some .setDrive
  | 0x14 => some .setOutGain
  | 0x15 => some .setDetune
  | 0x20 => some .mixg
  | 0x21 => some .sineg
  | _ => none

/-- The decoder of R80: `RSV` is checked first, whatever the `OPC` (R73), then the opcode map (R74). -/
def decode (w : Word) : Except DecodeError Instr :=
  if rsvField w ≠ 0 then .error .reservedBits
  else match decodeOpc (opcField w) with
    | some i => .ok i
    | none => .error .unassignedOpcode

/-- The command words of R72: `0x0000_00NN`, where `NN` is the `OPC`. -/
def encode : Instr → Word
  | .nop => 0x00000000
  | .create => 0x00000001
  | .destroy => 0x00000002
  | .reset => 0x00000003
  | .render => 0x00000004
  | .setGain => 0x00000010
  | .setCutBase => 0x00000011
  | .setCutSpan => 0x00000012
  | .setDrive => 0x00000013
  | .setOutGain => 0x00000014
  | .setDetune => 0x00000015
  | .mixg => 0x00000020
  | .sineg => 0x00000021

/-- The decoder on a number of `nbits` bits as spec/opcode_table.json numbers them; bits above `nbits` are 0. A command
is one 32-bit bus word, so no byte order arises (20_memory.md R51, 30_encoding.md R79), and a number that does not fit
a command word is no command (log 16). -/
def decodeTableWord (nbits w : Nat) : Option Instr :=
  let v := w % 2 ^ nbits
  if v < 2 ^ 32 then
    match decode (BitVec.ofNat 32 v) with
    | .ok i => some i
    | .error _ => none
  else none

end Sys2Proof
end

