-- ==== Sys2Proof/Machine/Arith.lean ====
section
/-! DEFINITION. The arithmetic operators of spec/00_scope.md R9, exact on integers, and the narrowing of an integer to
a 32-bit word. -/

namespace Sys2Proof.Machine

/-- `asr(v, k) = floor(v / 2^k)` (R9): the integer division by a positive power rounds toward minus infinity. -/
def asr (v : Int) (k : Nat) : Int := v / 2 ^ k

/-- `sat(v, lo, hi)` (R9). -/
def sat (v lo hi : Int) : Int := if v < lo then lo else if v > hi then hi else v

/-- `rndiv(a, b)` (R9): division rounded to nearest, ties upward, for `a ≥ 0`, `b > 0`. -/
def rndiv (a b : Int) : Int := (2 * a + b) / (2 * b)

/-- `RNE(n / 2^k)` (R9): the nearest integer, and the even one when `n / 2^k` is exactly halfway. -/
def rneShift (n : Int) (k : Nat) : Int :=
  let q := n / 2 ^ k
  let r := n % 2 ^ k
  if 2 * r < 2 ^ k then q
  else if 2 * r > 2 ^ k then q + 1
  else if q % 2 = 0 then q else q + 1

/-- `wrap32(v) = v mod 2^32` (R9) as a word. It is also how an integer of a stored format, signed or unsigned, becomes
its 32-bit representation (10_state.md R28). -/
def wrap32 (v : Int) : Word := BitVec.ofInt 32 v

/-- `zext_32(w)` (R8): the word as an unsigned integer. -/
def zext32 (w : Word) : Int := (w.toNat : Int)

/-- `sext_32(w)` (R8): the word as a signed integer. -/
def sext32 (w : Word) : Int := w.toInt

/-- `SAT32(v)` (40_primitives.md R105). -/
def sat32 (v : Int) : Int := sat v (-2147483648) 2147483647

end Sys2Proof.Machine
end

