-- ==== Sys2Proof/Machine/Operands.lean ====
section
/-! DEFINITION. Operand forms: the binary32 operand, its conversions (spec/40_primitives.md R92 to R94), the sample
rate check (spec/41_lifecycle.md R122), the setters' checks and conversions (spec/42_setters.md R131 to R136), and the
range checks of RENDER, MIXG and SINEG (spec/43_render.md R140, spec/44_kernels.md R160, R161). -/

namespace Sys2Proof.Machine

/-- What F32DEC answers (40_primitives.md R92). `fin m e` is the exact value `m * 2^e` (log 14). -/
inductive F32
  | nan
  | posInf
  | negInf
  | fin (mant : Int) (exp : Int)
  deriving DecidableEq, Repr

/-- F32DEC (40_primitives.md R92). -/
def f32dec (w : Word) : F32 :=
  let s := w.getLsbD 31
  let e : Nat := (w.extractLsb' 23 8).toNat
  let m : Nat := (w.extractLsb' 0 23).toNat
  if e = 255 then
    if m ≠ 0 then .nan else if s then .negInf else .posInf
  else
    let mag : Int := if e = 0 then (m : Int) else ((2 ^ 23 + m : Nat) : Int)
    let ex : Int := if e = 0 then -149 else (e : Int) - 150
    .fin (if s then -mag else mag) ex

/-- TOFIX(v, f) = RNE(v * 2^f) for `v = m * 2^e` (40_primitives.md R93): an unbounded integer. -/
def toFix (m e : Int) (f : Nat) : Int :=
  if 0 ≤ e + f then m * 2 ^ (e + f).toNat else rneShift m (-(e + f)).toNat

/-- FIXTOF32(z), for `-ONE ≤ z ≤ ONE`: the binary32 pattern of exactly `z / 2^24` (40_primitives.md R94). -/
def fixToF32 (z : Int) : Word :=
  if z = 0 then 0
  else
    let m : Nat := z.natAbs
    let e : Nat := m.log2
    let frac : Nat := if e ≤ 23 then m * 2 ^ (23 - e) % 2 ^ 23 else 0
    BitVec.ofBool (decide (z < 0)) ++ BitVec.ofNat 8 (e + 103) ++ BitVec.ofNat 23 frac

/-- FSVALID (41_lifecycle.md R122): `none` is INVALID. Rounding comes before the range check. -/
def fsValid : F32 → Option Int
  | .nan => none
  | .posInf => none
  | .negInf => none
  | .fin m e =>
    if 0 < m then
      let q := toFix m e 8
      if q < FS_MIN_Q ∨ q > FS_MAX_Q then none else some q
    else none

/-- The operand of SET_GAIN and SET_OUT_GAIN (42_setters.md R131, R135): finite and `≥ 0`, to UQ8.24, saturated. -/
def gainOperand : F32 → Option Int
  | .nan => none
  | .posInf => none
  | .negInf => none
  | .fin m e => if 0 ≤ m then some (sat (toFix m e 24) 0 U32_MAX) else none

/-- The operand of SET_CUT_BASE (42_setters.md R132): finite and `> 0`, the test being on the real value, to UQ24.8,
saturated. -/
def cutBaseOperand : F32 → Option Int
  | .nan => none
  | .posInf => none
  | .negInf => none
  | .fin m e => if 0 < m then some (sat (toFix m e 8) 0 U32_MAX) else none

/-- The operand of SET_CUT_SPAN (42_setters.md R133): finite and `≥ 0`, to UQ24.8, saturated. -/
def cutSpanOperand : F32 → Option Int
  | .nan => none
  | .posInf => none
  | .negInf => none
  | .fin m e => if 0 ≤ m then some (sat (toFix m e 8) 0 U32_MAX) else none

/-- The operand of SET_DRIVE (42_setters.md R134): anything but a NaN, clamped to [0.1, 5.0]. -/
def driveOperand : F32 → Option Int
  | .nan => none
  | .posInf => some DRIVE_MAX_Q
  | .negInf => some DRIVE_MIN_Q
  | .fin m e => some (sat (toFix m e 24) DRIVE_MIN_Q DRIVE_MAX_Q)

/-- The operand of SET_DETUNE (42_setters.md R136): finite, signed, to Q23.8, saturated to 2400 cents either way. -/
def detuneOperand : F32 → Option Int
  | .nan => none
  | .posInf => none
  | .negInf => none
  | .fin m e => some (sat (toFix m e 8) (-DETUNE_MAX_Q) DETUNE_MAX_Q)

/-- RENDER's operand checks (43_render.md R140): ARG0 = `dst`, ARG1 = `frames`, ARG2 = `ch`, on exact integers. -/
def State.renderArgsOk (s : State) : Bool :=
  decide (s.arg1.toNat ≠ 0) && decide (s.arg2.toNat ≠ 0)
    && decide (s.arg0.toNat + s.arg1.toNat * s.arg2.toNat ≤ s.build.sramWords)

/-- MIXG's operand checks (44_kernels.md R160): ARG0 = `dst`, ARG1 = `src`, ARG2 = `n`, on exact integers. -/
def State.mixgArgsOk (s : State) : Bool :=
  decide (s.arg0.toNat + s.arg2.toNat ≤ s.build.sramWords)
    && decide (s.arg1.toNat + s.arg2.toNat ≤ s.build.sramWords)

/-- SINEG's operand checks (44_kernels.md R161): ARG0 = `out`, ARG1 = `pa`, ARG3 = `n`, on exact integers. -/
def State.sinegArgsOk (s : State) : Bool :=
  decide (s.arg1.toNat < s.build.sramWords) && decide (s.arg0.toNat + s.arg3.toNat ≤ s.build.sramWords)

end Sys2Proof.Machine
end

