-- ==== Sys2Proof/Machine/Ops.lean ====
section
/-! DEFINITION. The named operations over memory and registers: the SRAM, command completion with and without an error
(spec/60_exceptions.md R174, R175), and the resets (spec/70_reset_and_hazards.md R190, R192, R198). -/

namespace Sys2Proof.Machine

variable {V : Type}

/-- The value listed at key `a`, and `d` where none is. -/
def lookup (d : V) : List (Nat × V) → Nat → V
  | [], _ => d
  | (k, v) :: t, a => if k = a then v else lookup d t a

/-- The sorted list with `v` at key `a`; the value `d`, which an unlisted key reads as, is not listed. -/
def insertAt [DecidableEq V] (d : V) : List (Nat × V) → Nat → V → List (Nat × V)
  | [], a, v => if v = d then [] else [(a, v)]
  | (k, w) :: t, a, v =>
    if a < k then (if v = d then (k, w) :: t else (a, v) :: (k, w) :: t)
    else if a = k then (if v = d then t else (a, v) :: t)
    else (k, w) :: insertAt d t a v

/-- Keys strictly rising and no entry equal to `d`. -/
def listWf [DecidableEq V] (d : V) : List (Nat × V) → Bool
  | [] => true
  | (k, v) :: t => decide (v ≠ d) && t.all (fun e => decide (k < e.1)) && listWf d t

/-- What word `a` of the SRAM holds: an unlisted word holds its power-on draw (20_memory.md R65). -/
def Memory.mark (m : Memory) (a : Nat) : Mark := lookup (.drawn 0) m.marks a

/-- Byte `k` of a word, bits `[8k+7 : 8k]` (20_memory.md R51). -/
def byteOf (w : Word) (k : Nat) : Byte := w.extractLsb' (8 * k) 8

/-- What an unlisted byte address reads as: 0 in a written word, the free draw's byte in a word that nothing has
written since it became unspecified (20_memory.md R65, 70_reset_and_hazards.md R198). -/
def Memory.unlisted (m : Memory) (b : Nat) : Byte :=
  match m.mark (b / 4) with
  | .stored => 0
  | .drawn k => byteOf (Config.sramDraw k (b / 4)) (b % 4)

/-- One byte of the SRAM, at byte address `4 * a + k` (20_memory.md R51). -/
def Memory.readByte (m : Memory) (b : Nat) : Byte := lookup (m.unlisted b) m.cells b

/-- MemRead(a) (00_scope.md R10): the 32-bit word at SRAM word address `a`, its bytes little-endian (R51). -/
def Memory.readWord (m : Memory) (a : Nat) : Word :=
  m.readByte (4 * a + 3) ++ m.readByte (4 * a + 2) ++ m.readByte (4 * a + 1) ++ m.readByte (4 * a)

/-- The list of cells with the four bytes of word `a` set to those of `v`. -/
def setBytes (cells : List Host.Cell) (a : Nat) (v : Word) : List Host.Cell :=
  insertAt 0 (insertAt 0 (insertAt 0 (insertAt 0 cells (4 * a) (byteOf v 0)) (4 * a + 1) (byteOf v 1))
    (4 * a + 2) (byteOf v 2)) (4 * a + 3) (byteOf v 3)

/-- MemWrite(a, v) (00_scope.md R10): stores the 32-bit word `v` at SRAM word address `a`. -/
def Memory.writeWord (m : Memory) (a : Nat) (v : Word) : Memory :=
  { cells := setBytes m.cells a v, marks := insertAt (.drawn 0) m.marks a .stored }

/-- Word `a` becomes unspecified: it holds free draw number `k` (70_reset_and_hazards.md R198). -/
def Memory.forget (m : Memory) (k : Nat) (a : Nat) : Memory :=
  { cells := setBytes m.cells a 0, marks := insertAt (.drawn 0) m.marks a (.drawn k) }

/-- Every word of the list becomes unspecified. -/
def Memory.forgetAll (m : Memory) (k : Nat) : List Nat → Memory
  | [] => m
  | a :: t => (m.forget k a).forgetAll k t

/-- The canonical form: bytes and marks strictly rising, no byte 0 and no power-on draw listed, and bytes listed for
written words only. So equal memories are equal data (log 6). -/
def Memory.wf (m : Memory) : Bool :=
  listWf 0 m.cells && listWf (.drawn 0) m.marks && m.cells.all (fun c => decide (m.mark (c.1 / 4) = .stored))

/-- `complete(result)` (60_exceptions.md R175): the end of a command without error. -/
def State.complete (s : State) (result : Word) : State :=
  { s with result := result, status := s.status.completed .ok, pend := 0 }

/-- `raise CmdError(code)` (60_exceptions.md R174): the end of a command with an error, the block's "trap entry". It
writes the completion record and nothing else. -/
def State.cmdError (s : State) (code : ErrCode) : State :=
  { s with result := 0, status := s.status.completed code, pend := 0 }

/-- The host's acknowledgement, the block's "return" (60_exceptions.md R177): a write to STATUS clears the
write-1-to-clear bits that `w` has set (10_state.md R27). -/
def State.acknowledge (s : State) (w : Word) : State := { s with status := s.status.writeOneToClear w }

/-- Every register and every field at its value of 10_state.md R38; SRAM keeps its words. This is the soft reset
(70_reset_and_hazards.md R192). -/
def State.resetRegs (s : State) : State :=
  { s with ie := false, status := Status.zero, arg0 := 0, arg1 := 0, arg2 := 0, arg3 := 0, result := 0, pend := 0,
           eng := Engine.zero }

/-- The SRAM words the pending command would write, had it completed (70_reset_and_hazards.md R198). A command whose
checks would fail writes none. -/
def State.pendingWrites (s : State) : List Nat :=
  match decode s.pend with
  | .ok .render =>
    if s.eng.life.isReady && s.renderArgsOk then List.range' s.arg0.toNat (s.arg1.toNat * s.arg2.toNat) else []
  | .ok .mixg => if s.mixgArgsOk then List.range' s.arg0.toNat s.arg2.toNat else []
  | .ok .sineg => if s.sinegArgsOk then List.range' s.arg0.toNat s.arg3.toNat ++ [s.arg1.toNat] else []
  | .ok .nop => []
  | .ok .create => []
  | .ok .destroy => []
  | .ok .reset => []
  | .ok .setGain => []
  | .ok .setCutBase => []
  | .ok .setCutSpan => []
  | .ok .setDrive => []
  | .ok .setOutGain => []
  | .ok .setDetune => []
  | .error _ => []

/-- The pending command, if one runs, is abandoned: the words it would have written take a fresh free draw
(70_reset_and_hazards.md R198). -/
def State.abandon (s : State) : State :=
  if s.status.busy then
    { s with mem := s.mem.forgetAll (s.draws + 1) s.pendingWrites, draws := s.draws + 1 }
  else s

/-- `rst_n` = 0 (70_reset_and_hazards.md R190): a running command is abandoned (R198), every register and field takes
its reset value, and every other SRAM word keeps its value. -/
def State.hardReset (s : State) : State := s.abandon.resetRegs

end Sys2Proof.Machine
end

