-- ==== Sys2Proof/Machine/Bus.lean ====
section
/-! DEFINITION. The host's side: the address map (spec/10_state.md R20, R28, R29, spec/20_memory.md R53, R64), the
accesses and what they do while a command runs (spec/20_memory.md R50, R55, R58), command accept (spec/30_encoding.md
R80) and the reset input (spec/70_reset_and_hazards.md R190). -/

namespace Sys2Proof.Machine

/-- The readback registers (10_state.md R28). -/
inductive Readback
  | fsQ | inc1 | incLfo | ksm | ph1 | ph2 | modph | filtY | postGain | life
  | cutBaseCur | cutBaseTgt | cutSpanCur | cutSpanTgt | driveCur | driveTgt | outGainCur | outGainTgt
  | detuneCur | detuneTgt
  deriving DecidableEq, Repr

/-- What a host access reaches (20_memory.md R64). -/
inductive Location
  /-- ID. -/
  | id
  /-- SRAMSZ. -/
  | sramsz
  /-- CTRL. -/
  | ctrl
  /-- STATUS. -/
  | status
  /-- CMD. -/
  | cmd
  /-- ARG0. -/
  | arg0
  /-- ARG1. -/
  | arg1
  /-- ARG2. -/
  | arg2
  /-- ARG3. -/
  | arg3
  /-- RESULT. -/
  | result
  /-- A readback register. -/
  | rb (r : Readback)
  /-- An offset below `0x4000` that R20 and R28 do not list. -/
  | reserved
  /-- Word `a` of the SRAM window, whether or not the build has it. -/
  | sram (a : Nat)
  deriving DecidableEq, Repr

/-- The registers by offset (10_state.md R20, R28). -/
def registerMap : List (Nat × Location) :=
  [(0x000, .id), (0x004, .sramsz), (0x008, .ctrl), (0x00C, .status), (0x010, .cmd), (0x014, .arg0), (0x018, .arg1),
   (0x01C, .arg2), (0x020, .arg3), (0x024, .result),
   (0x040, .rb .fsQ), (0x044, .rb .inc1), (0x048, .rb .incLfo), (0x04C, .rb .ksm), (0x050, .rb .ph1),
   (0x054, .rb .ph2), (0x058, .rb .modph), (0x05C, .rb .filtY), (0x060, .rb .postGain), (0x064, .rb .life),
   (0x080, .rb .cutBaseCur), (0x084, .rb .cutBaseTgt), (0x088, .rb .cutSpanCur), (0x08C, .rb .cutSpanTgt),
   (0x090, .rb .driveCur), (0x094, .rb .driveTgt), (0x098, .rb .outGainCur), (0x09C, .rb .outGainTgt),
   (0x0A0, .rb .detuneCur), (0x0A4, .rb .detuneTgt)]

/-- The address map: `haddr[1:0]` is ignored (20_memory.md R50), `haddr[14] = 1` is the SRAM window with the word
address in `haddr[13:2]` (R53), and every offset below that the register map does not list is reserved (10_state.md
R29). -/
def locate (haddr : HostAddr) : Location :=
  let o := haddr.toNat / 4 * 4
  if 0x4000 ≤ o then .sram ((o - 0x4000) / 4) else lookup .reserved registerMap o

/-- The value of a readback register (10_state.md R28): the field's 32-bit representation. -/
def readbackValue (e : Engine) : Readback → Word
  | .fsQ => e.fsQ
  | .inc1 => e.inc1
  | .incLfo => e.incLfo
  | .ksm => e.ksm
  | .ph1 => e.ph1
  | .ph2 => e.ph2
  | .modph => e.modph
  | .filtY => e.y
  | .postGain => e.postGain
  | .life => if e.life.isReady then 1 else 0
  | .cutBaseCur => e.cur.cutBase
  | .cutBaseTgt => e.tgt.cutBase
  | .cutSpanCur => e.cur.cutSpan
  | .cutSpanTgt => e.tgt.cutSpan
  | .driveCur => e.cur.drive
  | .driveTgt => e.tgt.drive
  | .outGainCur => e.cur.outGain
  | .outGainTgt => e.tgt.outGain
  | .detuneCur => e.cur.detune
  | .detuneTgt => e.tgt.detune

/-- What a performed read delivers (10_state.md R20 to R29, 20_memory.md R53). CMD is write-only and reads 0 (R23);
an SRAM word the build does not have reads 0 (R53). -/
def State.view (s : State) : Location → Word
  | .id => ID_VALUE
  | .sramsz => BitVec.ofNat 32 s.build.sramWords
  | .ctrl => ctrlWord s.ie
  | .status => statusWord s.status s.eng.life
  | .cmd => 0
  | .arg0 => s.arg0
  | .arg1 => s.arg1
  | .arg2 => s.arg2
  | .arg3 => s.arg3
  | .result => s.result
  | .rb r => readbackValue s.eng r
  | .reserved => 0
  | .sram a => if a < s.build.sramWords then s.mem.readWord a else 0

/-- The reads that are rejected while BUSY (20_memory.md R58): the SRAM window and the readback registers. Reading CMD
or a reserved offset is not among them (log 8, log 9). -/
def Location.readRejected : Location → Bool
  | .id => false
  | .sramsz => false
  | .ctrl => false
  | .status => false
  | .cmd => false
  | .arg0 => false
  | .arg1 => false
  | .arg2 => false
  | .arg3 => false
  | .result => false
  | .rb _ => true
  | .reserved => false
  | .sram _ => true

/-- The writes that are rejected while BUSY (20_memory.md R58): CMD, ARG0..ARG3, CTRL and the SRAM window. -/
def Location.writeRejected : Location → Bool
  | .id => false
  | .sramsz => false
  | .ctrl => true
  | .status => false
  | .cmd => true
  | .arg0 => true
  | .arg1 => true
  | .arg2 => true
  | .arg3 => true
  | .result => false
  | .rb _ => false
  | .reserved => false
  | .sram _ => true

/-- A rejected access sets EBUSY and changes nothing else (60_exceptions.md R173). -/
def State.setEbusy (s : State) : State := { s with status := { s.status with ebusy := true } }

/-- Command accept (30_encoding.md R80): PEND takes the word, DONE falls, BUSY rises. -/
def State.accept (s : State) (w : Word) : State :=
  { s with pend := w, status := { s.status with done := false, busy := true } }

/-- A write to CTRL (10_state.md R26): SRST = 1 performs the soft reset, which clears CTRL itself, the other bits
being ignored (70_reset_and_hazards.md R192); else IE takes bit 0. -/
def State.writeCtrl (s : State) (w : Word) : State :=
  if w.getLsbD 1 then s.resetRegs else { s with ie := w.getLsbD 0 }

/-- What a performed write does (10_state.md R20 to R29, 20_memory.md R53, R55). -/
def State.store (s : State) (w : Word) : Location → State
  | .id => s
  | .sramsz => s
  | .ctrl => s.writeCtrl w
  | .status => s.acknowledge w
  | .cmd => s.accept w
  | .arg0 => { s with arg0 := w }
  | .arg1 => { s with arg1 := w }
  | .arg2 => { s with arg2 := w }
  | .arg3 => { s with arg3 := w }
  | .result => s
  | .rb _ => s
  | .reserved => s
  | .sram a => if a < s.build.sramWords then { s with mem := s.mem.writeWord a w } else s

/-- A host read, `rst_n` being 1 (20_memory.md R50, R58). -/
def State.hostRead (s : State) (haddr : HostAddr) : State :=
  if s.status.busy && (locate haddr).readRejected then { s.setEbusy with hrdata := some 0 }
  else { s with hrdata := some (s.view (locate haddr)) }

/-- A host write, `rst_n` being 1 (20_memory.md R50, R58). -/
def State.hostWrite (s : State) (haddr : HostAddr) (w : Word) : State :=
  if s.status.busy && (locate haddr).writeRejected then s.setEbusy else s.store w (locate haddr)

/-- One event of the host. While `rst_n` = 0 every register holds its reset value, accesses are ignored and reads
return 0; on its release every register takes its reset value (70_reset_and_hazards.md R190, log 10). -/
def State.hostEvent (s : State) : HostEvent → State
  | .read a => if s.rstN then s.hostRead a else { s.hardReset with hrdata := some 0 }
  | .write a w => if s.rstN then s.hostWrite a w else s.hardReset
  | .rstLow => { s.hardReset with rstN := false }
  | .rstHigh => if s.rstN then s else { s.hardReset with rstN := true }
  | .pass => s

/-- The start of every step: the first event is taken from `inputs`, and the data of an earlier read is no longer on
`hrdata` (10_state.md R40, log 7). -/
def State.takeTurn (s : State) : State := { s with inputs := s.inputs.tail, hrdata := none }

end Sys2Proof.Machine
end

