-- ==== Sys2Proof/Machine/Datapath.lean ====
section
/-! DEFINITION. The datapath functions of spec/40_primitives.md: DERIVE, SIN, EXP2R, INC2, DRIFT, CUTOFF, LPFCOEF,
LPF, SOFTCLIP, SMOOTH, GAINMUL and MAC, as exact integer functions. -/

namespace Sys2Proof.Machine

/-- DERIVE's `ksm` (40_primitives.md R95): ln(100) / (T99_MS/1000 * fs) in UQ8.24, in [1, ONE]. -/
def ksmOf (t99Ms : Nat) (fsQ : Int) : Int := sat (C_LN100 * 2 ^ 8 / ((t99Ms : Int) * fsQ)) 1 ONE

/-- DERIVE(fs_q) (40_primitives.md R95): writes the rate and the three coefficients derived from it. -/
def Engine.derive (e : Engine) (t99Ms : Nat) (fsQ : Int) : Engine :=
  { e with
    fsQ := wrap32 fsQ
    inc1 := wrap32 (rndiv (BASE_Q * 2 ^ 32) fsQ)
    incLfo := wrap32 (rndiv (LFO_Q * 2 ^ 32) fsQ)
    ksm := wrap32 (ksmOf t99Ms fsQ) }

/-- SIN(p) (40_primitives.md R97): quadrant folding and an odd quintic in Q2.30; the result is Q8.24 in
[-ONE, ONE]. -/
def sinQ (p : Word) : Int :=
  let q : Nat := p.toNat / 2 ^ 30
  let f : Int := ((p.toNat % 2 ^ 30 : Nat) : Int)
  let x : Int := if q = 0 ∨ q = 2 then f else 2 ^ 30 - f
  let u2 : Int := asr (x * x) 30
  let t : Int := C3 + asr (C5 * u2) 30
  let t2 : Int := C1 + asr (t * u2) 30
  let s30 : Int := asr (x * t2) 30
  let s : Int := sat (asr (s30 + 32) 6) 0 ONE
  if q = 0 ∨ q = 1 then s else -s

/-- EXP2R(c) (40_primitives.md R98): `(R, n)` with `R * 2^n / 2^30` close to `2^(c / CENT_DIV)`. -/
def exp2r (c : Int) : Int × Int :=
  let y : Int := c * 2 ^ 30 / CENT_DIV
  let n : Int := asr y 30
  let f : Int := y - n * 2 ^ 30
  let r1 : Int := B2 + asr (B3 * f) 30
  let r2 : Int := B1 + asr (r1 * f) 30
  let r3 : Int := 2 ^ 30 + asr (r2 * f) 30
  (r3, n)

/-- INC2(inc1, c) (40_primitives.md R99): the companion voice's increment. The shift `30 - n` is at least 28 on every
`c` that RENDER uses; outside that domain a negative shift is taken as 0 (log 12). -/
def inc2Of (inc1 : Word) (c : Int) : Word :=
  let rn := exp2r c
  wrap32 (asr (zext32 inc1 * rn.1) (30 - rn.2).toNat)

/-- DRIFT(modph) (40_primitives.md R108): Q23.8 cents in [-768, 768]. -/
def drift (modph : Word) : Int := asr (DRIFT_Q * sinQ (wrap32 (zext32 modph + QUARTER))) 24

/-- FC_MAX(fs_q) (40_primitives.md R107). -/
def fcMax (fsQ : Int) : Int := asr fsQ 1 - 1

/-- CUTOFF(cb, cs, lfo, fs_q) (40_primitives.md R107). -/
def cutoff (cb cs lfo fsQ : Int) : Int := sat (cb + asr (cs * lfo) 24) FC_MIN_Q (fcMax fsQ)

/-- LPFCOEF(fc, fs_q) (40_primitives.md R100), UQ0.24. -/
def lpfCoef (fc fsQ : Int) : Int :=
  let p : Int := fc * TWOPI_Q16
  ONE * p / (fsQ * 2 ^ 16 + p)

/-- LPF(y, x, a) (40_primitives.md R101): one step of the one-pole low-pass filter. -/
def lpf (y x a : Int) : Int := y + asr (a * (x - y)) 24

/-- SOFTCLIP(u) (40_primitives.md R102): the cubic soft clip on the magnitude. -/
def softClip (u : Int) : Int :=
  let m : Int := (u.natAbs : Int)
  let g : Int :=
    if m ≥ ONE then ONE
    else
      let m2 := asr (m * m) 24
      let m3 := asr (m2 * m) 24
      min (asr (3 * m - m3) 1) ONE
  if u < 0 then -g else g

/-- SMOOTH(cur, tgt, k) (40_primitives.md R103): one step toward the target, rounded away from zero. -/
def smooth (cur tgt k : Int) : Int :=
  let d : Int := tgt - cur
  if d = 0 then cur
  else
    let step : Int := asr ((d.natAbs : Int) * k + ONE - 1) 24
    cur + d.sign * step

/-- GAINMUL(x, g) (40_primitives.md R104): the product rounded toward minus infinity. -/
def gainMul (x g : Int) : Int := asr (x * g) 24

/-- MAC(acc, x, g) (40_primitives.md R104). -/
def mac (acc x g : Int) : Int := acc + gainMul x g

end Sys2Proof.Machine
end

