-- ==== Sys2Proof/Machine/Kernels.lean ====
section
/-! DEFINITION. The vector kernel commands MIXG and SINEG (spec/44_kernels.md R160 to R162). They need no engine
instance and touch SRAM only. -/

namespace Sys2Proof.Machine

/-- MIXG's element loop (44_kernels.md R160, R162): `n` elements from element `i` on, each reading `src[i]`, then
`dst[i]`, then writing `dst[i]`. -/
def mixLoop (dst src : Nat) (g : Int) : (n : Nat) → (i : Nat) → Memory → Memory
  | 0, _, m => m
  | n + 1, i, m =>
    let x := sext32 (m.readWord (src + i))
    let acc := sext32 (m.readWord (dst + i))
    mixLoop dst src g n (i + 1) (m.writeWord (dst + i) (wrap32 (sat32 (mac acc x g))))

/-- MIXG (44_kernels.md R160): ARG0 = `dst`, ARG1 = `src`, ARG2 = `n`, ARG3 = `g` in Q8.24. -/
def execMixg (s : State) : Host.Outcome State Fault Refusal :=
  if s.mixgArgsOk then
    .next (State.complete
      { s with mem := mixLoop s.arg0.toNat s.arg1.toNat (sext32 s.arg3) s.arg2.toNat 0 s.mem } s.arg2)
  else .next (s.cmdError .arg)

/-- SINEG's element loop (44_kernels.md R161, R162): `n` outputs from word address `a` on, starting at phase `ph`;
answers the final phase and the memory. -/
def sineLoop (inc : Word) : (n : Nat) → (a : Nat) → (ph : Word) → Memory → Word × Memory
  | 0, _, ph, m => (ph, m)
  | n + 1, a, ph, m => sineLoop inc n (a + 1) (wrap32 (zext32 ph + zext32 inc)) (m.writeWord a (wrap32 (sinQ ph)))

/-- SINEG (44_kernels.md R161): ARG0 = `out`, ARG1 = `pa`, ARG2 = `inc`, ARG3 = `n`. The phase word is read once,
before any output write, and written last (R162). -/
def execSineg (s : State) : Host.Outcome State Fault Refusal :=
  if s.sinegArgsOk then
    let r := sineLoop s.arg2 s.arg3.toNat s.arg0.toNat (s.mem.readWord s.arg1.toNat) s.mem
    .next (State.complete { s with mem := r.2.writeWord s.arg1.toNat r.1 } s.arg3)
  else .next (s.cmdError .arg)

end Sys2Proof.Machine
end

