-- ==== Sys2Proof/Machine/Lifecycle.lean ====
section
/-! DEFINITION. The lifecycle commands NOP, CREATE, DESTROY and RESET (spec/41_lifecycle.md R120 to R125). -/

namespace Sys2Proof.Machine

/-- The default scene (41_lifecycle.md R123). -/
def Scene.default : Scene :=
  { cutBase := DEF_CUT_BASE, cutSpan := DEF_CUT_SPAN, drive := DEF_DRIVE, outGain := DEF_OUT_GAIN,
    detune := DEF_DETUNE }

/-- The phases and the filter state at their quiescent values (41_lifecycle.md R121, R125). -/
def Engine.quiesce (e : Engine) : Engine := { e with ph1 := 0, ph2 := 0, modph := 0, y := 0 }

/-- What CREATE makes of the engine state for the valid rate `q` (41_lifecycle.md R121). -/
def Engine.created (e : Engine) (t99Ms : Nat) (q : Int) : Engine :=
  { (e.derive t99Ms q).quiesce with
    postGain := DEF_POST_GAIN, cur := Scene.default, tgt := Scene.default, life := .ready }

/-- NOP (41_lifecycle.md R120). -/
def execNop (s : State) : Host.Outcome State Fault Refusal := .next (s.complete 0)

/-- CREATE (41_lifecycle.md R121): ARG0 is the sample rate; RESULT 1 is the non-null handle. -/
def execCreate (s : State) : Host.Outcome State Fault Refusal :=
  match s.eng.life with
  | .ready => .next (s.cmdError .state)
  | .uninit =>
    match fsValid (f32dec s.arg0) with
    | none => .next (s.cmdError .arg)
    | some q => .next (State.complete { s with eng := s.eng.created s.build.t99Ms q } 1)

/-- DESTROY (41_lifecycle.md R124): every numeric field of `S` becomes 0. -/
def execDestroy (s : State) : Host.Outcome State Fault Refusal :=
  match s.eng.life with
  | .uninit => .next (s.cmdError .state)
  | .ready => .next (State.complete { s with eng := Engine.zero } 0)

/-- RESET (41_lifecycle.md R125): re-derives the coefficients for the rate in ARG0 and zeroes phases and filter state;
the scene and the post gain stay. -/
def execReset (s : State) : Host.Outcome State Fault Refusal :=
  match s.eng.life with
  | .uninit => .next (s.cmdError .state)
  | .ready =>
    match fsValid (f32dec s.arg0) with
    | none => .next (s.cmdError .arg)
    | some q => .next (State.complete { s with eng := (s.eng.derive s.build.t99Ms q).quiesce } 0)

end Sys2Proof.Machine
end

