-- ==== Sys2Proof/Machine/Render.lean ====
section
/-! DEFINITION. RENDER and the per-sample signal chain (spec/43_render.md R140 to R149). -/

namespace Sys2Proof.Machine

/-- The smoother sub-step (43_render.md R143): one SMOOTH step of each of the five parameters, with the single
coefficient `k`. -/
def Scene.smoothed (cur tgt : Scene) (k : Int) : Scene :=
  { cutBase := wrap32 (smooth (zext32 cur.cutBase) (zext32 tgt.cutBase) k)
    cutSpan := wrap32 (smooth (zext32 cur.cutSpan) (zext32 tgt.cutSpan) k)
    drive := wrap32 (smooth (zext32 cur.drive) (zext32 tgt.drive) k)
    outGain := wrap32 (smooth (zext32 cur.outGain) (zext32 tgt.outGain) k)
    detune := wrap32 (smooth (sext32 cur.detune) (sext32 tgt.detune) k) }

/-- Sub-step 1, the smoother (43_render.md R142, R143). -/
def Engine.smoothStep (e : Engine) : Engine := { e with cur := e.cur.smoothed e.tgt (zext32 e.ksm) }

/-- Sub-step 2, the oscillator bank (43_render.md R144): the two voices, each scaled by one half, summed. -/
def Engine.osc (e : Engine) : Int := gainMul (sinQ e.ph1) HALF + gainMul (sinQ e.ph2) HALF

/-- The filter coefficient of this sample (43_render.md R145): LFO, CUTOFF, LPFCOEF. -/
def Engine.filterCoef (e : Engine) : Int :=
  lpfCoef (cutoff (zext32 e.cur.cutBase) (zext32 e.cur.cutSpan) (sinQ e.modph) (zext32 e.fsQ)) (zext32 e.fsQ)

/-- Sub-step 3, the modulated filter (43_render.md R145). -/
def Engine.filterStep (e : Engine) : Engine := { e with y := wrap32 (lpf (sext32 e.y) e.osc e.filterCoef) }

/-- Sub-step 4, saturation (43_render.md R146). -/
def Engine.saturated (e : Engine) : Int := softClip (gainMul (sext32 e.y) (zext32 e.cur.drive))

/-- Sub-step 5, output gain, post gain and the output clamp (43_render.md R147). -/
def Engine.output (e : Engine) : Int :=
  sat (gainMul (gainMul e.saturated (zext32 e.cur.outGain)) (zext32 e.postGain)) (-ONE) ONE

/-- Sub-step 6, the phase advance (43_render.md R149), the passing of one sample period `1/fs`, the block's only notion
of time (60_exceptions.md R181): voice 2's increment from this step's smoothed detune and the
drift at the modulation phase before its advance. -/
def Engine.advance (e : Engine) : Engine :=
  { e with
    ph1 := wrap32 (zext32 e.ph1 + zext32 e.inc1)
    ph2 := wrap32 (zext32 e.ph2 + zext32 (inc2Of e.inc1 (sext32 e.cur.detune + drift e.modph)))
    modph := wrap32 (zext32 e.modph + zext32 e.incLfo) }

/-- SAMPLE_STEP (43_render.md R142): the updated `S` and the mono output `z`. -/
def sampleStep (e : Engine) : Engine × Int :=
  let e1 := e.smoothStep.filterStep
  (e1.advance, e1.output)

/-- The duplicator (43_render.md R148): `n` words `w` from word address `a` on, in ascending order. -/
def Memory.fill (m : Memory) (a : Nat) (w : Word) : Nat → Memory
  | 0 => m
  | n + 1 => (m.writeWord a w).fill (a + 1) w n

/-- RENDER_LOOP (43_render.md R141): `n` frames from frame number `f` on, one sample step, so one sample period, for
each frame (60_exceptions.md R181). -/
def renderLoop (dst ch : Nat) : (n : Nat) → (f : Nat) → Engine → Memory → Engine × Memory
  | 0, _, e, m => (e, m)
  | n + 1, f, e, m =>
    let r := sampleStep e
    renderLoop dst ch n (f + 1) r.1 (m.fill (dst + f * ch) (fixToF32 r.2) ch)

/-- RENDER (43_render.md R140): every check comes before any write; RESULT is `frames`. -/
def execRender (s : State) : Host.Outcome State Fault Refusal :=
  match s.eng.life with
  | .uninit => .next (s.cmdError .state)
  | .ready =>
    if s.renderArgsOk then
      let r := renderLoop s.arg0.toNat s.arg2.toNat s.arg1.toNat 0 s.eng s.mem
      .next (State.complete { s with eng := r.1, mem := r.2 } s.arg1)
    else .next (s.cmdError .arg)

end Sys2Proof.Machine
end

