-- ==== Sys2Proof/Machine/Setters.lean ====
section
/-! DEFINITION. The parameter setters (spec/42_setters.md R130 to R136). -/

namespace Sys2Proof.Machine

/-- The setters' template (42_setters.md R130): the lifecycle check, the operand check, then one write of the
destination. `operand` checks and converts ARG0, `store` writes the destination. -/
def setter (operand : F32 → Option Int) (store : Engine → Word → Engine) (s : State) :
    Host.Outcome State Fault Refusal :=
  match s.eng.life with
  | .uninit => .next (s.cmdError .state)
  | .ready =>
    match operand (f32dec s.arg0) with
    | none => .next (s.cmdError .arg)
    | some v => .next (State.complete { s with eng := store s.eng (wrap32 v) } 0)

/-- `S.post_gain <- w`. -/
def Engine.setPostGain (e : Engine) (w : Word) : Engine := { e with postGain := w }
/-- `S.tgt.cut_base <- w`. -/
def Engine.setCutBase (e : Engine) (w : Word) : Engine := { e with tgt := { e.tgt with cutBase := w } }
/-- `S.tgt.cut_span <- w`. -/
def Engine.setCutSpan (e : Engine) (w : Word) : Engine := { e with tgt := { e.tgt with cutSpan := w } }
/-- `S.tgt.drive <- w`. -/
def Engine.setDrive (e : Engine) (w : Word) : Engine := { e with tgt := { e.tgt with drive := w } }
/-- `S.tgt.out_gain <- w`. -/
def Engine.setOutGain (e : Engine) (w : Word) : Engine := { e with tgt := { e.tgt with outGain := w } }
/-- `S.tgt.detune <- w`. -/
def Engine.setDetune (e : Engine) (w : Word) : Engine := { e with tgt := { e.tgt with detune := w } }

/-- SET_GAIN (42_setters.md R131): immediate, no smoothing. -/
def execSetGain (s : State) : Host.Outcome State Fault Refusal := setter gainOperand Engine.setPostGain s

/-- SET_CUT_BASE (42_setters.md R132). -/
def execSetCutBase (s : State) : Host.Outcome State Fault Refusal := setter cutBaseOperand Engine.setCutBase s

/-- SET_CUT_SPAN (42_setters.md R133). -/
def execSetCutSpan (s : State) : Host.Outcome State Fault Refusal := setter cutSpanOperand Engine.setCutSpan s

/-- SET_DRIVE (42_setters.md R134). -/
def execSetDrive (s : State) : Host.Outcome State Fault Refusal := setter driveOperand Engine.setDrive s

/-- SET_OUT_GAIN (42_setters.md R135). -/
def execSetOutGain (s : State) : Host.Outcome State Fault Refusal := setter gainOperand Engine.setOutGain s

/-- SET_DETUNE (42_setters.md R136). -/
def execSetDetune (s : State) : Host.Outcome State Fault Refusal := setter detuneOperand Engine.setDetune s

end Sys2Proof.Machine
end

