-- ==== Sys2Proof/Machine/Dispatch.lean ====
section
/-! DEFINITION. The COMPLETE of a decoded command: one arm per command, each one call of its meaning
(spec/30_encoding.md R80). -/

namespace Sys2Proof.Machine

def exec (i : Instr) (s : State) : Host.Outcome State Fault Refusal :=
  match i with
  | .nop => Sys2Proof.Machine.execNop s
  | .create => Sys2Proof.Machine.execCreate s
  | .destroy => Sys2Proof.Machine.execDestroy s
  | .reset => Sys2Proof.Machine.execReset s
  | .render => Sys2Proof.Machine.execRender s
  | .setGain => Sys2Proof.Machine.execSetGain s
  | .setCutBase => Sys2Proof.Machine.execSetCutBase s
  | .setCutSpan => Sys2Proof.Machine.execSetCutSpan s
  | .setDrive => Sys2Proof.Machine.execSetDrive s
  | .setOutGain => Sys2Proof.Machine.execSetOutGain s
  | .setDetune => Sys2Proof.Machine.execSetDetune s
  | .mixg => Sys2Proof.Machine.execMixg s
  | .sineg => Sys2Proof.Machine.execSineg s

end Sys2Proof.Machine
end

