-- ==== Sys2Proof/Machine/Step.lean ====
section
/-! DEFINITION. The step of the block: one step of the host or one of the sequencer (spec/00_scope.md R5). -/

namespace Sys2Proof.Machine

/-- The sequencer's step COMPLETE (30_encoding.md R80): the pending word is decoded and its command runs whole; an
ILLEGAL word ends with ERRCODE ILLEGAL (R73, R74, log 11). -/
def completePending (s : State) : Host.Outcome State Fault Refusal :=
  match decode s.pend with
  | .ok i => exec i s
  | .error _ => .next (s.cmdError .illegal)

/-- The sequencer's turn: COMPLETE while BUSY = 1; an idle block keeps its state (60_exceptions.md R185); while
`rst_n` = 0 the block is held in reset and no COMPLETE happens (70_reset_and_hazards.md R190, R198). -/
def sequencerTurn (s : State) : Host.Outcome State Fault Refusal :=
  if s.rstN then
    if s.status.busy then completePending s else .next s
  else .next s.hardReset

/-- One step: the first of the coming events of the host, or, where the host makes no access, the sequencer's turn
(00_scope.md R5, 20_memory.md R57, log 2). -/
def step (s : State) : Host.Outcome State Fault Refusal :=
  match s.inputs with
  | [] => sequencerTurn s.takeTurn
  | .pass :: _ => sequencerTurn s.takeTurn
  | ev :: _ => .next (s.takeTurn.hostEvent ev)

/-- `s` with the command word `w` accepted (30_encoding.md R80) and the sequencer's turn next, so that the very next
step runs it. It stands for the host's write to CMD (log 3). -/
def State.withFetchWord (s : State) (nbits w : Nat) : State :=
  { s.accept (BitVec.ofNat 32 (w % 2 ^ nbits)) with rstN := true, inputs := [] }

end Sys2Proof.Machine
end

