-- ==== Sys2Proof/Safety.lean ====
section
/-! DEFINITION. What claims about runs are stated in: the invariants of the engine state (spec/10_state.md R30, R32,
R34), of the SRAM's form, and of the control state, and whose turn the next step is. -/

namespace Sys2Proof.Machine

/-- The legal register ranges of the scene parameters (10_state.md R32). The three others use the whole range of their
32-bit format. -/
abbrev Scene.InRange (p : Scene) : Prop :=
  DRIVE_MIN_Q ≤ zext32 p.drive ∧ zext32 p.drive ≤ DRIVE_MAX_Q
    ∧ -DETUNE_MAX_Q ≤ sext32 p.detune ∧ sext32 p.detune ≤ DETUNE_MAX_Q

/-- The range invariants of the engine state while READY (10_state.md R30, R34). -/
abbrev Engine.ReadyInRange (t99Ms : Nat) (e : Engine) : Prop :=
  (FS_MIN_Q ≤ zext32 e.fsQ ∧ zext32 e.fsQ ≤ FS_MAX_Q)
    ∧ zext32 e.inc1 = rndiv (BASE_Q * 2 ^ 32) (zext32 e.fsQ)
    ∧ zext32 e.incLfo = rndiv (LFO_Q * 2 ^ 32) (zext32 e.fsQ)
    ∧ zext32 e.ksm = ksmOf t99Ms (zext32 e.fsQ)
    ∧ (1 ≤ zext32 e.ksm ∧ zext32 e.ksm ≤ ONE)
    ∧ (-ONE ≤ sext32 e.y ∧ sext32 e.y ≤ ONE)
    ∧ e.cur.InRange ∧ e.tgt.InRange

/-- The invariant of the engine state: while UNINIT every numeric field is 0 (10_state.md R30), while READY the ranges
hold (R34). -/
abbrev Engine.Inv (t99Ms : Nat) (e : Engine) : Prop :=
  (e.life = .uninit → e = Engine.zero) ∧ (e.life = .ready → e.ReadyInRange t99Ms)

/-- A mark that the block of `words` words can have after `draws` abandoned commands. -/
def markFits (words draws : Nat) (e : Nat × Mark) : Bool :=
  decide (e.1 < words) && match e.2 with
    | .stored => true
    | .drawn k => decide (k ≤ draws)

/-- Only words the build has are listed (20_memory.md R52), and no free draw is one that is still to come (log 5). -/
abbrev Memory.Fits (m : Memory) (words draws : Nat) : Prop := m.marks.all (markFits words draws) = true

/-- The SRAM is in its canonical form and within its size. -/
abbrev State.MemInv (s : State) : Prop := s.mem.wf = true ∧ s.mem.Fits s.build.sramWords s.draws

/-- The control state: DONE is 0 while a command runs (30_encoding.md R80), PEND is 0 while none does (10_state.md
R33), and while `rst_n` = 0 every register holds its reset value (70_reset_and_hazards.md R190). -/
abbrev State.ControlInv (s : State) : Prop :=
  (s.status.busy = true → s.status.done = false) ∧ (s.status.busy = false → s.pend = 0)
    ∧ (s.rstN = false → s.resetRegs = s)

/-- The next step is the sequencer's turn: the host makes no access. -/
abbrev State.SequencerNext (s : State) : Prop := s.inputs = [] ∨ ∃ rest, s.inputs = .pass :: rest

/-- The time-like state of the block, its three phases (60_exceptions.md R181). -/
def Engine.phases (e : Engine) : Word × Word × Word := (e.ph1, e.ph2, e.modph)

/-- The engine state before frame number `n` of a RENDER that starts from `e` (43_render.md R141): `e` after the sample
count `n`, `n` sample periods later (60_exceptions.md R181). -/
def Engine.atFrame (e : Engine) : Nat → Engine
  | 0 => e
  | n + 1 => (sampleStep (e.atFrame n)).1

/-- The registers R38 names hold their reset values (10_state.md R38). -/
abbrev State.RegistersReset (s : State) : Prop :=
  s.ie = false ∧ s.status = Status.zero ∧ s.arg0 = 0 ∧ s.arg1 = 0 ∧ s.arg2 = 0 ∧ s.arg3 = 0 ∧ s.result = 0
    ∧ s.pend = 0 ∧ s.eng = Engine.zero

/-- A safe run in the sense of 70_reset_and_hazards.md R194: the host has kept the busy hazard's rule, EBUSY = 0. -/
abbrev State.HazardFree (s : State) : Prop := s.status.ebusy = false

end Sys2Proof.Machine
end

