-- ==== Sys2Proof/Certificates/Slice0/Obligations.lean ====
section
/-! DEFINITION. The statements about the block, each a proposition for the provers. The rules cited are those of
spec/. -/

open Sys2Proof Sys2Proof.Machine

/-! ### Decoding and encoding -/

/-- The 13 command words of 30_encoding.md R72, written out, decode to their commands; a word whose `OPC` is unassigned
(R74) and a word whose reserved bits are not 0 (R73) do not decode. -/
def Obligations.SpecCommandWordsDecode : Prop :=
  decode 0x00000000 = .ok .nop ∧ decode 0x00000001 = .ok .create ∧ decode 0x00000002 = .ok .destroy
    ∧ decode 0x00000003 = .ok .reset ∧ decode 0x00000004 = .ok .render ∧ decode 0x00000010 = .ok .setGain
    ∧ decode 0x00000011 = .ok .setCutBase ∧ decode 0x00000012 = .ok .setCutSpan ∧ decode 0x00000013 = .ok .setDrive
    ∧ decode 0x00000014 = .ok .setOutGain ∧ decode 0x00000015 = .ok .setDetune ∧ decode 0x00000020 = .ok .mixg
    ∧ decode 0x00000021 = .ok .sineg
    ∧ decode 0x00000005 = .error .unassignedOpcode ∧ decode 0x00000104 = .error .reservedBits

/-- 30_encoding.md R70, R72, R74: a word decodes to a command exactly when it is that command's word, and a word is
one of the 13 commands exactly when it is well formed. -/
def Obligations.DecodeIsExactlyEncode : Prop :=
  (∀ (w : Word) (i : Instr), decode w = .ok i ↔ w = encode i)
    ∧ (∀ w : Word, (∃ i, decode w = .ok i) ↔ wordWellFormed w = true)
    ∧ ∀ w : Word, decode w = .error .reservedBits ↔ rsvIsZero w = false

/-- 30_encoding.md R73, R74: at the sequencer's turn an ILLEGAL word completes with ERRCODE 1 and no other effect, and
every other word is one of the 13 commands and runs as that command. -/
def Obligations.IllegalWordCompletesWithErrcodeOne : Prop :=
  ∀ s : State, s.rstN = true → s.status.busy = true → s.SequencerNext →
    (wordWellFormed s.pend = false →
      step s = .next { s with
        inputs := s.inputs.tail, hrdata := none, result := 0, pend := 0,
        status := { s.status with errcode := .illegal, eill := true, done := true, busy := false } })
    ∧ (wordWellFormed s.pend = true →
      ∃ i, encode i = s.pend ∧ step s = exec i { s with inputs := s.inputs.tail, hrdata := none })

/-! ### The step -/

/-- 30_encoding.md R80: at the sequencer's turn, while BUSY = 1, the pending word is decoded and the step is the
command's. What the step adds is taking the turn: the pass is taken from the inputs, and no read data is on
`hrdata`. -/
def Obligations.StepRunsDecodedCommand : Prop :=
  ∀ (s : State) (i : Instr), s.rstN = true → s.status.busy = true → s.SequencerNext → decode s.pend = .ok i →
    step s = exec i { s with inputs := s.inputs.tail, hrdata := none }

/-- 60_exceptions.md R185: an idle block at the sequencer's turn keeps its whole state; and no step of any kind ever
stops the block or changes its build (93_implementation_defined.md: "Nothing in the block is `stuck`"). -/
def Obligations.NoStepEverStops : Prop :=
  (∀ s : State, s.rstN = true → s.status.busy = false → s.SequencerNext →
      step s = .next { s with inputs := s.inputs.tail, hrdata := none })
    ∧ ∀ s : State, ∃ t, step s = .next t ∧ t.build = s.build ∧ t.inputs = s.inputs.tail

/-- 70_reset_and_hazards.md R196, R197: an accepted command completes at the sequencer's next turn: BUSY is then 0,
DONE is 1 and PEND is cleared, whatever the command word is. -/
def Obligations.AcceptedCommandCompletes : Prop :=
  ∀ (s : State) (w : Word), s.rstN = true → s.status.busy = false →
    ∃ t, Host.Core.run Sys2Proof.core 2 ({ s with inputs := [.write 0x010 w, .pass] } : State) = .next t
      ∧ t.status.busy = false ∧ t.status.done = true ∧ t.pend = 0

/-! ### Invariants -/

/-- 10_state.md R34: every step keeps the range invariants of the engine state. -/
def Obligations.EngineRangesKeptByEveryStep : Prop :=
  ∀ s t : State, s.eng.Inv s.build.t99Ms → step s = .next t → t.eng.Inv t.build.t99Ms

/-- Every step keeps the SRAM in its canonical form, within the words the build has, and never writes a free draw that
is still to come. The form is the model's own (log 5, log 6). -/
def Obligations.MemoryFormKeptByEveryStep : Prop :=
  ∀ s t : State, s.MemInv → step s = .next t → t.MemInv

/-- 10_state.md R33, 30_encoding.md R80, 70_reset_and_hazards.md R190: every step keeps the control state: DONE is 0
while BUSY, PEND is 0 while idle, and the registers are at reset while `rst_n` = 0. -/
def Obligations.ControlStateKeptByEveryStep : Prop :=
  ∀ s t : State, s.ControlInv → step s = .next t → t.ControlInv

/-- The state after reset meets the three invariants, for every build. -/
def Obligations.ResetMeetsTheInvariants : Prop :=
  ∀ b : Build, (State.resetOf b).eng.Inv b.t99Ms ∧ (State.resetOf b).MemInv ∧ (State.resetOf b).ControlInv

/-- 10_state.md R38: the values after reset, as the host reads them and in the latch and the engine state, that the
block then waits, and that every SRAM word is unspecified. That the unspecified value of word `a` is the free draw
`Config.sramDraw 0 a` is the model's form (log 4). -/
def Obligations.ResetValues : Prop :=
  ∀ b : Build,
    (State.resetOf b).view .ctrl = 0 ∧ (State.resetOf b).view .status = 0 ∧ (State.resetOf b).view .arg0 = 0
      ∧ (State.resetOf b).view .arg1 = 0 ∧ (State.resetOf b).view .arg2 = 0 ∧ (State.resetOf b).view .arg3 = 0
      ∧ (State.resetOf b).view .result = 0 ∧ (State.resetOf b).view .id = 0x414D4231
      ∧ (State.resetOf b).view .sramsz = BitVec.ofNat 32 b.sramWords
      ∧ (∀ r, (State.resetOf b).view (.rb r) = 0)
      ∧ (State.resetOf b).pend = 0 ∧ (State.resetOf b).eng = Engine.zero ∧ (State.resetOf b).irq = false
      ∧ step (State.resetOf b) = .next (State.resetOf b)
      ∧ ∀ a, (State.resetOf b).mem.readWord a = Config.sramDraw 0 a

/-! ### Completion and errors -/

/-- 60_exceptions.md R174, R175: what an error completion and a successful completion write, field by field; an error
completion raises `irq` if CTRL.IE = 1. -/
def Obligations.CompletionRecords : Prop :=
  (∀ (s : State) (c : ErrCode), c ≠ .ok → s.cmdError c =
      { s with
        result := 0, pend := 0,
        status := { s.status with
          errcode := c, done := true, busy := false,
          eill := s.status.eill || decide (c = .illegal), estate := s.status.estate || decide (c = .state),
          earg := s.status.earg || decide (c = .arg) } }
      ∧ (s.cmdError c).irq = s.ie)
    ∧ ∀ (s : State) (r : Word), s.complete r =
      { s with result := r, pend := 0, status := { s.status with errcode := .ok, done := true, busy := false } }

/-- 60_exceptions.md R174, R178: whatever the command, when it ends with an error the step has written the completion
record and nothing else, and the code is STATE or ARG. -/
def Obligations.ErrorsArePrecise : Prop :=
  ∀ (i : Instr) (s t : State), exec i s = .next t → t.status.errcode ≠ .ok →
    t.status.errcode ≠ .illegal ∧
    t = { s with
      result := 0, pend := 0,
      status := { s.status with
        errcode := t.status.errcode, done := true, busy := false,
        estate := s.status.estate || decide (t.status.errcode = .state),
        earg := s.status.earg || decide (t.status.errcode = .arg) } }

/-- 60_exceptions.md R175, 10_state.md R22, R27: whatever the command, when it ends without error, ERRCODE is 0, DONE is 1,
BUSY is 0, PEND is 0, the sticky flags are kept, RESULT is the command's, and READY reflects `S.life`. -/
def Obligations.SuccessRecordAndResult : Prop :=
  ∀ (i : Instr) (s t : State), exec i s = .next t → t.status.errcode = .ok →
    t.status = { s.status with errcode := .ok, done := true, busy := false } ∧ t.pend = 0
      ∧ t.result = (match i with
        | .create => 1
        | .render => s.arg1
        | .mixg => s.arg2
        | .sineg => s.arg3
        | .nop | .destroy | .reset | .setGain | .setCutBase | .setCutSpan | .setDrive | .setOutGain | .setDetune => 0)
      ∧ (statusWord t.status t.eng.life).getLsbD 2 = decide (t.eng.life = .ready)

/-- 60_exceptions.md R171, R172: the code each command ends with, STATE before ARG; a condition not listed raises
nothing. -/
def Obligations.CommandErrorCauses : Prop :=
  ∀ s : State,
    (∃ t, exec .nop s = .next t ∧ t.status.errcode = .ok)
    ∧ (∃ t, exec .create s = .next t ∧ t.status.errcode =
        if s.eng.life = .ready then .state else if (fsValid (f32dec s.arg0)).isNone then .arg else .ok)
    ∧ (∃ t, exec .destroy s = .next t ∧ t.status.errcode = if s.eng.life = .uninit then .state else .ok)
    ∧ (∃ t, exec .reset s = .next t ∧ t.status.errcode =
        if s.eng.life = .uninit then .state else if (fsValid (f32dec s.arg0)).isNone then .arg else .ok)
    ∧ (∃ t, exec .render s = .next t ∧ t.status.errcode =
        if s.eng.life = .uninit then .state
        else if s.arg1 = 0 ∨ s.arg2 = 0
          ∨ s.arg0.toNat + s.arg1.toNat * s.arg2.toNat > s.build.sramWords then .arg else .ok)
    ∧ (∀ i ∈ [Instr.setGain, .setCutSpan, .setOutGain], ∃ t, exec i s = .next t ∧ t.status.errcode =
        if s.eng.life = .uninit then .state
        else match f32dec s.arg0 with
          | .fin m _ => if m < 0 then .arg else .ok
          | .nan | .posInf | .negInf => .arg)
    ∧ (∃ t, exec .setCutBase s = .next t ∧ t.status.errcode =
        if s.eng.life = .uninit then .state
        else match f32dec s.arg0 with
          | .fin m _ => if m ≤ 0 then .arg else .ok
          | .nan | .posInf | .negInf => .arg)
    ∧ (∃ t, exec .setDrive s = .next t ∧ t.status.errcode =
        if s.eng.life = .uninit then .state else if f32dec s.arg0 = .nan then .arg else .ok)
    ∧ (∃ t, exec .setDetune s = .next t ∧ t.status.errcode =
        if s.eng.life = .uninit then .state
        else if f32dec s.arg0 = .nan ∨ f32dec s.arg0 = .posInf ∨ f32dec s.arg0 = .negInf then .arg else .ok)
    ∧ (∃ t, exec .mixg s = .next t ∧ t.status.errcode =
        if s.arg0.toNat + s.arg2.toNat > s.build.sramWords ∨ s.arg1.toNat + s.arg2.toNat > s.build.sramWords
        then .arg else .ok)
    ∧ (∃ t, exec .sineg s = .next t ∧ t.status.errcode =
        if s.arg1.toNat ≥ s.build.sramWords ∨ s.arg0.toNat + s.arg3.toNat > s.build.sramWords then .arg else .ok)

/-- 10_state.md R31: only CREATE moves UNINIT to READY, only DESTROY and reset move READY to UNINIT, and a command that
needs READY ends in UNINIT with STATE. -/
def Obligations.LifecycleMovesOnlyBy : Prop :=
  (∀ s t : State, step s = .next t → s.eng.life = .uninit → t.eng.life = .ready →
      s.rstN = true ∧ s.status.busy = true ∧ s.SequencerNext ∧ decode s.pend = .ok .create)
    ∧ (∀ s t : State, step s = .next t → s.eng.life = .ready → t.eng.life = .uninit →
      (s.rstN = true ∧ s.status.busy = true ∧ s.SequencerNext ∧ decode s.pend = .ok .destroy)
        ∨ s.rstN = false ∨ s.inputs.head? = some .rstLow
        ∨ ∃ a w, s.inputs.head? = some (.write a w) ∧ locate a = .ctrl ∧ w.getLsbD 1 = true ∧ s.status.busy = false)
    ∧ ∀ i ∈ [Instr.destroy, .reset, .render, .setGain, .setCutBase, .setCutSpan, .setDrive, .setOutGain, .setDetune],
      ∀ s : State, s.eng.life = .uninit → exec i s = .next (s.cmdError .state)

/-- What no command writes, whatever the command and whether or not it ends with an error: the operand registers
(10_state.md R21), CTRL, EBUSY (R37), the reset input, the build and the model's own fields. Only RENDER, MIXG and SINEG
write SRAM (20_memory.md R52), and MIXG, SINEG and NOP never touch the engine state (44_kernels.md R160, R161). -/
def Obligations.FrameOfEveryCommand : Prop :=
  ∀ (i : Instr) (s t : State), exec i s = .next t →
    (t.arg0 = s.arg0 ∧ t.arg1 = s.arg1 ∧ t.arg2 = s.arg2 ∧ t.arg3 = s.arg3 ∧ t.ie = s.ie
      ∧ t.status.ebusy = s.status.ebusy ∧ t.rstN = s.rstN ∧ t.build = s.build ∧ t.draws = s.draws
      ∧ t.hrdata = s.hrdata ∧ t.inputs = s.inputs)
      ∧ (i ∉ [Instr.render, .mixg, .sineg] → t.mem = s.mem ∧ ∀ b, t.mem.readByte b = s.mem.readByte b)
      ∧ (i ∈ [Instr.nop, .mixg, .sineg] → t.eng = s.eng)

/-- 30_encoding.md R71: unused operand registers have no effect: with other values in them a command does the same,
and leaves those values there. -/
def Obligations.UnusedOperandsHaveNoEffect : Prop :=
  ∀ (s : State) (v0 v1 v2 v3 : Word),
    (∀ i ∈ [Instr.nop, .destroy], ∃ t, exec i s = .next t
      ∧ exec i { s with arg0 := v0, arg1 := v1, arg2 := v2, arg3 := v3 }
        = .next { t with arg0 := v0, arg1 := v1, arg2 := v2, arg3 := v3 })
    ∧ (∀ i ∈ [Instr.create, .reset, .setGain, .setCutBase, .setCutSpan, .setDrive, .setOutGain, .setDetune],
      ∃ t, exec i s = .next t
        ∧ exec i { s with arg1 := v1, arg2 := v2, arg3 := v3 } = .next { t with arg1 := v1, arg2 := v2, arg3 := v3 })
    ∧ ∃ t, exec .render s = .next t ∧ exec .render { s with arg3 := v3 } = .next { t with arg3 := v3 }

/-! ### The host's accesses -/

/-- 20_memory.md R64, 10_state.md R20, R28, R29: the whole address map: `haddr[1:0]` is ignored, the SRAM window, each
register's offset, and every other offset below the window reserved. -/
def Obligations.AddressMap : Prop :=
  (∀ a b : HostAddr, a.toNat / 4 = b.toNat / 4 → locate a = locate b)
    ∧ (∀ a : HostAddr, 0x4000 ≤ a.toNat → locate a = .sram ((a.toNat - 0x4000) / 4))
    ∧ locate 0x000 = .id ∧ locate 0x004 = .sramsz ∧ locate 0x008 = .ctrl ∧ locate 0x00C = .status
    ∧ locate 0x010 = .cmd ∧ locate 0x014 = .arg0 ∧ locate 0x018 = .arg1 ∧ locate 0x01C = .arg2
    ∧ locate 0x020 = .arg3 ∧ locate 0x024 = .result
    ∧ locate 0x040 = .rb .fsQ ∧ locate 0x044 = .rb .inc1 ∧ locate 0x048 = .rb .incLfo ∧ locate 0x04C = .rb .ksm
    ∧ locate 0x050 = .rb .ph1 ∧ locate 0x054 = .rb .ph2 ∧ locate 0x058 = .rb .modph ∧ locate 0x05C = .rb .filtY
    ∧ locate 0x060 = .rb .postGain ∧ locate 0x064 = .rb .life
    ∧ locate 0x080 = .rb .cutBaseCur ∧ locate 0x084 = .rb .cutBaseTgt ∧ locate 0x088 = .rb .cutSpanCur
    ∧ locate 0x08C = .rb .cutSpanTgt ∧ locate 0x090 = .rb .driveCur ∧ locate 0x094 = .rb .driveTgt
    ∧ locate 0x098 = .rb .outGainCur ∧ locate 0x09C = .rb .outGainTgt ∧ locate 0x0A0 = .rb .detuneCur
    ∧ locate 0x0A4 = .rb .detuneTgt
    ∧ ∀ a : HostAddr, (0x028 ≤ a.toNat ∧ a.toNat < 0x040) ∨ (0x068 ≤ a.toNat ∧ a.toNat < 0x080)
        ∨ (0x0A8 ≤ a.toNat ∧ a.toNat < 0x4000) → locate a = .reserved

/-- 10_state.md R27: the layout of STATUS, bit by bit. -/
def Obligations.StatusLayout : Prop :=
  ∀ (st : Status) (l : Life),
    (statusWord st l).getLsbD 0 = st.busy ∧ (statusWord st l).getLsbD 1 = st.done
      ∧ (statusWord st l).getLsbD 2 = decide (l = .ready) ∧ (statusWord st l).getLsbD 3 = false
      ∧ (statusWord st l).toNat / 16 % 16 = (match st.errcode with
        | .ok => 0
        | .illegal => 1
        | .state => 2
        | .arg => 3)
      ∧ (statusWord st l).getLsbD 8 = st.ebusy ∧ (statusWord st l).getLsbD 9 = st.eill
      ∧ (statusWord st l).getLsbD 10 = st.estate ∧ (statusWord st l).getLsbD 11 = st.earg
      ∧ (statusWord st l).toNat < 2 ^ 12

/-- 20_memory.md R58: every row of the table of accesses while BUSY = 1, with what each performed read delivers and
what a STATUS write clears. That the reserved offsets between the readback
registers count as reserved, and so set no flag, is the model's reading (log 9). -/
def Obligations.AccessesWhileBusy : Prop :=
  ∀ (s : State) (a : HostAddr) (w : Word) (rest : List HostEvent), s.rstN = true → s.status.busy = true →
    (s.inputs = .write a w :: rest →
      ((locate a = .cmd ∨ locate a = .arg0 ∨ locate a = .arg1 ∨ locate a = .arg2 ∨ locate a = .arg3
          ∨ locate a = .ctrl ∨ ∃ n, locate a = .sram n) →
        step s = .next { s with inputs := rest, hrdata := none, status := { s.status with ebusy := true } })
      ∧ (locate a = .status → step s = .next
          { s with
            inputs := rest, hrdata := none,
            status := { s.status with
              done := s.status.done && !w.getLsbD 1, ebusy := s.status.ebusy && !w.getLsbD 8,
              eill := s.status.eill && !w.getLsbD 9, estate := s.status.estate && !w.getLsbD 10,
              earg := s.status.earg && !w.getLsbD 11 } })
      ∧ ((locate a = .id ∨ locate a = .sramsz ∨ locate a = .result ∨ locate a = .reserved
          ∨ ∃ r, locate a = .rb r) → step s = .next { s with inputs := rest, hrdata := none }))
    ∧ (s.inputs = .read a :: rest →
      (((∃ n, locate a = .sram n) ∨ ∃ r, locate a = .rb r) →
        step s = .next { s with inputs := rest, hrdata := some 0, status := { s.status with ebusy := true } })
      ∧ ∀ v : Word, ((locate a = .id ∧ v = 0x414D4231) ∨ (locate a = .sramsz ∧ v = BitVec.ofNat 32 s.build.sramWords)
          ∨ (locate a = .ctrl ∧ v = if s.ie then 1 else 0) ∨ (locate a = .status ∧ v = statusWord s.status s.eng.life)
          ∨ (locate a = .arg0 ∧ v = s.arg0) ∨ (locate a = .arg1 ∧ v = s.arg1) ∨ (locate a = .arg2 ∧ v = s.arg2)
          ∨ (locate a = .arg3 ∧ v = s.arg3) ∨ (locate a = .result ∧ v = s.result) ∨ (locate a = .reserved ∧ v = 0)) →
        step s = .next { s with inputs := rest, hrdata := some v })

/-- 10_state.md R20 to R29, 20_memory.md R53, R55: reads and writes of an idle block. A read delivers the register's
value and changes nothing; a write of a writable location stores the value; a write of a read-only, reserved or absent
location is ignored. Writes of CMD, CTRL and STATUS have statements of their own. -/
def Obligations.AccessesWhileIdle : Prop :=
  ∀ (s : State) (a : HostAddr) (w : Word) (rest : List HostEvent), s.rstN = true → s.status.busy = false →
    (s.inputs = .read a :: rest → step s = .next { s with
      inputs := rest
      hrdata := some (match locate a with
        | .id => 0x414D4231
        | .sramsz => BitVec.ofNat 32 s.build.sramWords
        | .ctrl => if s.ie then 1 else 0
        | .status => statusWord s.status s.eng.life
        | .cmd => 0
        | .arg0 => s.arg0
        | .arg1 => s.arg1
        | .arg2 => s.arg2
        | .arg3 => s.arg3
        | .result => s.result
        | .rb r => (match r with
          | .fsQ => s.eng.fsQ
          | .inc1 => s.eng.inc1
          | .incLfo => s.eng.incLfo
          | .ksm => s.eng.ksm
          | .ph1 => s.eng.ph1
          | .ph2 => s.eng.ph2
          | .modph => s.eng.modph
          | .filtY => s.eng.y
          | .postGain => s.eng.postGain
          | .life => if s.eng.life = .ready then 1 else 0
          | .cutBaseCur => s.eng.cur.cutBase
          | .cutBaseTgt => s.eng.tgt.cutBase
          | .cutSpanCur => s.eng.cur.cutSpan
          | .cutSpanTgt => s.eng.tgt.cutSpan
          | .driveCur => s.eng.cur.drive
          | .driveTgt => s.eng.tgt.drive
          | .outGainCur => s.eng.cur.outGain
          | .outGainTgt => s.eng.tgt.outGain
          | .detuneCur => s.eng.cur.detune
          | .detuneTgt => s.eng.tgt.detune)
        | .reserved => 0
        | .sram n => if n < s.build.sramWords then s.mem.readWord n else 0) })
    ∧ (s.inputs = .write a w :: rest →
      (locate a = .arg0 → step s = .next { s with inputs := rest, hrdata := none, arg0 := w })
      ∧ (locate a = .arg1 → step s = .next { s with inputs := rest, hrdata := none, arg1 := w })
      ∧ (locate a = .arg2 → step s = .next { s with inputs := rest, hrdata := none, arg2 := w })
      ∧ (locate a = .arg3 → step s = .next { s with inputs := rest, hrdata := none, arg3 := w })
      ∧ (∀ n, locate a = .sram n → n < s.build.sramWords →
          step s = .next { s with inputs := rest, hrdata := none, mem := s.mem.writeWord n w })
      ∧ ((locate a = .id ∨ locate a = .sramsz ∨ locate a = .result ∨ locate a = .reserved
          ∨ (∃ r, locate a = .rb r) ∨ ∃ n, locate a = .sram n ∧ s.build.sramWords ≤ n) →
          step s = .next { s with inputs := rest, hrdata := none }))

/-- 20_memory.md R51, R53, R57: a word written through the SRAM window is read back, and every byte of every other word
is as before; a word nothing has written keeps its unspecified value (R65). -/
def Obligations.SramReadAfterWrite : Prop :=
  ∀ (m : Memory) (a : Nat) (w : Word), m.wf = true →
    (m.writeWord a w).wf = true
      ∧ (m.writeWord a w).readWord a = w
      ∧ (∀ k < 4, (m.writeWord a w).readByte (4 * a + k) = w.extractLsb' (8 * k) 8)
      ∧ (∀ b, b / 4 ≠ a → (m.writeWord a w).readByte b = m.readByte b)
      ∧ (∀ a', a' ≠ a → (m.writeWord a w).readWord a' = m.readWord a')

/-- 10_state.md R23: a write to CMD accepts the command while idle, and is ignored but for EBUSY while BUSY; CMD reads
0, BUSY or not. -/
def Obligations.CommandAccept : Prop :=
  ∀ (s : State) (a : HostAddr) (w : Word) (rest : List HostEvent), s.rstN = true → locate a = .cmd →
    (s.inputs = .write a w :: rest → s.status.busy = false →
      step s = .next { s with
        inputs := rest, hrdata := none, pend := w, status := { s.status with done := false, busy := true } })
    ∧ (s.inputs = .write a w :: rest → s.status.busy = true →
      step s = .next { s with inputs := rest, hrdata := none, status := { s.status with ebusy := true } })
    ∧ (s.inputs = .read a :: rest → s.status.busy = false →
      step s = .next { s with inputs := rest, hrdata := some 0 })
    ∧ (s.inputs = .read a :: rest → s.status.busy = true → ∃ t, step s = .next t ∧ t.hrdata = some 0)

/-- 10_state.md R27: a host write to STATUS, BUSY or not: a 1 clears a write-1-to-clear bit, a 0 leaves it, and every
other written bit is ignored. -/
def Obligations.StatusWriteOneToClear : Prop :=
  ∀ (s : State) (a : HostAddr) (w : Word) (rest : List HostEvent), s.rstN = true → locate a = .status →
    s.inputs = .write a w :: rest →
    step s = .next { s with
      inputs := rest, hrdata := none,
      status := { s.status with
        done := s.status.done && !w.getLsbD 1, ebusy := s.status.ebusy && !w.getLsbD 8,
        eill := s.status.eill && !w.getLsbD 9, estate := s.status.estate && !w.getLsbD 10,
        earg := s.status.earg && !w.getLsbD 11 } }

/-- 10_state.md R26, 70_reset_and_hazards.md R192: a write to CTRL while idle: SRST = 1 is the soft reset, which keeps
every SRAM word; SRST = 0 sets IE and nothing else. While BUSY it is ignored in every field and sets EBUSY. -/
def Obligations.ControlWrite : Prop :=
  ∀ (s : State) (a : HostAddr) (w : Word) (rest : List HostEvent), s.rstN = true → locate a = .ctrl →
    s.inputs = .write a w :: rest →
    (s.status.busy = false → w.getLsbD 1 = true →
      ∃ t, step s = .next t ∧ t.RegistersReset ∧ t.irq = false ∧ t.mem = s.mem
        ∧ (∀ n, t.mem.readWord n = s.mem.readWord n) ∧ t.rstN = true ∧ t.build = s.build ∧ t.draws = s.draws
        ∧ t.inputs = rest ∧ t.hrdata = none)
    ∧ (s.status.busy = false → w.getLsbD 1 = false →
      step s = .next { s with inputs := rest, hrdata := none, ie := w.getLsbD 0 })
    ∧ (s.status.busy = true →
      step s = .next { s with inputs := rest, hrdata := none, status := { s.status with ebusy := true } })

/-- 10_state.md R35, 60_exceptions.md R176: `irq` is IE AND DONE; every completion, of any command, with or without an
error, and of an ILLEGAL word, raises it if IE = 1, and accepting a command, clearing DONE, clearing IE or a reset lowers it. -/
def Obligations.InterruptLevel : Prop :=
  (∀ s : State, s.irq = (s.ie && s.status.done))
    ∧ (∀ (i : Instr) (s t : State), exec i s = .next t → t.irq = s.ie)
    ∧ (∀ s : State, (s.cmdError .illegal).irq = s.ie)
    ∧ (∀ s t : State, completePending s = .next t → t.irq = s.ie)
    ∧ (∀ s : State, ∀ w : Word, (s.accept w).irq = false)
    ∧ (∀ s : State, ∀ w : Word, w.getLsbD 1 = true → (s.acknowledge w).irq = false)
    ∧ (∀ s : State, ∀ w : Word, w.getLsbD 0 = false → (s.writeCtrl w).irq = false)
    ∧ ∀ s : State, s.resetRegs.irq = false ∧ s.hardReset.irq = false

/-! ### The reset input -/

/-- 70_reset_and_hazards.md R190: while `rst_n` = 0 and on its release the registers take their reset values, host
accesses are ignored, reads return 0, and SRAM is not reset. -/
def Obligations.HeldInReset : Prop :=
  ∀ s t : State, s.ControlInv → s.rstN = false → step s = .next t →
    t.RegistersReset ∧ t.irq = false ∧ t.mem = s.mem
      ∧ (∀ a rest, s.inputs = .read a :: rest → t.hrdata = some 0)
      ∧ (t.rstN = true ↔ s.inputs.head? = some .rstHigh)

/-- 70_reset_and_hazards.md R190, R198: `rst_n` asserted resets the registers. While the block is idle every SRAM word
is kept; while a command runs it is abandoned: the words it would have written hold fresh unspecified values, and every
other word keeps its value. That the unspecified values are one fresh draw per abandoned command is the model's form
(log 5). -/
def Obligations.ResetAsserted : Prop :=
  ∀ (s : State) (rest : List HostEvent), s.mem.wf = true → s.inputs = .rstLow :: rest →
    ∃ t, step s = .next t ∧ t.RegistersReset ∧ t.rstN = false ∧ t.irq = false ∧ t.build = s.build ∧ t.inputs = rest
      ∧ t.hrdata = none
      ∧ (s.status.busy = false → t.mem = s.mem ∧ t.draws = s.draws ∧ ∀ b, t.mem.readByte b = s.mem.readByte b)
      ∧ (s.status.busy = true → t.draws = s.draws + 1 ∧ ∀ a : Nat,
        if (decode s.pend = .ok .render ∧ s.eng.life = .ready ∧ s.arg1 ≠ 0 ∧ s.arg2 ≠ 0
              ∧ s.arg0.toNat + s.arg1.toNat * s.arg2.toNat ≤ s.build.sramWords
              ∧ s.arg0.toNat ≤ a ∧ a < s.arg0.toNat + s.arg1.toNat * s.arg2.toNat)
            ∨ (decode s.pend = .ok .mixg ∧ s.arg0.toNat + s.arg2.toNat ≤ s.build.sramWords
              ∧ s.arg1.toNat + s.arg2.toNat ≤ s.build.sramWords
              ∧ s.arg0.toNat ≤ a ∧ a < s.arg0.toNat + s.arg2.toNat)
            ∨ (decode s.pend = .ok .sineg ∧ s.arg1.toNat < s.build.sramWords
              ∧ s.arg0.toNat + s.arg3.toNat ≤ s.build.sramWords
              ∧ (a = s.arg1.toNat ∨ (s.arg0.toNat ≤ a ∧ a < s.arg0.toNat + s.arg3.toNat)))
        then t.mem.readWord a = Config.sramDraw (s.draws + 1) a
        else ∀ b, b / 4 = a → t.mem.readByte b = s.mem.readByte b)

/-! ### A running command cannot be disturbed -/

/-- 20_memory.md R57, R58, 10_state.md R21, R36: whatever reads and writes the host makes while a command runs, the
command does exactly what it would have done at once: the engine state, the SRAM, RESULT, ERRCODE, the operands, CTRL
and BUSY come out the same. -/
def Obligations.HostCannotDisturbARunningCommand : Prop :=
  ∀ (s : State) (evs : List HostEvent), s.rstN = true → s.status.busy = true →
    (∀ ev ∈ evs, (∃ a, ev = .read a) ∨ ∃ a w, ev = .write a w) →
    ∃ t0 t1, Host.Core.run Sys2Proof.core 1 ({ s with inputs := [] } : State) = .next t0
      ∧ Host.Core.run Sys2Proof.core (evs.length + 1) ({ s with inputs := evs } : State) = .next t1
      ∧ t1.eng = t0.eng ∧ t1.mem = t0.mem ∧ t1.result = t0.result ∧ t1.status.errcode = t0.status.errcode
      ∧ t1.arg0 = t0.arg0 ∧ t1.arg1 = t0.arg1 ∧ t1.arg2 = t0.arg2 ∧ t1.arg3 = t0.arg3 ∧ t1.ie = t0.ie
      ∧ t1.pend = t0.pend ∧ t0.status.busy = false ∧ t1.status.busy = false
      ∧ t0.status.done = true ∧ t1.status.done = true

/-! ### The lifecycle commands -/

/-- 41_lifecycle.md R120. -/
def Obligations.NopResult : Prop :=
  ∀ s : State, exec .nop s = .next
    { s with result := 0, pend := 0, status := { s.status with errcode := .ok, done := true, busy := false } }

/-- 41_lifecycle.md R121, with the default scene of R123. -/
def Obligations.CreateResult : Prop :=
  ∀ s : State,
    (s.eng.life = .ready → exec .create s = .next (s.cmdError .state))
    ∧ (s.eng.life = .uninit → fsValid (f32dec s.arg0) = none → exec .create s = .next (s.cmdError .arg))
    ∧ ∀ q, s.eng.life = .uninit → fsValid (f32dec s.arg0) = some q → exec .create s = .next
      { s with
        result := 1, pend := 0, status := { s.status with errcode := .ok, done := true, busy := false },
        eng := { life := .ready, fsQ := wrap32 q, inc1 := wrap32 (rndiv (BASE_Q * 2 ^ 32) q),
                 incLfo := wrap32 (rndiv (LFO_Q * 2 ^ 32) q),
                 ksm := wrap32 (sat (C_LN100 * 2 ^ 8 / ((s.build.t99Ms : Int) * q)) 1 ONE),
                 ph1 := 0, ph2 := 0, modph := 0, y := 0, postGain := 16777216,
                 cur := { cutBase := 204800, cutSpan := 153600, drive := 25165824, outGain := 8388608, detune := 1792 },
                 tgt := { cutBase := 204800, cutSpan := 153600, drive := 25165824, outGain := 8388608,
                          detune := 1792 } } }

/-- 41_lifecycle.md R124. -/
def Obligations.DestroyResult : Prop :=
  ∀ s : State,
    (s.eng.life = .uninit → exec .destroy s = .next (s.cmdError .state))
    ∧ (s.eng.life = .ready → exec .destroy s = .next
      { s with
        result := 0, pend := 0, status := { s.status with errcode := .ok, done := true, busy := false },
        eng := { life := .uninit, fsQ := 0, inc1 := 0, incLfo := 0, ksm := 0, ph1 := 0, ph2 := 0, modph := 0, y := 0,
                 postGain := 0,
                 cur := { cutBase := 0, cutSpan := 0, drive := 0, outGain := 0, detune := 0 },
                 tgt := { cutBase := 0, cutSpan := 0, drive := 0, outGain := 0, detune := 0 } } })

/-- 41_lifecycle.md R125. -/
def Obligations.ResetCommandResult : Prop :=
  ∀ s : State,
    (s.eng.life = .uninit → exec .reset s = .next (s.cmdError .state))
    ∧ (s.eng.life = .ready → fsValid (f32dec s.arg0) = none → exec .reset s = .next (s.cmdError .arg))
    ∧ ∀ q, s.eng.life = .ready → fsValid (f32dec s.arg0) = some q → exec .reset s = .next
      { s with
        result := 0, pend := 0, status := { s.status with errcode := .ok, done := true, busy := false },
        eng := { s.eng with
          fsQ := wrap32 q, inc1 := wrap32 (rndiv (BASE_Q * 2 ^ 32) q), incLfo := wrap32 (rndiv (LFO_Q * 2 ^ 32) q),
          ksm := wrap32 (sat (C_LN100 * 2 ^ 8 / ((s.build.t99Ms : Int) * q)) 1 ONE),
          ph1 := 0, ph2 := 0, modph := 0, y := 0 } }

/-! ### The setters -/

/-- 42_setters.md R131, R135: SET_GAIN writes the post gain at once, SET_OUT_GAIN the target of the output gain; both
take a finite value that is not negative, rounded to UQ8.24 and saturated; everything else is as it was. -/
def Obligations.GainSetterResults : Prop :=
  ∀ s : State,
    (∀ i ∈ [Instr.setGain, .setOutGain],
      (s.eng.life = .uninit → exec i s = .next (s.cmdError .state))
      ∧ (s.eng.life = .ready →
          (f32dec s.arg0 = .nan ∨ f32dec s.arg0 = .posInf ∨ f32dec s.arg0 = .negInf
            ∨ ∃ m e, f32dec s.arg0 = .fin m e ∧ m < 0) → exec i s = .next (s.cmdError .arg)))
    ∧ ∀ m e, s.eng.life = .ready → f32dec s.arg0 = .fin m e → 0 ≤ m →
      exec .setGain s = .next { s with
        result := 0, pend := 0, status := { s.status with errcode := .ok, done := true, busy := false },
        eng := { s.eng with postGain := wrap32 (min (toFix m e 24) 4294967295) } }
      ∧ exec .setOutGain s = .next { s with
        result := 0, pend := 0, status := { s.status with errcode := .ok, done := true, busy := false },
        eng := { s.eng with tgt := { s.eng.tgt with outGain := wrap32 (min (toFix m e 24) 4294967295) } } }

/-- 42_setters.md R132, R133: the cutoff setters write the targets of the base (a value that must be positive) and the
span (a value that must not be negative), rounded to UQ24.8 and saturated; everything else is as it was. -/
def Obligations.CutoffSetterResults : Prop :=
  ∀ s : State,
    (∀ i ∈ [Instr.setCutBase, .setCutSpan],
      (s.eng.life = .uninit → exec i s = .next (s.cmdError .state))
      ∧ (s.eng.life = .ready → (f32dec s.arg0 = .nan ∨ f32dec s.arg0 = .posInf ∨ f32dec s.arg0 = .negInf
            ∨ ∃ m e, f32dec s.arg0 = .fin m e ∧ m < 0) → exec i s = .next (s.cmdError .arg)))
    ∧ (∀ e, s.eng.life = .ready → f32dec s.arg0 = .fin 0 e → exec .setCutBase s = .next (s.cmdError .arg))
    ∧ (∀ m e, s.eng.life = .ready → f32dec s.arg0 = .fin m e → 0 < m →
      exec .setCutBase s = .next { s with
        result := 0, pend := 0, status := { s.status with errcode := .ok, done := true, busy := false },
        eng := { s.eng with tgt := { s.eng.tgt with cutBase := wrap32 (min (toFix m e 8) 4294967295) } } })
    ∧ ∀ m e, s.eng.life = .ready → f32dec s.arg0 = .fin m e → 0 ≤ m →
      exec .setCutSpan s = .next { s with
        result := 0, pend := 0, status := { s.status with errcode := .ok, done := true, busy := false },
        eng := { s.eng with tgt := { s.eng.tgt with cutSpan := wrap32 (min (toFix m e 8) 4294967295) } } }

/-- 42_setters.md R134: SET_DRIVE clamps everything but a NaN to [0.1, 5.0]; everything else is as it was. -/
def Obligations.DriveSetterResult : Prop :=
  ∀ s : State,
    (s.eng.life = .uninit → exec .setDrive s = .next (s.cmdError .state))
    ∧ (s.eng.life = .ready → f32dec s.arg0 = .nan → exec .setDrive s = .next (s.cmdError .arg))
    ∧ ∀ v : Int, s.eng.life = .ready →
      ((f32dec s.arg0 = .negInf ∧ v = 1677722) ∨ (f32dec s.arg0 = .posInf ∧ v = 83886080)
        ∨ ∃ m e, f32dec s.arg0 = .fin m e ∧ v = max 1677722 (min (toFix m e 24) 83886080)) →
      exec .setDrive s = .next { s with
        result := 0, pend := 0, status := { s.status with errcode := .ok, done := true, busy := false },
        eng := { s.eng with tgt := { s.eng.tgt with drive := wrap32 v } } }

/-- 42_setters.md R136: SET_DETUNE takes any finite value, rounded to Q23.8 and saturated to 2400 cents either way;
everything else is as it was. -/
def Obligations.DetuneSetterResult : Prop :=
  ∀ s : State,
    (s.eng.life = .uninit → exec .setDetune s = .next (s.cmdError .state))
    ∧ (s.eng.life = .ready → (f32dec s.arg0 = .nan ∨ f32dec s.arg0 = .posInf ∨ f32dec s.arg0 = .negInf) →
      exec .setDetune s = .next (s.cmdError .arg))
    ∧ ∀ m e, s.eng.life = .ready → f32dec s.arg0 = .fin m e →
      exec .setDetune s = .next { s with
        result := 0, pend := 0, status := { s.status with errcode := .ok, done := true, busy := false },
        eng := { s.eng with tgt := { s.eng.tgt with
          detune := wrap32 (max (-614400) (min (toFix m e 8) 614400)) } } }

/-! ### RENDER -/

/-- 43_render.md R140, R141, R148: RENDER on operands that pass the checks runs one sample step per frame, writes each
frame's word to all its channel slots in (frame, channel) order, and touches no other byte of SRAM and no other
register; on operands that do not, it ends with STATE or ARG. -/
def Obligations.RenderResult : Prop :=
  ∀ s : State, s.mem.wf = true →
    (s.eng.life = .uninit → exec .render s = .next (s.cmdError .state))
    ∧ (s.eng.life = .ready → (s.arg1 = 0 ∨ s.arg2 = 0
          ∨ s.build.sramWords < s.arg0.toNat + s.arg1.toNat * s.arg2.toNat) →
        exec .render s = .next (s.cmdError .arg))
    ∧ (s.eng.life = .ready → s.arg1 ≠ 0 → s.arg2 ≠ 0 →
        s.arg0.toNat + s.arg1.toNat * s.arg2.toNat ≤ s.build.sramWords →
        ∃ m : Memory, exec .render s = .next
            { s with
              result := s.arg1, pend := 0, status := { s.status with errcode := .ok, done := true, busy := false },
              eng := s.eng.atFrame s.arg1.toNat, mem := m }
          ∧ (∀ f < s.arg1.toNat, ∀ c < s.arg2.toNat,
              m.readWord (s.arg0.toNat + f * s.arg2.toNat + c) = fixToF32 (sampleStep (s.eng.atFrame f)).2)
          ∧ ∀ b, ¬ (4 * s.arg0.toNat ≤ b ∧ b < 4 * (s.arg0.toNat + s.arg1.toNat * s.arg2.toNat)) →
              m.readByte b = s.mem.readByte b)

/-- 43_render.md R142: the sample step, its sub-steps in their order, in the pseudocode's own names. The narrowing of
the five parameters and of `y` by `wrap32` never acts in a READY engine within its ranges, where every stored value is
the pseudocode's integer; outside the ranges, where no run comes, it is the model's choice (log 12). -/
def Obligations.SampleStepChain : Prop :=
  ∀ e : Engine,
    let k := zext32 e.ksm
    let cutBase := wrap32 (smooth (zext32 e.cur.cutBase) (zext32 e.tgt.cutBase) k)
    let cutSpan := wrap32 (smooth (zext32 e.cur.cutSpan) (zext32 e.tgt.cutSpan) k)
    let drive := wrap32 (smooth (zext32 e.cur.drive) (zext32 e.tgt.drive) k)
    let outGain := wrap32 (smooth (zext32 e.cur.outGain) (zext32 e.tgt.outGain) k)
    let detune := wrap32 (smooth (sext32 e.cur.detune) (sext32 e.tgt.detune) k)
    let osc := gainMul (sinQ e.ph1) HALF + gainMul (sinQ e.ph2) HALF
    let fc := cutoff (zext32 cutBase) (zext32 cutSpan) (sinQ e.modph) (zext32 e.fsQ)
    let y := wrap32 (lpf (sext32 e.y) osc (lpfCoef fc (zext32 e.fsQ)))
    let s := softClip (gainMul (sext32 y) (zext32 drive))
    let z := sat (gainMul (gainMul s (zext32 outGain)) (zext32 e.postGain)) (-ONE) ONE
    let inc2 := inc2Of e.inc1 (sext32 detune + drift e.modph)
    sampleStep e =
      ({ e with
          cur := { cutBase := cutBase, cutSpan := cutSpan, drive := drive, outGain := outGain, detune := detune },
          y := y, ph1 := e.ph1 + e.inc1, ph2 := e.ph2 + inc2, modph := e.modph + e.incLfo }, z)
    ∧ ∀ t99Ms : Nat, e.ReadyInRange t99Ms →
      zext32 cutBase = smooth (zext32 e.cur.cutBase) (zext32 e.tgt.cutBase) k
        ∧ zext32 cutSpan = smooth (zext32 e.cur.cutSpan) (zext32 e.tgt.cutSpan) k
        ∧ zext32 drive = smooth (zext32 e.cur.drive) (zext32 e.tgt.drive) k
        ∧ zext32 outGain = smooth (zext32 e.cur.outGain) (zext32 e.tgt.outGain) k
        ∧ sext32 detune = smooth (sext32 e.cur.detune) (sext32 e.tgt.detune) k
        ∧ sext32 y = lpf (sext32 e.y) osc (lpfCoef fc (zext32 e.fsQ))

/-- 43_render.md R150 item 3: a RENDER of `n1 + n2` frames is a RENDER of `n1` frames followed by one of `n2` frames at
the following destination: the same engine state and the same SRAM, bit for bit. -/
def Obligations.RenderSplitsContinuously : Prop :=
  ∀ (s : State) (dst n1 n2 ch : Word), s.mem.wf = true → s.eng.life = .ready → n1 ≠ 0 → n2 ≠ 0 → ch ≠ 0 →
    s.build.sramWords ≤ 4096 → dst.toNat + (n1.toNat + n2.toNat) * ch.toNat ≤ s.build.sramWords →
    ∃ t t1 t2, exec .render { s with arg0 := dst, arg1 := n1 + n2, arg2 := ch } = .next t
      ∧ exec .render { s with arg0 := dst, arg1 := n1, arg2 := ch } = .next t1
      ∧ exec .render { t1 with arg0 := dst + n1 * ch, arg1 := n2, arg2 := ch } = .next t2
      ∧ t2.eng = t.eng ∧ t2.mem = t.mem ∧ t.status.errcode = .ok ∧ t2.status.errcode = .ok

/-- 60_exceptions.md R181, 43_render.md R149: the block's only notion of time is the sample count, and its phases are
the only time-like state. A successful RENDER of `frames` frames moves them by `frames` sample periods: voice 1 and the
LFO by `frames` increments, voice 2 by the recomputed increment of each frame; the rate and the increments stay. Nothing
else but CREATE, DESTROY, RESET and a reset of the block moves them, and an idle block left alone for any number of
steps keeps its whole state (R185): no timer or counter runs. -/
def Obligations.TimeIsTheSampleCount : Prop :=
  (∀ s t : State, exec .render s = .next t → t.status.errcode = .ok →
      t.eng.ph1 = s.eng.ph1 + s.arg1 * s.eng.inc1 ∧ t.eng.modph = s.eng.modph + s.arg1 * s.eng.incLfo
        ∧ t.eng.ph2 = (s.eng.atFrame s.arg1.toNat).ph2
        ∧ t.eng.fsQ = s.eng.fsQ ∧ t.eng.inc1 = s.eng.inc1 ∧ t.eng.incLfo = s.eng.incLfo)
    ∧ (∀ (e : Engine) (n : Nat), (e.atFrame (n + 1)).ph2 = (e.atFrame n).ph2
        + inc2Of e.inc1 (sext32 (e.atFrame (n + 1)).cur.detune + drift (e.modph + BitVec.ofNat 32 n * e.incLfo)))
    ∧ (∀ s t : State, step s = .next t → t.eng.phases ≠ s.eng.phases →
      (s.rstN = true ∧ s.status.busy = true ∧ s.SequencerNext
          ∧ ∃ i ∈ [Instr.render, .create, .destroy, .reset], decode s.pend = .ok i ∧ t.status.errcode = .ok)
        ∨ s.rstN = false ∨ s.inputs.head? = some .rstLow
        ∨ ∃ a w, s.inputs.head? = some (.write a w) ∧ locate a = .ctrl ∧ w.getLsbD 1 = true ∧ s.status.busy = false)
    ∧ ∀ (s : State) (n : Nat), s.rstN = true → s.status.busy = false →
      Host.Core.run Sys2Proof.core (n + 1) ({ s with inputs := List.replicate n .pass } : State)
        = .next { s with inputs := [], hrdata := none }

/-- 43_render.md R150 items 2 and 5: every word a successful RENDER writes is the binary32 value of an integer `z` in
[-ONE, ONE] over 2^24: never a NaN, an infinity, a subnormal or `-0.0` (a word with exponent field 0 is `+0.0`). -/
def Obligations.RenderOutputIsBounded : Prop :=
  ∀ s t : State, s.mem.wf = true → exec .render s = .next t → t.status.errcode = .ok →
    ∀ a, s.arg0.toNat ≤ a → a < s.arg0.toNat + s.arg1.toNat * s.arg2.toNat →
      ∃ z : Int, -ONE ≤ z ∧ z ≤ ONE ∧ t.mem.readWord a = fixToF32 z
        ∧ ((t.mem.readWord a).extractLsb' 23 8 = 0 → t.mem.readWord a = 0)
        ∧ ∃ m e, f32dec (t.mem.readWord a) = .fin m e ∧ -149 ≤ e ∧ m * 2 ^ (e + 149).toNat = z * 2 ^ 125

/-- 43_render.md R150 item 4: with the target of the output gain at 0, every sample from the frame numbered `cur.out_gain`
on, counting from 1, is exactly 0. -/
def Obligations.SilenceIsReached : Prop :=
  ∀ (t99Ms : Nat) (e : Engine), e.life = .ready → e.Inv t99Ms → e.tgt.outGain = 0 →
    ∀ n, e.cur.outGain.toNat ≤ n + 1 → (sampleStep (e.atFrame n)).2 = 0

/-! ### The vector kernels -/

/-- 44_kernels.md R160, R162: MIXG in any lifecycle state: each `dst[i]` becomes the saturated sum, where `src[i]` is
the new value exactly when an earlier element has written it; no other byte of SRAM changes. Operands out of range end
with ARG. -/
def Obligations.MixgResult : Prop :=
  ∀ s : State, s.mem.wf = true →
    ((s.build.sramWords < s.arg0.toNat + s.arg2.toNat ∨ s.build.sramWords < s.arg1.toNat + s.arg2.toNat) →
      exec .mixg s = .next (s.cmdError .arg))
    ∧ (s.arg0.toNat + s.arg2.toNat ≤ s.build.sramWords → s.arg1.toNat + s.arg2.toNat ≤ s.build.sramWords →
      ∃ m : Memory, exec .mixg s = .next
          { s with
            result := s.arg2, pend := 0, status := { s.status with errcode := .ok, done := true, busy := false },
            mem := m }
        ∧ (∀ i < s.arg2.toNat, sext32 (m.readWord (s.arg0.toNat + i)) =
            sat32 (sext32 (s.mem.readWord (s.arg0.toNat + i))
              + gainMul (sext32 (if s.arg0.toNat ≤ s.arg1.toNat + i ∧ s.arg1.toNat < s.arg0.toNat
                  then m.readWord (s.arg1.toNat + i) else s.mem.readWord (s.arg1.toNat + i))) (sext32 s.arg3)))
        ∧ ∀ b, ¬ (4 * s.arg0.toNat ≤ b ∧ b < 4 * (s.arg0.toNat + s.arg2.toNat)) →
            m.readByte b = s.mem.readByte b)

/-- 44_kernels.md R161, R162: SINEG in any lifecycle state: output `i` is SIN of the starting phase advanced `i` times,
the phase word then holds the phase advanced `n` times (and wins where it lies among the outputs); no other byte of
SRAM changes. Operands out of range end with ARG. -/
def Obligations.SinegResult : Prop :=
  ∀ s : State, s.mem.wf = true →
    ((s.build.sramWords ≤ s.arg1.toNat ∨ s.build.sramWords < s.arg0.toNat + s.arg3.toNat) →
      exec .sineg s = .next (s.cmdError .arg))
    ∧ (s.arg1.toNat < s.build.sramWords → s.arg0.toNat + s.arg3.toNat ≤ s.build.sramWords →
      ∃ m : Memory, exec .sineg s = .next
          { s with
            result := s.arg3, pend := 0, status := { s.status with errcode := .ok, done := true, busy := false },
            mem := m }
        ∧ m.readWord s.arg1.toNat = s.mem.readWord s.arg1.toNat + s.arg3 * s.arg2
        ∧ (∀ i < s.arg3.toNat, s.arg0.toNat + i ≠ s.arg1.toNat →
            sext32 (m.readWord (s.arg0.toNat + i))
              = sinQ (s.mem.readWord s.arg1.toNat + BitVec.ofNat 32 i * s.arg2))
        ∧ ∀ b, b / 4 ≠ s.arg1.toNat → ¬ (4 * s.arg0.toNat ≤ b ∧ b < 4 * (s.arg0.toNat + s.arg3.toNat)) →
            m.readByte b = s.mem.readByte b)

/-- 44_kernels.md R161: SINEG is phase-continuous: two commands of `n1` and `n2` samples leave the same words as one of
`n1 + n2`, wherever the phase word lies. -/
def Obligations.SinegSplitsContinuously : Prop :=
  ∀ (s : State) (out n1 n2 : Word), s.mem.wf = true → s.build.sramWords ≤ 4096 →
    s.arg1.toNat < s.build.sramWords → out.toNat + n1.toNat + n2.toNat ≤ s.build.sramWords →
    ∃ t t1 t2, exec .sineg { s with arg0 := out, arg3 := n1 + n2 } = .next t
      ∧ exec .sineg { s with arg0 := out, arg3 := n1 } = .next t1
      ∧ exec .sineg { t1 with arg0 := out + n1, arg3 := n2 } = .next t2
      ∧ (∀ a, t2.mem.readWord a = t.mem.readWord a) ∧ t.status.errcode = .ok ∧ t2.status.errcode = .ok

/-! ### The datapath -/

/-- 40_primitives.md R92: F32DEC on every binary32 pattern, given by its sign, exponent and fraction fields. -/
def Obligations.BinaryDecode : Prop :=
  ∀ (s : BitVec 1) (x : BitVec 8) (f : BitVec 23),
    f32dec (s ++ x ++ f) =
      if x = 255 then
        if f ≠ 0 then .nan else if s = 0 then .posInf else .negInf
      else if x = 0 then .fin (if s = 0 then (f.toNat : Int) else -(f.toNat : Int)) (-149)
      else .fin (if s = 0 then (2 ^ 23 + f.toNat : Int) else -(2 ^ 23 + f.toNat : Int)) ((x.toNat : Int) - 150)

/-- 40_primitives.md R93: TOFIX rounds `v * 2^f` to the nearest integer, ties to even. Here `v * 2^f` is
`m * 2^(e + f)`: exact where `e + f` is not negative, else a nearest integer, and the even one at a tie. -/
def Obligations.ToFixRoundsToNearestEven : Prop :=
  ∀ (m e : Int) (f : Nat),
    (0 ≤ e + f → toFix m e f = m * 2 ^ (e + f).toNat)
    ∧ (e + f < 0 →
      2 * (toFix m e f * 2 ^ (-(e + f)).toNat - m) ≤ 2 ^ (-(e + f)).toNat
      ∧ 2 * (m - toFix m e f * 2 ^ (-(e + f)).toNat) ≤ 2 ^ (-(e + f)).toNat
      ∧ (2 * (toFix m e f * 2 ^ (-(e + f)).toNat - m) = 2 ^ (-(e + f)).toNat
          ∨ 2 * (m - toFix m e f * 2 ^ (-(e + f)).toNat) = 2 ^ (-(e + f)).toNat → toFix m e f % 2 = 0))

/-- 40_primitives.md R94: FIXTOF32 encodes every `z` in [-ONE, ONE] as exactly `z / 2^24`, zero as `+0.0`. -/
def Obligations.FixToF32IsExact : Prop :=
  fixToF32 0 = 0 ∧ ∀ z : Int, -ONE ≤ z → z ≤ ONE → fixToF32 z ≠ 0x80000000
    ∧ ∃ m e, f32dec (fixToF32 z) = .fin m e ∧ -149 ≤ e ∧ m * 2 ^ (e + 149).toNat = z * 2 ^ 125

/-- 41_lifecycle.md R122: FSVALID answers exactly the rounded rates in 8000..384000 Hz of the finite positive
operands. -/
def Obligations.SampleRateCheck : Prop :=
  ∀ (d : F32) (q : Int), fsValid d = some q ↔
    ∃ m e, d = .fin m e ∧ 0 < m ∧ q = toFix m e 8 ∧ 2048000 ≤ q ∧ q ≤ 98304000

/-- 40_primitives.md R95: for every legal rate DERIVE's increments lie in their stated ranges and differ from
`55 / fs` and `0.125 / fs` cycles by at most half an LSB, and `ksm` at 50 ms lies in its range; at
any other time it lies in [1, ONE]. -/
def Obligations.DerivedCoefficientRanges : Prop :=
  ∀ q : Int, FS_MIN_Q ≤ q → q ≤ FS_MAX_Q →
    615165 ≤ rndiv (BASE_Q * 2 ^ 32) q ∧ rndiv (BASE_Q * 2 ^ 32) q ≤ 29527900
      ∧ 1398 ≤ rndiv (LFO_Q * 2 ^ 32) q ∧ rndiv (LFO_Q * 2 ^ 32) q ≤ 67109
      ∧ 2 * |rndiv (BASE_Q * 2 ^ 32) q * q - BASE_Q * 2 ^ 32| ≤ q
      ∧ 2 * |rndiv (LFO_Q * 2 ^ 32) q * q - LFO_Q * 2 ^ 32| ≤ q
      ∧ 4024 ≤ ksmOf 50 q ∧ ksmOf 50 q ≤ 193154
      ∧ ∀ t : Nat, 1 ≤ ksmOf t q ∧ ksmOf t q ≤ ONE

/-- 40_primitives.md R97: SIN stays in [-ONE, ONE], is exact at the quarter cycles, and half a cycle further is its
negative. -/
def Obligations.SineRangeAndSymmetry : Prop :=
  (∀ p : Word, -ONE ≤ sinQ p ∧ sinQ p ≤ ONE)
    ∧ (∀ p : Word, sinQ (p + 0x80000000) = -sinQ p)
    ∧ sinQ 0 = 0 ∧ sinQ 0x40000000 = ONE ∧ sinQ 0x80000000 = 0 ∧ sinQ 0xC0000000 = -ONE

/-- 40_primitives.md R98: EXP2R's mantissa is in [2^30, 2^31], its octave count is in [-3, 2] on RENDER's domain, and
it is exact at every whole number of octaves. R108: DRIFT is the cosine of the phase scaled to 768 by the floor, in
[-768, 768], and 768 at phase 0. -/
def Obligations.CentsToRatio : Prop :=
  (∀ c : Int, 2 ^ 30 ≤ (exp2r c).1 ∧ (exp2r c).1 ≤ 2 ^ 31)
    ∧ (∀ c : Int, -615168 ≤ c → c ≤ 615168 → -3 ≤ (exp2r c).2 ∧ (exp2r c).2 ≤ 2)
    ∧ (∀ k : Int, exp2r (CENT_DIV * k) = (2 ^ 30, k))
    ∧ (∀ p : Word, drift p = 768 * sinQ (p + 0x40000000) / 2 ^ 24 ∧ -768 ≤ drift p ∧ drift p ≤ 768)
    ∧ drift 0 = 768

/-- 40_primitives.md R99: on RENDER's domain the wrap of INC2 never acts and the result is below 2^27. -/
def Obligations.CompanionIncrementDoesNotWrap : Prop :=
  ∀ (inc1 : Word) (c : Int), zext32 inc1 ≤ 29527900 → -615168 ≤ c → c ≤ 615168 →
    zext32 (inc2Of inc1 c) = asr (zext32 inc1 * (exp2r c).1) (30 - (exp2r c).2).toNat
      ∧ zext32 (inc2Of inc1 c) < 2 ^ 27

/-- 40_primitives.md R107, R100: for every legal rate the cutoff is `cb + floor(cs * lfo / 2^24)` clamped to
[5120, fs_q/2 - 1], so at least 20 Hz and strictly below Nyquist; and for every cutoff in that range the filter
coefficient is the floor of `ONE * P / (fs_q * 2^16 + P)` with `P = fc * 411775`, strictly between 0 and 0.7586. -/
def Obligations.CutoffAndCoefficientRanges : Prop :=
  ∀ fsQ : Int, FS_MIN_Q ≤ fsQ → fsQ ≤ FS_MAX_Q →
    (∀ cb cs lfo : Int,
      cutoff cb cs lfo fsQ = max 5120 (min (cb + cs * lfo / 2 ^ 24) (fsQ / 2 - 1))
        ∧ (5120 ≤ cb + cs * lfo / 2 ^ 24 → cb + cs * lfo / 2 ^ 24 ≤ fsQ / 2 - 1 →
            cutoff cb cs lfo fsQ = cb + cs * lfo / 2 ^ 24)
        ∧ 5120 ≤ cutoff cb cs lfo fsQ ∧ 2 * cutoff cb cs lfo fsQ < fsQ
        ∧ 0 < lpfCoef (cutoff cb cs lfo fsQ) fsQ ∧ lpfCoef (cutoff cb cs lfo fsQ) fsQ < ONE)
      ∧ ∀ fc : Int, 5120 ≤ fc → fc ≤ fsQ / 2 - 1 →
        lpfCoef fc fsQ * (fsQ * 2 ^ 16 + fc * 411775) ≤ ONE * (fc * 411775)
          ∧ ONE * (fc * 411775) < (lpfCoef fc fsQ + 1) * (fsQ * 2 ^ 16 + fc * 411775)
          ∧ 0 < lpfCoef fc fsQ ∧ 10000 * lpfCoef fc fsQ < 7586 * ONE

/-- 40_primitives.md R101: one filter step, that its result lies between `y` and `x` inclusive, so it stays in
[-ONE, ONE], and the sizes of its intermediates. -/
def Obligations.FilterStepStaysBetween : Prop :=
  ∀ y x a : Int, lpf y x a = y + asr (a * (x - y)) 24
    ∧ (0 ≤ a → a < ONE → (min y x ≤ lpf y x a ∧ lpf y x a ≤ max y x)
      ∧ (|y| ≤ ONE → |x| ≤ ONE → |lpf y x a| ≤ ONE ∧ |x - y| ≤ 2 ^ 25 ∧ |a * (x - y)| < 2 ^ 49))

/-- 40_primitives.md R102: SOFTCLIP is bounded on every input, exactly odd, and ONE from `ONE - 1` on. -/
def Obligations.SoftClipBoundedAndOdd : Prop :=
  (∀ u : Int, -ONE ≤ softClip u ∧ softClip u ≤ ONE)
    ∧ (∀ u : Int, softClip (-u) = -softClip u)
    ∧ (∀ u : Int, ONE - 1 ≤ u → softClip u = ONE)
    ∧ softClip 0 = 0 ∧ softClip HALF = 11534336

/-- 40_primitives.md R103: a SMOOTH step never overshoots, comes nearer by at least 1 unless it is at the target, and
after as many steps as the distance it is at the target exactly and stays there. -/
def Obligations.SmootherConverges : Prop :=
  ∀ cur tgt k : Int, 1 ≤ k → k ≤ ONE →
    (min cur tgt ≤ smooth cur tgt k ∧ smooth cur tgt k ≤ max cur tgt)
      ∧ (cur ≠ tgt → |tgt - smooth cur tgt k| ≤ |tgt - cur| - 1)
      ∧ smooth tgt tgt k = tgt
      ∧ ∀ n : Nat, |tgt - cur| ≤ n → (fun c => smooth c tgt k)^[n] cur = tgt

/-- 40_primitives.md R104, R105: GAINMUL is the floor of the product, ONE and 0 are exact gains, MAC adds it, no
product of two 32-bit words reaches 2^63, and SAT32 saturates to the 32-bit two's-complement range. -/
def Obligations.GainAndSaturation : Prop :=
  (∀ x g acc : Int, 2 ^ 24 * gainMul x g ≤ x * g ∧ x * g < 2 ^ 24 * (gainMul x g + 1)
      ∧ gainMul x ONE = x ∧ gainMul x 0 = 0 ∧ mac acc x g = acc + gainMul x g)
    ∧ gainMul (-1) HALF = -1 ∧ gainMul 1 HALF = 0
    ∧ (∀ x g : Word, |sext32 x * zext32 g| < 2 ^ 63 ∧ |sext32 x * sext32 g| < 2 ^ 63)
    ∧ ∀ v : Int, sat32 v = max (-2 ^ 31) (min v (2 ^ 31 - 1))
end

