-- ==== Sys2Proof/Laws/Arith.lean ====
section
/-! SUPPORT. The laws of the arithmetic operators and of the narrowing to 32-bit words. -/

namespace Sys2Proof.Machine

/-! ### Shifts, saturation, rounding -/

theorem asr_def (v : Int) (k : Nat) : asr v k = v / 2 ^ k := rfl

theorem asr_nonneg {v : Int} {k : Nat} (h : 0 ≤ v) : 0 ≤ asr v k :=
  Int.ediv_nonneg h (by positivity)

theorem asr_mono {v w : Int} {k : Nat} (h : v ≤ w) : asr v k ≤ asr w k :=
  Int.ediv_le_ediv (by positivity) h

/-- What `asr` answers, by the defining inequalities of the floor. -/
theorem asr_spec (v : Int) (k : Nat) : 2 ^ k * asr v k ≤ v ∧ v < 2 ^ k * (asr v k + 1) := by
  have hk : (0 : Int) < 2 ^ k := by positivity
  have h1 := Int.mul_ediv_add_emod v (2 ^ k)
  have h2 := Int.emod_nonneg v hk.ne'
  have h3 := Int.emod_lt_of_pos v hk
  unfold asr
  constructor <;> nlinarith

/-- What `sat` answers: a value of the range, and the value itself if it lies there. -/
theorem sat_bounds {v lo hi : Int} (h : lo ≤ hi) : lo ≤ sat v lo hi ∧ sat v lo hi ≤ hi := by
  unfold sat; split_ifs <;> omega

theorem sat_of_mem {v lo hi : Int} (h1 : lo ≤ v) (h2 : v ≤ hi) : sat v lo hi = v := by
  unfold sat; split_ifs <;> omega

/-- `sat` is a clamp. -/
theorem sat_eq_max_min {v lo hi : Int} (h : lo ≤ hi) : sat v lo hi = max lo (min v hi) := by
  unfold sat; rw [min_def, max_def]; split_ifs <;> omega

/-- What `rndiv` answers: the nearest integer. -/
theorem rndiv_spec {a b : Int} (hb : 0 < b) : 2 * (rndiv a b * b) ≤ 2 * a + b ∧ 2 * a < 2 * (rndiv a b * b) + b := by
  have h1 := Int.mul_ediv_add_emod (2 * a + b) (2 * b)
  have h2 := Int.emod_nonneg (2 * a + b) (by omega : (2 * b : Int) ≠ 0)
  have h3 := Int.emod_lt_of_pos (2 * a + b) (by omega : (0 : Int) < 2 * b)
  unfold rndiv
  constructor <;> nlinarith

/-- What `rneShift` answers: the nearest integer, and an even one at a tie. -/
theorem rneShift_spec (n : Int) (k : Nat) :
    2 * (rneShift n k * 2 ^ k - n) ≤ 2 ^ k ∧ -(2 ^ k) ≤ 2 * (rneShift n k * 2 ^ k - n)
      ∧ (2 * (rneShift n k * 2 ^ k - n) = 2 ^ k ∨ 2 * (rneShift n k * 2 ^ k - n) = -(2 ^ k) →
          rneShift n k % 2 = 0) := by
  have hk : (0 : Int) < 2 ^ k := by positivity
  have h1 := Int.mul_ediv_add_emod n (2 ^ k)
  have h2 := Int.emod_nonneg n hk.ne'
  have h3 := Int.emod_lt_of_pos n hk
  unfold rneShift
  generalize n / 2 ^ k = q at *
  generalize n % 2 ^ k = r at *
  generalize (2 : Int) ^ k = p at *
  have e1 : q * p = p * q := Int.mul_comm _ _
  have e2 : (q + 1) * p = p * q + p := by ring
  dsimp only
  split_ifs with c1 c2 c3
  · rw [e1]; refine ⟨by omega, by omega, by omega⟩
  · rw [e2]; refine ⟨by omega, by omega, by omega⟩
  · rw [e1]; exact ⟨by omega, by omega, fun _ => c3⟩
  · rw [e2]; exact ⟨by omega, by omega, fun _ => by omega⟩

/-! ### Words as integers -/

theorem zext32_bounds (w : Word) : 0 ≤ zext32 w ∧ zext32 w ≤ 4294967295 := by
  have := w.isLt; unfold zext32; omega

theorem sext32_bounds (w : Word) : -2147483648 ≤ sext32 w ∧ sext32 w ≤ 2147483647 := by
  have h1 := BitVec.le_toInt w
  have h2 := BitVec.toInt_lt (x := w)
  unfold sext32; norm_num at h1 h2; omega

theorem zext32_wrap32 (v : Int) : zext32 (wrap32 v) = v % 4294967296 := by
  unfold zext32 wrap32
  rw [BitVec.toNat_ofInt]
  have := Int.emod_nonneg v (by norm_num : (4294967296 : Int) ≠ 0)
  norm_num
  exact this

/-- A value of an unsigned 32-bit format is read back. -/
theorem zext32_wrap32_of_mem {v : Int} (h1 : 0 ≤ v) (h2 : v ≤ 4294967295) : zext32 (wrap32 v) = v := by
  rw [zext32_wrap32]; omega

/-- A value of a signed 32-bit format is read back. -/
theorem sext32_wrap32_of_mem {v : Int} (h1 : -2147483648 ≤ v) (h2 : v ≤ 2147483647) : sext32 (wrap32 v) = v := by
  unfold sext32 wrap32
  rw [BitVec.toInt_ofInt]
  rw [Int.bmod_def]
  norm_num
  split_ifs <;> omega

theorem wrap32_zext32 (w : Word) : wrap32 (zext32 w) = w := by
  unfold wrap32 zext32; simp

/-- Adding two words modulo 2^32 (00_scope.md R9). -/
theorem wrap32_add (a b : Word) : wrap32 (zext32 a + zext32 b) = a + b := by
  have h1 := wrap32_zext32 a
  have h2 := wrap32_zext32 b
  unfold wrap32 at *
  rw [BitVec.ofInt_add, h1, h2]

theorem zext32_eq_zero {w : Word} : zext32 w = 0 ↔ w = 0 := by
  constructor
  · intro h; rw [← wrap32_zext32 w, h]; rfl
  · rintro rfl; rfl

theorem zext32_inj {v w : Word} (h : zext32 v = zext32 w) : v = w := by
  rw [← wrap32_zext32 v, h, wrap32_zext32]

end Sys2Proof.Machine
end

