-- ==== Sys2Proof/Laws/Datapath.lean ====
section
/-! SUPPORT. The laws of the datapath: the ranges and the properties that spec/40_primitives.md states of its
functions. -/

namespace Sys2Proof.Machine

/-! ### SIN, DRIFT and the oscillator bank -/

/-- SIN stays in [-ONE, ONE] (40_primitives.md R97). -/
theorem sinQ_bounds (p : Word) : -ONE ≤ sinQ p ∧ sinQ p ≤ ONE := by
  unfold sinQ
  dsimp only
  generalize asr (_ + 32) 6 = v
  have h := sat_bounds (v := v) (lo := 0) (hi := ONE) (by norm_num)
  generalize sat v 0 ONE = s at h
  simp only [ONE] at *
  split_ifs <;> omega

/-- DRIFT stays in [-768, 768] (40_primitives.md R108). -/
theorem drift_bounds (p : Word) : -768 ≤ drift p ∧ drift p ≤ 768 := by
  unfold drift asr
  have h := sinQ_bounds (wrap32 (zext32 p + QUARTER))
  generalize sinQ _ = v at h
  simp only [ONE, DRIFT_Q] at *
  omega

/-- Each voice is scaled by one half, so the mix stays in [-ONE, ONE] (43_render.md R144). -/
theorem osc_bounds (e : Engine) : -ONE ≤ e.osc ∧ e.osc ≤ ONE := by
  unfold Engine.osc gainMul asr
  have h1 := sinQ_bounds e.ph1
  have h2 := sinQ_bounds e.ph2
  generalize sinQ e.ph1 = v1 at *
  generalize sinQ e.ph2 = v2 at *
  simp only [ONE, HALF] at *
  omega

/-! ### EXP2R -/

/-- One Horner step of EXP2R stays between its coefficient and the sum of the two. -/
theorem horner_bounds {b r f hi : Int} (hr : 0 ≤ r) (hr' : r ≤ hi) (hf : 0 ≤ f) (hf' : f ≤ 2 ^ 30) :
    b ≤ b + asr (r * f) 30 ∧ b + asr (r * f) 30 ≤ b + hi := by
  have h0 : 0 ≤ asr (r * f) 30 := asr_nonneg (mul_nonneg hr hf)
  have h1 : r * f ≤ hi * 2 ^ 30 := by nlinarith
  have h2 : asr (r * f) 30 ≤ asr (hi * 2 ^ 30) 30 := asr_mono h1
  have h3 : asr (hi * 2 ^ 30) 30 = hi := by unfold asr; omega
  omega

/-- EXP2R's mantissa is in [2^30, 2^31], and its octave count is the floor of `c / CENT_DIV`
(40_primitives.md R98). -/
theorem exp2r_bounds (c : Int) :
    2 ^ 30 ≤ (exp2r c).1 ∧ (exp2r c).1 ≤ 2 ^ 31 ∧ (exp2r c).2 = asr (c * 2 ^ 30 / CENT_DIV) 30 := by
  unfold exp2r
  dsimp only
  have hf : 0 ≤ c * 2 ^ 30 / CENT_DIV - asr (c * 2 ^ 30 / CENT_DIV) 30 * 2 ^ 30
      ∧ c * 2 ^ 30 / CENT_DIV - asr (c * 2 ^ 30 / CENT_DIV) 30 * 2 ^ 30 ≤ 2 ^ 30 := by
    unfold asr; omega
  generalize c * 2 ^ 30 / CENT_DIV - asr (c * 2 ^ 30 / CENT_DIV) 30 * 2 ^ 30 = f at hf
  obtain ⟨h0, h1⟩ := hf
  simp only [B1, B2, B3] at *
  have a1 := horner_bounds (b := 241534262) (r := 84960057) (hi := 84960057) (by norm_num) le_rfl h0 h1
  have a2 := horner_bounds (b := 747247505) (r := 241534262 + asr (84960057 * f) 30) (hi := 326494319) (by omega) (by omega) h0 h1
  have a3 := horner_bounds (b := 2 ^ 30)
    (r := 747247505 + asr ((241534262 + asr (84960057 * f) 30) * f) 30) (hi := 1073741824)
    (by omega) (by omega) h0 h1
  exact ⟨a3.1, by omega, trivial⟩

/-! ### The filter -/

/-- CUTOFF's result lies in its clamp's range (40_primitives.md R107). -/
theorem cutoff_bounds {fsQ : Int} (cb cs lfo : Int) (h : FS_MIN_Q ≤ fsQ) :
    FC_MIN_Q ≤ cutoff cb cs lfo fsQ ∧ cutoff cb cs lfo fsQ ≤ fcMax fsQ :=
  sat_bounds (by unfold fcMax asr; simp only [FS_MIN_Q, FC_MIN_Q] at *; omega)

/-- LPFCOEF's result is in [0, ONE) (40_primitives.md R100). -/
theorem lpfCoef_bounds {fc fsQ : Int} (hfc : 0 ≤ fc) (hfs : 0 < fsQ) :
    0 ≤ lpfCoef fc fsQ ∧ lpfCoef fc fsQ < ONE := by
  unfold lpfCoef
  dsimp only
  simp only [TWOPI_Q16, ONE] at *
  have hp : 0 ≤ fc * 411775 := by omega
  generalize fc * 411775 = p at hp
  have hd : 0 < fsQ * 2 ^ 16 + p := by omega
  refine ⟨Int.ediv_nonneg (by omega) hd.le, Int.ediv_lt_of_lt_mul hd ?_⟩
  nlinarith

/-- LPF's result lies between `y` and `x` (40_primitives.md R101). -/
theorem lpf_between {y x a : Int} (h0 : 0 ≤ a) (h1 : a < ONE) :
    min y x ≤ lpf y x a ∧ lpf y x a ≤ max y x := by
  unfold lpf
  simp only [ONE] at *
  have hs := asr_spec (a * (x - y)) 24
  generalize asr (a * (x - y)) 24 = q at hs
  obtain ⟨hs1, hs2⟩ := hs
  rcases le_total y x with h | h
  · have : 0 ≤ x - y := by omega
    have c1 : a * (x - y) ≤ 16777216 * (x - y) := by nlinarith
    have c2 : 0 ≤ a * (x - y) := by positivity
    rw [min_eq_left h, max_eq_right h]
    constructor <;> omega
  · have : x - y ≤ 0 := by omega
    have c1 : 16777216 * (x - y) ≤ a * (x - y) := by nlinarith
    have c2 : a * (x - y) ≤ 0 := by nlinarith
    rw [min_eq_right h, max_eq_left h]
    constructor <;> omega

/-! ### SOFTCLIP -/

/-- SOFTCLIP's output is in [-ONE, ONE] for every input (40_primitives.md R102). -/
theorem softClip_bounds (u : Int) : -ONE ≤ softClip u ∧ softClip u ≤ ONE := by
  unfold softClip
  dsimp only
  simp only [ONE] at *
  have key : ∀ m : Int, 0 ≤ m → m < 16777216 → 0 ≤ min (asr (3 * m - asr (asr (m * m) 24 * m) 24) 1) 16777216 := by
    intro m h0 h1
    have s1 := asr_spec (m * m) 24
    have n1 : 0 ≤ asr (m * m) 24 := asr_nonneg (mul_nonneg h0 h0)
    generalize asr (m * m) 24 = m2 at *
    have b1 : m2 ≤ m := by nlinarith
    have s2 := asr_spec (m2 * m) 24
    generalize asr (m2 * m) 24 = m3 at *
    have b2 : m3 ≤ m := by nlinarith
    have : 0 ≤ asr (3 * m - m3) 1 := asr_nonneg (by omega)
    exact le_min this (by norm_num)
  have hn : (0 : Int) ≤ (u.natAbs : Int) := by omega
  generalize (u.natAbs : Int) = m at *
  by_cases hm : m ≥ 16777216
  · simp only [hm, if_true]; split_ifs <;> omega
  · simp only [hm, if_false]
    have k1 := key m hn (by omega)
    have k2 : min (asr (3 * m - asr (asr (m * m) 24 * m) 24) 1) 16777216 ≤ 16777216 := min_le_right _ _
    generalize min (asr (3 * m - asr (asr (m * m) 24 * m) 24) 1) 16777216 = g at *
    split_ifs <;> omega

/-! ### SMOOTH -/

/-- What one SMOOTH step does (40_primitives.md R103): nothing at the target, else a step of at least 1 toward it,
never beyond it. -/
theorem smooth_spec {cur tgt k : Int} (h1 : 1 ≤ k) (h2 : k ≤ ONE) :
    (tgt = cur ∧ smooth cur tgt k = cur)
      ∨ (cur < tgt ∧ cur + 1 ≤ smooth cur tgt k ∧ smooth cur tgt k ≤ tgt)
      ∨ (tgt < cur ∧ tgt ≤ smooth cur tgt k ∧ smooth cur tgt k ≤ cur - 1) := by
  unfold smooth
  dsimp only
  simp only [ONE] at *
  have key : ∀ m : Int, 1 ≤ m → 1 ≤ asr (m * k + 16777216 - 1) 24 ∧ asr (m * k + 16777216 - 1) 24 ≤ m := by
    intro m hm
    have s := asr_spec (m * k + 16777216 - 1) 24
    generalize asr (m * k + 16777216 - 1) 24 = q at *
    have a : 1 ≤ m * k := by nlinarith
    have b : m * k ≤ m * 16777216 := by nlinarith
    constructor <;> omega
  rcases lt_trichotomy cur tgt with h | h | h
  · right; left
    have hd : ¬ tgt - cur = 0 := by omega
    have hs : (tgt - cur).sign = 1 := Int.sign_eq_one_of_pos (by omega)
    have hn : (((tgt - cur).natAbs : Nat) : Int) = tgt - cur := by omega
    have := key (tgt - cur) (by omega)
    simp only [hd, if_false, hs, hn]
    omega
  · left; simp [h]
  · right; right
    have hd : ¬ tgt - cur = 0 := by omega
    have hs : (tgt - cur).sign = -1 := Int.sign_eq_neg_one_of_neg (by omega)
    have hn : (((tgt - cur).natAbs : Nat) : Int) = cur - tgt := by omega
    have := key (cur - tgt) (by omega)
    simp only [hd, if_false, hs, hn]
    omega

/-- A SMOOTH step never overshoots (40_primitives.md R103 item 1). -/
theorem smooth_between {cur tgt k : Int} (h1 : 1 ≤ k) (h2 : k ≤ ONE) :
    min cur tgt ≤ smooth cur tgt k ∧ smooth cur tgt k ≤ max cur tgt := by
  rcases smooth_spec (cur := cur) (tgt := tgt) h1 h2 with ⟨h, e⟩ | ⟨h, a, b⟩ | ⟨h, a, b⟩
  · subst h; simp [e]
  · rw [min_eq_left h.le, max_eq_right h.le]; omega
  · rw [min_eq_right h.le, max_eq_left h.le]; omega

/-! ### DERIVE -/

/-- DERIVE's `ksm` is in [1, ONE] (40_primitives.md R95). -/
theorem ksmOf_bounds (t : Nat) (q : Int) : 1 ≤ ksmOf t q ∧ ksmOf t q ≤ ONE := sat_bounds (by norm_num)

/-- DERIVE's increments fit 32 bits for a legal rate (40_primitives.md R95). -/
theorem rndiv_rate_bounds {q b : Int} (h1 : FS_MIN_Q ≤ q) (hb : 0 ≤ b) (hb' : b ≤ BASE_Q) :
    0 ≤ rndiv (b * 2 ^ 32) q ∧ rndiv (b * 2 ^ 32) q ≤ 4294967295 := by
  simp only [FS_MIN_Q, BASE_Q] at *
  have s := rndiv_spec (a := b * 2 ^ 32) (b := q) (by omega)
  generalize rndiv (b * 2 ^ 32) q = r at *
  constructor <;> nlinarith

end Sys2Proof.Machine
end

