-- ==== Sys2Proof/Laws/Decode.lean ====
section
/-! SUPPORT. The fields of a command word and the opcode map. -/

namespace Sys2Proof

/-- A command word is its two fields (30_encoding.md R70). -/
theorem word_of_fields (w : Word) : w.toNat = (rsvField w).toNat * 256 + (opcField w).toNat := by
  have := w.isLt
  simp only [rsvField, opcField, BitVec.extractLsb'_toNat, Nat.shiftRight_eq_div_pow]
  omega

theorem opcField_toNat (w : Word) : (opcField w).toNat = w.toNat % 256 := by
  simp [opcField]

theorem rsvField_toNat (w : Word) : (rsvField w).toNat = w.toNat / 256 := by
  have := w.isLt
  simp only [rsvField, BitVec.extractLsb'_toNat, Nat.shiftRight_eq_div_pow]
  omega

/-- The opcode map answers a command exactly at that command's opcode (30_encoding.md R72). -/
theorem decodeOpc_eq_some {o : BitVec 8} {i : Instr} (h : decodeOpc o = some i) : o.toNat = (encode i).toNat := by
  unfold decodeOpc at h
  split at h <;> first | (cases h; assumption) | cases h

/-- The opcode map answers on exactly the assigned opcodes (30_encoding.md R74). -/
theorem decodeOpc_isSome (o : BitVec 8) : (decodeOpc o).isSome = assignedOpcodes.contains o.toNat := by
  revert o; decide +kernel

/-- The decoder says why it refuses (30_encoding.md R73, R74). -/
theorem decode_cases (w : Word) :
    (rsvField w ≠ 0 ∧ decode w = .error .reservedBits)
    ∨ (rsvField w = 0 ∧ decodeOpc (opcField w) = none ∧ decode w = .error .unassignedOpcode)
    ∨ ∃ i, rsvField w = 0 ∧ decodeOpc (opcField w) = some i ∧ decode w = .ok i := by
  unfold decode
  by_cases h : rsvField w = 0
  · cases h' : decodeOpc (opcField w) <;> simp [h]
  · exact .inl ⟨h, if_pos h⟩

end Sys2Proof
end

