-- ==== Sys2Proof/Laws/Memory.lean ====
section
/-! SUPPORT. The laws of the SRAM: read after write, what a write leaves alone, the canonical form kept by every
operation, and equal contents are equal data. -/

namespace Sys2Proof.Machine

variable {V : Type} [DecidableEq V] {d d' v : V} {l : List (Nat × V)} {a a' : Nat}

/-! ### Sorted lists -/

omit [DecidableEq V] in
theorem lookup_of_lt (h : ∀ e ∈ l, a < e.1) : lookup d l a = d := by
  induction l with
  | nil => rfl
  | cons e t ih =>
    obtain ⟨k, w⟩ := e
    have hk : a < k := h (k, w) (by simp)
    simp [lookup, Nat.ne_of_gt hk, ih fun e he => h e (by simp [he])]

theorem listWf_cons {k : Nat} {w : V} {t : List (Nat × V)} :
    listWf d ((k, w) :: t) = true ↔ w ≠ d ∧ (∀ e ∈ t, k < e.1) ∧ listWf d t = true := by
  simp [listWf, and_assoc]

theorem lookup_insertAt_ne (h : a' ≠ a) : lookup d' (insertAt d l a v) a' = lookup d' l a' := by
  induction l with
  | nil => by_cases hv : v = d <;> simp [insertAt, lookup, hv, h.symm]
  | cons e t ih =>
    obtain ⟨k, w⟩ := e
    unfold insertAt
    split_ifs with h1 h2 h3 h4
    · rfl
    · simp [lookup, h.symm]
    · subst h3; simp [lookup, h.symm]
    · subst h3; simp [lookup, h.symm]
    · simp only [lookup, ih]

theorem lookup_insertAt_same (hl : listWf d l = true) :
    lookup d' (insertAt d l a v) a = if v = d then d' else v := by
  induction l with
  | nil => by_cases hv : v = d <;> simp [insertAt, lookup, hv]
  | cons e t ih =>
    obtain ⟨k, w⟩ := e
    obtain ⟨-, hlt, ht⟩ := listWf_cons.1 hl
    unfold insertAt
    split_ifs with h1 h2 h3 h4 h5
    · refine lookup_of_lt fun e he => ?_
      rcases List.mem_cons.1 he with rfl | he
      · exact h1
      · exact h1.trans (hlt e he)
    · simp [lookup]
    · subst h3; exact lookup_of_lt hlt
    · simp [lookup]
    · have hk : k ≠ a := fun hk => h3 hk.symm
      rw [lookup, if_neg hk, ih ht, if_pos h5]
    · have hk : k ≠ a := fun hk => h3 hk.symm
      rw [lookup, if_neg hk, ih ht, if_neg h5]

theorem mem_insertAt {e : Nat × V} (h : e ∈ insertAt d l a v) : e = (a, v) ∨ e ∈ l := by
  induction l with
  | nil => by_cases hv : v = d <;> simp_all [insertAt]
  | cons x t ih =>
    obtain ⟨k, w⟩ := x
    unfold insertAt at h
    split_ifs at h with h1 h2 h3 h4
    · exact .inr h
    · exact List.mem_cons.1 h
    · exact .inr (List.mem_cons_of_mem _ h)
    · rcases List.mem_cons.1 h with h | h
      · exact .inl h
      · exact .inr (List.mem_cons_of_mem _ h)
    · rcases List.mem_cons.1 h with h | h
      · exact .inr (by simp [h])
      · rcases ih h with h | h
        · exact .inl h
        · exact .inr (List.mem_cons_of_mem _ h)

/-- Inserting keeps the list's canonical form. -/
theorem listWf_insertAt (hl : listWf d l = true) : listWf d (insertAt d l a v) = true := by
  induction l with
  | nil => by_cases hv : v = d <;> simp [insertAt, listWf, hv]
  | cons e t ih =>
    obtain ⟨k, w⟩ := e
    obtain ⟨hw, hlt, ht⟩ := listWf_cons.1 hl
    unfold insertAt
    split_ifs with h1 h2 h3 h4
    · exact hl
    · refine listWf_cons.2 ⟨h2, fun e he => ?_, hl⟩
      rcases List.mem_cons.1 he with rfl | he
      · exact h1
      · exact h1.trans (hlt e he)
    · exact ht
    · subst h3; exact listWf_cons.2 ⟨h4, hlt, ht⟩
    · refine listWf_cons.2 ⟨hw, fun e he => ?_, ih ht⟩
      rcases mem_insertAt he with rfl | he
      · show k < a; omega
      · exact hlt e he

omit [DecidableEq V] in
theorem lookup_of_mem_lt {k : Nat} (h : a < k) (hl : ∀ e ∈ l, k < e.1) : lookup d l a = d :=
  lookup_of_lt fun e he => h.trans (hl e he)

theorem lookup_mem (hl : listWf d l = true) {k : Nat} {w : V} (h : (k, w) ∈ l) : lookup d l k = w ∧ w ≠ d := by
  induction l with
  | nil => simp at h
  | cons e t ih =>
    obtain ⟨k', w'⟩ := e
    obtain ⟨hw, hlt, ht⟩ := listWf_cons.1 hl
    rcases List.mem_cons.1 h with h | h
    · obtain ⟨rfl, rfl⟩ := Prod.mk.inj h
      simp [lookup, hw]
    · have := hlt _ h
      rw [lookup, if_neg (Nat.ne_of_lt this)]
      exact ih ht h

omit [DecidableEq V] in
theorem lookup_eq_or_mem : lookup d l a = d ∨ (a, lookup d l a) ∈ l := by
  induction l with
  | nil => simp [lookup]
  | cons e t ih =>
    obtain ⟨k, w⟩ := e
    by_cases h : k = a
    · simp [lookup, h]
    · simp only [lookup, if_neg h]
      rcases ih with ih | ih
      · exact .inl ih
      · exact .inr (List.mem_cons_of_mem _ ih)

/-- Equal contents are equal lists. -/
theorem list_ext_of_lookup {l₁ l₂ : List (Nat × V)} (h1 : listWf d l₁ = true) (h2 : listWf d l₂ = true)
    (h : ∀ a, lookup d l₁ a = lookup d l₂ a) : l₁ = l₂ := by
  induction l₁ generalizing l₂ with
  | nil =>
    cases l₂ with
    | nil => rfl
    | cons e t =>
      obtain ⟨k, w⟩ := e
      have := (listWf_cons.1 h2).1
      have hk := h k
      simp [lookup] at hk
      exact absurd hk.symm this
  | cons e t ih =>
    obtain ⟨k, w⟩ := e
    obtain ⟨hw, hlt, ht⟩ := listWf_cons.1 h1
    cases l₂ with
    | nil => exact absurd (by simpa [lookup] using h k) hw
    | cons e' t' =>
      obtain ⟨k', w'⟩ := e'
      obtain ⟨hw', hlt', ht'⟩ := listWf_cons.1 h2
      have hkk : k = k' := by
        rcases Nat.lt_trichotomy k k' with hk | hk | hk
        · have := h k
          rw [lookup, if_pos rfl, lookup, if_neg (Nat.ne_of_gt hk), lookup_of_mem_lt hk hlt'] at this
          exact absurd this hw
        · exact hk
        · have := h k'
          rw [lookup, if_neg (Nat.ne_of_gt hk), lookup_of_mem_lt hk hlt, lookup, if_pos rfl] at this
          exact absurd this.symm hw'
      subst hkk
      have hww : w = w' := by simpa [lookup] using h k
      subst hww
      congr 1
      refine ih ht ht' fun x => ?_
      by_cases hx : k = x
      · subst hx; rw [lookup_of_lt hlt, lookup_of_lt hlt']
      · simpa [lookup, hx] using h x

/-! ### Bytes and words -/

theorem word_of_bytes (w : Word) : byteOf w 3 ++ byteOf w 2 ++ byteOf w 1 ++ byteOf w 0 = w := by
  refine BitVec.eq_of_getLsbD_eq fun i hi => ?_
  simp only [byteOf, BitVec.getLsbD_append, BitVec.getLsbD_extractLsb']
  have hc : i < 8 ∨ (¬ i < 8 ∧ i - 8 < 8) ∨ (¬ i < 8 ∧ ¬ i - 8 < 8 ∧ i - 8 - 8 < 8)
      ∨ (¬ i < 8 ∧ ¬ i - 8 < 8 ∧ ¬ i - 8 - 8 < 8 ∧ i - 8 - 8 - 8 < 8) := by omega
  rcases hc with h | ⟨h1, h2⟩ | ⟨h1, h2, h3⟩ | ⟨h1, h2, h3, h4⟩
  · simp [h]
  · have : 8 + (i - 8) = i := by omega
    simp [h1, h2, this]
  · have : 16 + (i - 8 - 8) = i := by omega
    simp only [h1, h2, h3, this, decide_true, if_true, if_false, Nat.reduceMul, Bool.true_and]
  · have : 24 + (i - 8 - 8 - 8) = i := by omega
    simp only [h1, h2, h3, h4, this, decide_true, if_false, Nat.reduceMul, Bool.true_and]

theorem byteOf_zero (k : Nat) : byteOf 0 k = 0 := by
  simp [byteOf]

theorem setBytes_lookup {cells : List Host.Cell} (hl : listWf 0 cells = true) {b : Nat} {w : Word} {u : Byte} :
    lookup u (setBytes cells a w) b =
      if b / 4 = a then (if byteOf w (b % 4) = 0 then u else byteOf w (b % 4)) else lookup u cells b := by
  have h0 := listWf_insertAt (a := 4 * a) (v := byteOf w 0) hl
  have h1 := listWf_insertAt (a := 4 * a + 1) (v := byteOf w 1) h0
  have h2 := listWf_insertAt (a := 4 * a + 2) (v := byteOf w 2) h1
  unfold setBytes
  by_cases hb : b / 4 = a
  · rw [if_pos hb]
    have hm : b % 4 = 0 ∨ b % 4 = 1 ∨ b % 4 = 2 ∨ b % 4 = 3 := by omega
    rcases hm with hm | hm | hm | hm
    · have e : b = 4 * a := by omega
      rw [lookup_insertAt_ne (by omega), lookup_insertAt_ne (by omega), lookup_insertAt_ne (by omega), hm, e,
        lookup_insertAt_same hl]
    · have e : b = 4 * a + 1 := by omega
      rw [lookup_insertAt_ne (by omega), lookup_insertAt_ne (by omega), hm, e, lookup_insertAt_same h0]
    · have e : b = 4 * a + 2 := by omega
      rw [lookup_insertAt_ne (by omega), hm, e, lookup_insertAt_same h1]
    · have e : b = 4 * a + 3 := by omega
      rw [hm, e, lookup_insertAt_same h2]
  · rw [if_neg hb, lookup_insertAt_ne (by omega), lookup_insertAt_ne (by omega), lookup_insertAt_ne (by omega),
      lookup_insertAt_ne (by omega)]

theorem setBytes_listWf {cells : List Host.Cell} (hl : listWf 0 cells = true) {w : Word} :
    listWf 0 (setBytes cells a w) = true :=
  listWf_insertAt (listWf_insertAt (listWf_insertAt (listWf_insertAt hl)))

theorem mem_setBytes {cells : List Host.Cell} {w : Word} {c : Host.Cell} (h : c ∈ setBytes cells a w) :
    c.1 / 4 = a ∨ c ∈ cells := by
  unfold setBytes at h
  rcases mem_insertAt h with rfl | h
  · left; show (4 * a + 3) / 4 = a; omega
  rcases mem_insertAt h with rfl | h
  · left; show (4 * a + 2) / 4 = a; omega
  rcases mem_insertAt h with rfl | h
  · left; show (4 * a + 1) / 4 = a; omega
  rcases mem_insertAt h with rfl | h
  · left; show 4 * a / 4 = a; omega
  · exact .inr h

/-! ### The canonical form -/

theorem Memory.wf_iff {m : Memory} :
    m.wf = true ↔ listWf 0 m.cells = true ∧ listWf (.drawn 0) m.marks = true
      ∧ ∀ c ∈ m.cells, m.mark (c.1 / 4) = .stored := by
  simp only [Memory.wf, Bool.and_eq_true, List.all_eq_true, decide_eq_true_eq, and_assoc]

variable {m : Memory} {w : Word} {k b : Nat}

theorem Memory.mark_writeWord (h : m.wf = true) :
    (m.writeWord a w).mark a' = if a' = a then .stored else m.mark a' := by
  obtain ⟨-, h2, -⟩ := wf_iff.1 h
  unfold Memory.mark Memory.writeWord
  by_cases e : a' = a
  · subst e; simp [lookup_insertAt_same h2]
  · simp [lookup_insertAt_ne e, e]

theorem Memory.mark_forget (h : m.wf = true) :
    (m.forget k a).mark a' = if a' = a then .drawn k else m.mark a' := by
  obtain ⟨-, h2, -⟩ := wf_iff.1 h
  unfold Memory.mark Memory.forget
  by_cases e : a' = a
  · subst e
    rw [lookup_insertAt_same h2, if_pos rfl]
    split_ifs with e
    · exact e.symm
    · rfl
  · simp [lookup_insertAt_ne e, e]

/-- A write keeps the canonical form. -/
theorem Memory.wf_writeWord (h : m.wf = true) : (m.writeWord a w).wf = true := by
  have hm := fun a' => mark_writeWord (a := a) (a' := a') (w := w) h
  obtain ⟨h1, h2, h3⟩ := wf_iff.1 h
  refine wf_iff.2 ⟨setBytes_listWf h1, listWf_insertAt h2, fun c hc => ?_⟩
  rw [hm]
  rcases mem_setBytes hc with hc | hc
  · simp [hc]
  · simp [h3 c hc]

/-- A word becoming unspecified keeps the canonical form. -/
theorem Memory.wf_forget (h : m.wf = true) : (m.forget k a).wf = true := by
  have hm := fun a' => mark_forget (a := a) (a' := a') (k := k) h
  obtain ⟨h1, h2, h3⟩ := wf_iff.1 h
  refine wf_iff.2 ⟨setBytes_listWf h1, listWf_insertAt h2, fun c hc => ?_⟩
  rw [hm]
  have hne : c.1 / 4 ≠ a := by
    intro e
    have := lookup_mem (setBytes_listWf h1) (k := c.1) (w := c.2) hc
    rw [setBytes_lookup h1, if_pos e, byteOf_zero, if_pos rfl] at this
    exact this.2 this.1.symm
  rcases mem_setBytes hc with hc | hc
  · exact absurd hc hne
  · simp [hne, h3 c hc]

theorem Memory.wf_forgetAll {l : List Nat} (h : m.wf = true) : (m.forgetAll k l).wf = true := by
  induction l generalizing m with
  | nil => exact h
  | cons a t ih => exact ih (wf_forget h)

/-- The SRAM after reset is in its canonical form. -/
theorem State.resetOf_mem_wf (b : Build) : (State.resetOf b).mem.wf = true := rfl

/-! ### Reads -/

/-- An unlisted byte of a word that holds a free draw is that draw's byte. -/
theorem Memory.readByte_drawn (h : m.wf = true) (hk : m.mark (b / 4) = .drawn k) :
    m.readByte b = byteOf (Config.sramDraw k (b / 4)) (b % 4) := by
  obtain ⟨-, -, h3⟩ := wf_iff.1 h
  unfold Memory.readByte
  rcases lookup_eq_or_mem (d := m.unlisted b) (l := m.cells) (a := b) with e | e
  · rw [e, Memory.unlisted, hk]
  · have := h3 _ e
    simp [hk] at this

/-- A byte of a written word is the listed byte, or 0. -/
theorem Memory.readByte_stored (hs : m.mark (b / 4) = .stored) : m.readByte b = lookup 0 m.cells b := by
  unfold Memory.readByte Memory.unlisted
  rw [hs]

/-- Everything a write does, byte by byte. -/
theorem Memory.readByte_writeWord (h : m.wf = true) :
    (m.writeWord a w).readByte b = if b / 4 = a then byteOf w (b % 4) else m.readByte b := by
  obtain ⟨h1, -, -⟩ := wf_iff.1 h
  have hm := mark_writeWord (a := a) (a' := b / 4) (w := w) h
  by_cases e : b / 4 = a
  · rw [if_pos e] at hm ⊢
    rw [readByte_stored hm]
    show lookup 0 (setBytes m.cells a w) b = _
    rw [setBytes_lookup h1, if_pos e]
    split_ifs with e0
    · exact e0.symm
    · rfl
  · rw [if_neg e] at hm ⊢
    unfold Memory.readByte Memory.unlisted
    rw [hm]
    show lookup _ (setBytes m.cells a w) b = _
    rw [setBytes_lookup h1, if_neg e]

/-- Everything a word becoming unspecified does, byte by byte. -/
theorem Memory.readByte_forget (h : m.wf = true) :
    (m.forget k a).readByte b =
      if b / 4 = a then byteOf (Config.sramDraw k a) (b % 4) else m.readByte b := by
  obtain ⟨h1, -, -⟩ := wf_iff.1 h
  have hm := mark_forget (a := a) (a' := b / 4) (k := k) h
  by_cases e : b / 4 = a
  · rw [if_pos e] at hm ⊢
    rw [readByte_drawn (wf_forget h) hm, e]
  · rw [if_neg e] at hm ⊢
    unfold Memory.readByte Memory.unlisted
    rw [hm]
    show lookup _ (setBytes m.cells a 0) b = _
    rw [setBytes_lookup h1, if_neg e]

theorem Memory.readByte_forgetAll {l : List Nat} (h : m.wf = true) :
    (m.forgetAll k l).readByte b =
      if b / 4 ∈ l then byteOf (Config.sramDraw k (b / 4)) (b % 4) else m.readByte b := by
  induction l generalizing m with
  | nil => simp [Memory.forgetAll]
  | cons a t ih =>
    rw [Memory.forgetAll, ih (wf_forget h), readByte_forget h]
    by_cases e1 : b / 4 ∈ t
    · simp [e1]
    · by_cases e2 : b / 4 = a <;> simp [e1, e2]

theorem Memory.readWord_congr {m' : Memory} (h : ∀ b, b / 4 = a → m.readByte b = m'.readByte b) :
    m.readWord a = m'.readWord a := by
  unfold Memory.readWord
  rw [h (4 * a) (by omega), h (4 * a + 1) (by omega), h (4 * a + 2) (by omega), h (4 * a + 3) (by omega)]

theorem Memory.readWord_of_bytes (h : ∀ b, b / 4 = a → m.readByte b = byteOf w (b % 4)) : m.readWord a = w := by
  unfold Memory.readWord
  rw [h (4 * a) (by omega), h (4 * a + 1) (by omega), h (4 * a + 2) (by omega), h (4 * a + 3) (by omega)]
  rw [show 4 * a % 4 = 0 by omega, show (4 * a + 1) % 4 = 1 by omega, show (4 * a + 2) % 4 = 2 by omega,
    show (4 * a + 3) % 4 = 3 by omega]
  exact word_of_bytes w

/-- Read after write, word by word. -/
theorem Memory.readWord_writeWord (h : m.wf = true) :
    (m.writeWord a w).readWord a' = if a' = a then w else m.readWord a' := by
  by_cases e : a' = a
  · rw [if_pos e]
    exact readWord_of_bytes fun b hb => by rw [readByte_writeWord h, if_pos (hb.trans e)]
  · rw [if_neg e]
    exact readWord_congr fun b hb => by rw [readByte_writeWord h, if_neg (by omega)]

theorem Memory.readWord_drawn (h : m.wf = true) (hk : m.mark a = .drawn k) : m.readWord a = Config.sramDraw k a :=
  readWord_of_bytes fun b hb => by rw [readByte_drawn h (by rw [hb]; exact hk), hb]

theorem Memory.readWord_forgetAll {l : List Nat} (h : m.wf = true) :
    (m.forgetAll k l).readWord a = if a ∈ l then Config.sramDraw k a else m.readWord a := by
  by_cases e : a ∈ l
  · rw [if_pos e]
    exact readWord_of_bytes fun b hb => by rw [readByte_forgetAll h, hb, if_pos e]
  · rw [if_neg e]
    exact readWord_congr fun b hb => by rw [readByte_forgetAll h, hb, if_neg e]

/-- Equal contents are equal data: two memories in canonical form that hold a free draw in the same words and read
the same everywhere are equal. -/
theorem Memory.ext_of_reads {m' : Memory} (h : m.wf = true) (h' : m'.wf = true)
    (hm : ∀ a, m.mark a = m'.mark a) (hr : ∀ b, m.readByte b = m'.readByte b) : m = m' := by
  obtain ⟨h1, h2, h3⟩ := wf_iff.1 h
  obtain ⟨h1', h2', h3'⟩ := wf_iff.1 h'
  have hmarks : m.marks = m'.marks := list_ext_of_lookup h2 h2' hm
  have hcells : m.cells = m'.cells := by
    refine list_ext_of_lookup h1 h1' fun b => ?_
    by_cases hs : m.mark (b / 4) = .stored
    · rw [← readByte_stored hs, ← readByte_stored (by rw [← hm]; exact hs), hr]
    · have e1 : lookup 0 m.cells b = 0 := by
        rcases lookup_eq_or_mem (d := 0) (l := m.cells) (a := b) with e | e
        · exact e
        · exact absurd (h3 _ e) hs
      have e2 : lookup 0 m'.cells b = 0 := by
        rcases lookup_eq_or_mem (d := 0) (l := m'.cells) (a := b) with e | e
        · exact e
        · exact absurd (h3' _ e) (by rw [← hm]; exact hs)
      rw [e1, e2]
  cases m; cases m'; simp_all

/-! ### The listed words -/

theorem Memory.fits_writeWord {words draws : Nat} (h : m.Fits words draws) (ha : a < words) :
    (m.writeWord a w).Fits words draws := by
  simp only [Memory.Fits, List.all_eq_true] at h ⊢
  intro e he
  rcases mem_insertAt he with rfl | he
  · simp [markFits, ha]
  · exact h e he

theorem Memory.fits_mono {words draws draws' : Nat} (h : m.Fits words draws) (hd : draws ≤ draws') :
    m.Fits words draws' := by
  simp only [Memory.Fits, List.all_eq_true] at h ⊢
  intro e he
  have := h e he
  obtain ⟨a, x⟩ := e
  cases x with
  | stored => exact this
  | drawn k => simp [markFits] at this ⊢; omega

theorem Memory.fits_forgetAll {l : List Nat} {words draws : Nat} (h : m.Fits words draws) (hl : ∀ a ∈ l, a < words)
    (hk : k ≤ draws) : (m.forgetAll k l).Fits words draws := by
  induction l generalizing m with
  | nil => exact h
  | cons a t ih =>
    refine ih ?_ fun x hx => hl x (by simp [hx])
    simp only [Memory.Fits, List.all_eq_true] at h ⊢
    intro e he
    rcases mem_insertAt he with rfl | he
    · simp [markFits, hl a (by simp), hk]
    · exact h e he

end Sys2Proof.Machine
end

