-- ==== Sys2Proof/Laws/Loops.lean ====
section
/-! SUPPORT. What the loops of RENDER, MIXG and SINEG do: which words they write, what each holds, and that they leave
everything else alone. -/

namespace Sys2Proof.Machine

variable {m : Memory} {a b n f ch dst src out : Nat} {w inc ph : Word} {e : Engine} {g : Int}

/-! ### The duplicator -/

theorem Memory.wf_fill (h : m.wf = true) : (m.fill a w n).wf = true := by
  induction n generalizing m a with
  | zero => exact h
  | succ n ih => exact ih (wf_writeWord h)

theorem Memory.fits_fill {words draws : Nat} (h : m.Fits words draws) (ha : a + n ≤ words) :
    (m.fill a w n).Fits words draws := by
  induction n generalizing m a with
  | zero => exact h
  | succ n ih => exact ih (fits_writeWord h (by omega)) (by omega)

/-- Everything the duplicator does, byte by byte. -/
theorem Memory.readByte_fill (h : m.wf = true) :
    (m.fill a w n).readByte b = if a ≤ b / 4 ∧ b / 4 < a + n then byteOf w (b % 4) else m.readByte b := by
  induction n generalizing m a with
  | zero => rw [if_neg (by omega)]; rfl
  | succ n ih =>
    rw [Memory.fill, ih (wf_writeWord h), readByte_writeWord h]
    by_cases h1 : b / 4 = a
    · rw [if_neg (by omega), if_pos h1, if_pos (by omega)]
    · by_cases h2 : a ≤ b / 4 ∧ b / 4 < a + (n + 1)
      · rw [if_pos (by omega), if_pos h2]
      · rw [if_neg (by omega), if_neg h1, if_neg h2]

theorem Memory.mark_fill (h : m.wf = true) :
    (m.fill a w n).mark b = if a ≤ b ∧ b < a + n then .stored else m.mark b := by
  induction n generalizing m a with
  | zero => rw [if_neg (by omega)]; rfl
  | succ n ih =>
    rw [Memory.fill, ih (wf_writeWord h), mark_writeWord h]
    by_cases h1 : b = a
    · rw [if_neg (by omega), if_pos h1, if_pos (by omega)]
    · by_cases h2 : a ≤ b ∧ b < a + (n + 1)
      · rw [if_pos (by omega), if_pos h2]
      · rw [if_neg (by omega), if_neg h1, if_neg h2]

/-! ### RENDER's loop -/

theorem Engine.atFrame_add (e : Engine) (p q : Nat) : e.atFrame (p + q) = (e.atFrame p).atFrame q := by
  induction q with
  | zero => rfl
  | succ q ih => exact congrArg (fun x => (sampleStep x).1) ih

theorem Engine.atFrame_succ' (e : Engine) (n : Nat) : e.atFrame (n + 1) = ((sampleStep e).1).atFrame n := by
  rw [Nat.add_comm, atFrame_add]; rfl

/-- The engine state after the loop depends on the frames alone. -/
theorem renderLoop_eng : (renderLoop dst ch n f e m).1 = e.atFrame n := by
  induction n generalizing f e m with
  | zero => rfl
  | succ n ih => rw [renderLoop, ih, Engine.atFrame_succ']

theorem renderLoop_wf (h : m.wf = true) : (renderLoop dst ch n f e m).2.wf = true := by
  induction n generalizing f e m with
  | zero => exact h
  | succ n ih => exact ih (Memory.wf_fill h)

theorem renderLoop_fits {words draws : Nat} (h : m.Fits words draws) (hb : dst + (f + n) * ch ≤ words) :
    (renderLoop dst ch n f e m).2.Fits words draws := by
  induction n generalizing f e m with
  | zero => exact h
  | succ n ih =>
    refine ih (Memory.fits_fill h ?_) (by rw [show f + 1 + n = f + (n + 1) by omega]; exact hb)
    have : (f + 1) * ch ≤ (f + (n + 1)) * ch := Nat.mul_le_mul_right _ (by omega)
    rw [Nat.add_mul, Nat.one_mul] at this
    omega

/-- Two runs of the loop make one. -/
theorem renderLoop_add {p q : Nat} :
    renderLoop dst ch (p + q) f e m
      = renderLoop dst ch q (f + p) (renderLoop dst ch p f e m).1 (renderLoop dst ch p f e m).2 := by
  induction p generalizing f e m with
  | zero => simp [renderLoop]
  | succ p ih =>
    rw [show p + 1 + q = p + q + 1 by omega, renderLoop, ih, renderLoop, show f + 1 + p = f + (p + 1) by omega]

/-- Starting at frame `f` is starting at frame 0, `f` frames further on. -/
theorem renderLoop_shift {k : Nat} :
    renderLoop dst ch n (f + k) e m = renderLoop (dst + f * ch) ch n k e m := by
  induction n generalizing k e m with
  | zero => rfl
  | succ n ih =>
    rw [renderLoop, renderLoop, show f + k + 1 = f + (k + 1) by omega, ih]
    congr 2
    ring

/-- Bytes outside the loop's words keep their value. -/
theorem renderLoop_frame (h : m.wf = true) (hb : ¬ (dst + f * ch ≤ b / 4 ∧ b / 4 < dst + (f + n) * ch)) :
    (renderLoop dst ch n f e m).2.readByte b = m.readByte b := by
  induction n generalizing f e m with
  | zero => rfl
  | succ n ih =>
    have e1 : (f + 1) * ch = f * ch + ch := by ring
    have e2 : (f + (n + 1)) * ch = f * ch + n * ch + ch := by ring
    have e3 : (f + 1 + n) * ch = f * ch + n * ch + ch := by ring
    rw [e2] at hb
    rw [renderLoop, ih (Memory.wf_fill h) (by rw [e1, e3]; omega), Memory.readByte_fill h, if_neg]
    rintro ⟨h1, h2⟩
    have : 0 ≤ n * ch := Nat.zero_le _
    omega

/-- Slot `(f + i, c)` holds the word of frame `f + i`. -/
theorem renderLoop_word {i c : Nat} (h : m.wf = true) (hi : i < n) (hc : c < ch) :
    (renderLoop dst ch n f e m).2.readWord (dst + (f + i) * ch + c) = fixToF32 (sampleStep (e.atFrame i)).2 := by
  induction n generalizing f e m i with
  | zero => omega
  | succ n ih =>
    rw [renderLoop]
    cases i with
    | zero =>
      refine Memory.readWord_of_bytes fun b hb => ?_
      have e1 : (f + 1) * ch = f * ch + ch := by ring
      rw [Nat.add_zero] at hb
      rw [renderLoop_frame (Memory.wf_fill h) (by rw [e1]; omega), Memory.readByte_fill h, if_pos (by omega)]
      rfl
    | succ i =>
      rw [show f + (i + 1) = f + 1 + i by omega, ih (Memory.wf_fill h) (by omega), Engine.atFrame_succ']

/-! ### MIXG's loop -/

theorem mixLoop_wf {i : Nat} (h : m.wf = true) : (mixLoop dst src g n i m).wf = true := by
  induction n generalizing i m with
  | zero => exact h
  | succ n ih => exact ih (Memory.wf_writeWord h)

theorem mixLoop_fits {i words draws : Nat} (h : m.Fits words draws) (hb : dst + i + n ≤ words) :
    (mixLoop dst src g n i m).Fits words draws := by
  induction n generalizing i m with
  | zero => exact h
  | succ n ih => exact ih (Memory.fits_writeWord h (by omega)) (by omega)

/-- Bytes outside the loop's words keep their value. -/
theorem mixLoop_frame {i : Nat} (h : m.wf = true) (hb : ¬ (dst + i ≤ b / 4 ∧ b / 4 < dst + i + n)) :
    (mixLoop dst src g n i m).readByte b = m.readByte b := by
  induction n generalizing i m with
  | zero => rfl
  | succ n ih =>
    rw [mixLoop, ih (Memory.wf_writeWord h) (by omega), Memory.readByte_writeWord h, if_neg (by omega)]

theorem mixLoop_frame_word {i : Nat} (h : m.wf = true) (hb : ¬ (dst + i ≤ a ∧ a < dst + i + n)) :
    (mixLoop dst src g n i m).readWord a = m.readWord a :=
  Memory.readWord_congr fun b hb' => mixLoop_frame h (by omega)

/-- Element `i + j` ends as the saturated sum; its source is the new value exactly when an element of this run before
it has written it. -/
theorem mixLoop_word {i j : Nat} (h : m.wf = true) (hj : j < n) :
    (mixLoop dst src g n i m).readWord (dst + i + j) =
      wrap32 (sat32 (mac (sext32 (m.readWord (dst + i + j)))
        (sext32 (if dst + i ≤ src + i + j ∧ src < dst then (mixLoop dst src g n i m).readWord (src + i + j)
          else m.readWord (src + i + j))) g)) := by
  induction n generalizing i j m with
  | zero => omega
  | succ n ih =>
    rw [mixLoop]
    set m' := m.writeWord (dst + i) (wrap32 (sat32 (mac (sext32 (m.readWord (dst + i))) (sext32 (m.readWord (src + i))) g)))
      with hm'
    have hw : m'.wf = true := Memory.wf_writeWord h
    cases j with
    | zero =>
      rw [mixLoop_frame_word hw (by omega), if_neg (by omega), hm', Memory.readWord_writeWord h, if_pos (by omega)]
      rfl
    | succ j =>
      have := ih (i := i + 1) (j := j) hw (by omega)
      rw [show dst + (i + 1) + j = dst + i + (j + 1) by omega, show src + (i + 1) + j = src + i + (j + 1) by omega]
        at this
      rw [this, hm', Memory.readWord_writeWord h, if_neg (by omega), ← hm']
      congr 4
      by_cases h1 : dst + i + 1 ≤ src + i + (j + 1) ∧ src < dst
      · rw [if_pos (by omega), if_pos (by omega)]
      · by_cases h2 : dst + i ≤ src + i + (j + 1) ∧ src < dst
        · have e1 : src + i + (j + 1) = dst + i := by omega
          rw [if_neg (by omega), if_pos h2, e1, mixLoop_frame_word hw (by omega)]
        · rw [if_neg (by omega), if_neg h2, hm', Memory.readWord_writeWord h, if_neg (by omega)]

/-! ### SINEG's loop -/

theorem sineLoop_phase : (sineLoop inc n a ph m).1 = ph + BitVec.ofNat 32 n * inc := by
  induction n generalizing a ph m with
  | zero => simp [sineLoop]
  | succ n ih =>
    rw [sineLoop, ih, wrap32_add, BitVec.ofNat_add, BitVec.add_mul]
    rw [show BitVec.ofNat 32 1 * inc = inc by simp, BitVec.add_assoc, BitVec.add_comm inc]

theorem sineLoop_wf (h : m.wf = true) : (sineLoop inc n a ph m).2.wf = true := by
  induction n generalizing a ph m with
  | zero => exact h
  | succ n ih => exact ih (Memory.wf_writeWord h)

theorem sineLoop_fits {words draws : Nat} (h : m.Fits words draws) (hb : a + n ≤ words) :
    (sineLoop inc n a ph m).2.Fits words draws := by
  induction n generalizing a ph m with
  | zero => exact h
  | succ n ih => exact ih (Memory.fits_writeWord h (by omega)) (by omega)

/-- Bytes outside the loop's words keep their value. -/
theorem sineLoop_frame (h : m.wf = true) (hb : ¬ (a ≤ b / 4 ∧ b / 4 < a + n)) :
    (sineLoop inc n a ph m).2.readByte b = m.readByte b := by
  induction n generalizing a ph m with
  | zero => rfl
  | succ n ih =>
    rw [sineLoop, ih (Memory.wf_writeWord h) (by omega), Memory.readByte_writeWord h, if_neg (by omega)]

theorem sineLoop_frame_word {x : Nat} (h : m.wf = true) (hb : ¬ (a ≤ x ∧ x < a + n)) :
    (sineLoop inc n a ph m).2.readWord x = m.readWord x :=
  Memory.readWord_congr fun b hb' => sineLoop_frame h (by omega)

/-- Output `i` is SIN of the starting phase advanced `i` times. -/
theorem sineLoop_word {i : Nat} (h : m.wf = true) (hi : i < n) :
    (sineLoop inc n a ph m).2.readWord (a + i) = wrap32 (sinQ (ph + BitVec.ofNat 32 i * inc)) := by
  induction n generalizing a ph m i with
  | zero => omega
  | succ n ih =>
    rw [sineLoop]
    cases i with
    | zero =>
      rw [sineLoop_frame_word (Memory.wf_writeWord h) (by omega), Memory.readWord_writeWord h, if_pos (by omega)]
      simp
    | succ i =>
      rw [show a + (i + 1) = a + 1 + i by omega, ih (Memory.wf_writeWord h) (by omega), wrap32_add]
      congr 2
      rw [BitVec.ofNat_add, BitVec.add_mul, show BitVec.ofNat 32 1 * inc = inc by simp, BitVec.add_assoc,
        BitVec.add_comm inc]

end Sys2Proof.Machine
end

