-- ==== Sys2Proof/Laws/State.lean ====
section
/-! SUPPORT. The small lemmas of the state: one per field per update, each true by unfolding, so that no later proof
unfolds a record update. -/

namespace Sys2Proof.Machine

variable (s : State) (e : Engine) (st : Status)

/-! ### `State.complete` -/

@[simp] theorem State.complete_build (r : Word) : (s.complete r).build = s.build := rfl
@[simp] theorem State.complete_rstN (r : Word) : (s.complete r).rstN = s.rstN := rfl
@[simp] theorem State.complete_ie (r : Word) : (s.complete r).ie = s.ie := rfl
@[simp] theorem State.complete_status (r : Word) : (s.complete r).status = s.status.completed .ok := rfl
@[simp] theorem State.complete_arg0 (r : Word) : (s.complete r).arg0 = s.arg0 := rfl
@[simp] theorem State.complete_arg1 (r : Word) : (s.complete r).arg1 = s.arg1 := rfl
@[simp] theorem State.complete_arg2 (r : Word) : (s.complete r).arg2 = s.arg2 := rfl
@[simp] theorem State.complete_arg3 (r : Word) : (s.complete r).arg3 = s.arg3 := rfl
@[simp] theorem State.complete_result (r : Word) : (s.complete r).result = r := rfl
@[simp] theorem State.complete_pend (r : Word) : (s.complete r).pend = 0 := rfl
@[simp] theorem State.complete_eng (r : Word) : (s.complete r).eng = s.eng := rfl
@[simp] theorem State.complete_mem (r : Word) : (s.complete r).mem = s.mem := rfl
@[simp] theorem State.complete_draws (r : Word) : (s.complete r).draws = s.draws := rfl
@[simp] theorem State.complete_hrdata (r : Word) : (s.complete r).hrdata = s.hrdata := rfl
@[simp] theorem State.complete_inputs (r : Word) : (s.complete r).inputs = s.inputs := rfl

/-! ### `State.cmdError` -/

@[simp] theorem State.cmdError_build (c : ErrCode) : (s.cmdError c).build = s.build := rfl
@[simp] theorem State.cmdError_rstN (c : ErrCode) : (s.cmdError c).rstN = s.rstN := rfl
@[simp] theorem State.cmdError_ie (c : ErrCode) : (s.cmdError c).ie = s.ie := rfl
@[simp] theorem State.cmdError_status (c : ErrCode) : (s.cmdError c).status = s.status.completed c := rfl
@[simp] theorem State.cmdError_arg0 (c : ErrCode) : (s.cmdError c).arg0 = s.arg0 := rfl
@[simp] theorem State.cmdError_arg1 (c : ErrCode) : (s.cmdError c).arg1 = s.arg1 := rfl
@[simp] theorem State.cmdError_arg2 (c : ErrCode) : (s.cmdError c).arg2 = s.arg2 := rfl
@[simp] theorem State.cmdError_arg3 (c : ErrCode) : (s.cmdError c).arg3 = s.arg3 := rfl
@[simp] theorem State.cmdError_result (c : ErrCode) : (s.cmdError c).result = 0 := rfl
@[simp] theorem State.cmdError_pend (c : ErrCode) : (s.cmdError c).pend = 0 := rfl
@[simp] theorem State.cmdError_eng (c : ErrCode) : (s.cmdError c).eng = s.eng := rfl
@[simp] theorem State.cmdError_mem (c : ErrCode) : (s.cmdError c).mem = s.mem := rfl
@[simp] theorem State.cmdError_draws (c : ErrCode) : (s.cmdError c).draws = s.draws := rfl
@[simp] theorem State.cmdError_hrdata (c : ErrCode) : (s.cmdError c).hrdata = s.hrdata := rfl
@[simp] theorem State.cmdError_inputs (c : ErrCode) : (s.cmdError c).inputs = s.inputs := rfl

/-! ### `State.acknowledge` -/

@[simp] theorem State.acknowledge_build (w : Word) : (s.acknowledge w).build = s.build := rfl
@[simp] theorem State.acknowledge_rstN (w : Word) : (s.acknowledge w).rstN = s.rstN := rfl
@[simp] theorem State.acknowledge_ie (w : Word) : (s.acknowledge w).ie = s.ie := rfl
@[simp] theorem State.acknowledge_status (w : Word) : (s.acknowledge w).status = s.status.writeOneToClear w := rfl
@[simp] theorem State.acknowledge_arg0 (w : Word) : (s.acknowledge w).arg0 = s.arg0 := rfl
@[simp] theorem State.acknowledge_arg1 (w : Word) : (s.acknowledge w).arg1 = s.arg1 := rfl
@[simp] theorem State.acknowledge_arg2 (w : Word) : (s.acknowledge w).arg2 = s.arg2 := rfl
@[simp] theorem State.acknowledge_arg3 (w : Word) : (s.acknowledge w).arg3 = s.arg3 := rfl
@[simp] theorem State.acknowledge_result (w : Word) : (s.acknowledge w).result = s.result := rfl
@[simp] theorem State.acknowledge_pend (w : Word) : (s.acknowledge w).pend = s.pend := rfl
@[simp] theorem State.acknowledge_eng (w : Word) : (s.acknowledge w).eng = s.eng := rfl
@[simp] theorem State.acknowledge_mem (w : Word) : (s.acknowledge w).mem = s.mem := rfl
@[simp] theorem State.acknowledge_draws (w : Word) : (s.acknowledge w).draws = s.draws := rfl
@[simp] theorem State.acknowledge_hrdata (w : Word) : (s.acknowledge w).hrdata = s.hrdata := rfl
@[simp] theorem State.acknowledge_inputs (w : Word) : (s.acknowledge w).inputs = s.inputs := rfl

/-! ### `State.resetRegs` -/

@[simp] theorem State.resetRegs_build : (s.resetRegs).build = s.build := rfl
@[simp] theorem State.resetRegs_rstN : (s.resetRegs).rstN = s.rstN := rfl
@[simp] theorem State.resetRegs_ie : (s.resetRegs).ie = false := rfl
@[simp] theorem State.resetRegs_status : (s.resetRegs).status = Status.zero := rfl
@[simp] theorem State.resetRegs_arg0 : (s.resetRegs).arg0 = 0 := rfl
@[simp] theorem State.resetRegs_arg1 : (s.resetRegs).arg1 = 0 := rfl
@[simp] theorem State.resetRegs_arg2 : (s.resetRegs).arg2 = 0 := rfl
@[simp] theorem State.resetRegs_arg3 : (s.resetRegs).arg3 = 0 := rfl
@[simp] theorem State.resetRegs_result : (s.resetRegs).result = 0 := rfl
@[simp] theorem State.resetRegs_pend : (s.resetRegs).pend = 0 := rfl
@[simp] theorem State.resetRegs_eng : (s.resetRegs).eng = Engine.zero := rfl
@[simp] theorem State.resetRegs_mem : (s.resetRegs).mem = s.mem := rfl
@[simp] theorem State.resetRegs_draws : (s.resetRegs).draws = s.draws := rfl
@[simp] theorem State.resetRegs_hrdata : (s.resetRegs).hrdata = s.hrdata := rfl
@[simp] theorem State.resetRegs_inputs : (s.resetRegs).inputs = s.inputs := rfl

/-! ### `State.setEbusy` -/

@[simp] theorem State.setEbusy_build : (s.setEbusy).build = s.build := rfl
@[simp] theorem State.setEbusy_rstN : (s.setEbusy).rstN = s.rstN := rfl
@[simp] theorem State.setEbusy_ie : (s.setEbusy).ie = s.ie := rfl
@[simp] theorem State.setEbusy_status : (s.setEbusy).status = { s.status with ebusy := true } := rfl
@[simp] theorem State.setEbusy_arg0 : (s.setEbusy).arg0 = s.arg0 := rfl
@[simp] theorem State.setEbusy_arg1 : (s.setEbusy).arg1 = s.arg1 := rfl
@[simp] theorem State.setEbusy_arg2 : (s.setEbusy).arg2 = s.arg2 := rfl
@[simp] theorem State.setEbusy_arg3 : (s.setEbusy).arg3 = s.arg3 := rfl
@[simp] theorem State.setEbusy_result : (s.setEbusy).result = s.result := rfl
@[simp] theorem State.setEbusy_pend : (s.setEbusy).pend = s.pend := rfl
@[simp] theorem State.setEbusy_eng : (s.setEbusy).eng = s.eng := rfl
@[simp] theorem State.setEbusy_mem : (s.setEbusy).mem = s.mem := rfl
@[simp] theorem State.setEbusy_draws : (s.setEbusy).draws = s.draws := rfl
@[simp] theorem State.setEbusy_hrdata : (s.setEbusy).hrdata = s.hrdata := rfl
@[simp] theorem State.setEbusy_inputs : (s.setEbusy).inputs = s.inputs := rfl

/-! ### `State.accept` -/

@[simp] theorem State.accept_build (w : Word) : (s.accept w).build = s.build := rfl
@[simp] theorem State.accept_rstN (w : Word) : (s.accept w).rstN = s.rstN := rfl
@[simp] theorem State.accept_ie (w : Word) : (s.accept w).ie = s.ie := rfl
@[simp] theorem State.accept_status (w : Word) : (s.accept w).status = { s.status with done := false, busy := true } := rfl
@[simp] theorem State.accept_arg0 (w : Word) : (s.accept w).arg0 = s.arg0 := rfl
@[simp] theorem State.accept_arg1 (w : Word) : (s.accept w).arg1 = s.arg1 := rfl
@[simp] theorem State.accept_arg2 (w : Word) : (s.accept w).arg2 = s.arg2 := rfl
@[simp] theorem State.accept_arg3 (w : Word) : (s.accept w).arg3 = s.arg3 := rfl
@[simp] theorem State.accept_result (w : Word) : (s.accept w).result = s.result := rfl
@[simp] theorem State.accept_pend (w : Word) : (s.accept w).pend = w := rfl
@[simp] theorem State.accept_eng (w : Word) : (s.accept w).eng = s.eng := rfl
@[simp] theorem State.accept_mem (w : Word) : (s.accept w).mem = s.mem := rfl
@[simp] theorem State.accept_draws (w : Word) : (s.accept w).draws = s.draws := rfl
@[simp] theorem State.accept_hrdata (w : Word) : (s.accept w).hrdata = s.hrdata := rfl
@[simp] theorem State.accept_inputs (w : Word) : (s.accept w).inputs = s.inputs := rfl

/-! ### `State.takeTurn` -/

@[simp] theorem State.takeTurn_build : (s.takeTurn).build = s.build := rfl
@[simp] theorem State.takeTurn_rstN : (s.takeTurn).rstN = s.rstN := rfl
@[simp] theorem State.takeTurn_ie : (s.takeTurn).ie = s.ie := rfl
@[simp] theorem State.takeTurn_status : (s.takeTurn).status = s.status := rfl
@[simp] theorem State.takeTurn_arg0 : (s.takeTurn).arg0 = s.arg0 := rfl
@[simp] theorem State.takeTurn_arg1 : (s.takeTurn).arg1 = s.arg1 := rfl
@[simp] theorem State.takeTurn_arg2 : (s.takeTurn).arg2 = s.arg2 := rfl
@[simp] theorem State.takeTurn_arg3 : (s.takeTurn).arg3 = s.arg3 := rfl
@[simp] theorem State.takeTurn_result : (s.takeTurn).result = s.result := rfl
@[simp] theorem State.takeTurn_pend : (s.takeTurn).pend = s.pend := rfl
@[simp] theorem State.takeTurn_eng : (s.takeTurn).eng = s.eng := rfl
@[simp] theorem State.takeTurn_mem : (s.takeTurn).mem = s.mem := rfl
@[simp] theorem State.takeTurn_draws : (s.takeTurn).draws = s.draws := rfl
@[simp] theorem State.takeTurn_hrdata : (s.takeTurn).hrdata = none := rfl
@[simp] theorem State.takeTurn_inputs : (s.takeTurn).inputs = s.inputs.tail := rfl

/-! ### `Engine.derive` -/

@[simp] theorem Engine.derive_life (t : Nat) (q : Int) : (e.derive t q).life = e.life := rfl
@[simp] theorem Engine.derive_fsQ (t : Nat) (q : Int) : (e.derive t q).fsQ = wrap32 q := rfl
@[simp] theorem Engine.derive_inc1 (t : Nat) (q : Int) :
    (e.derive t q).inc1 = wrap32 (rndiv (BASE_Q * 2 ^ 32) q) := rfl
@[simp] theorem Engine.derive_incLfo (t : Nat) (q : Int) :
    (e.derive t q).incLfo = wrap32 (rndiv (LFO_Q * 2 ^ 32) q) := rfl
@[simp] theorem Engine.derive_ksm (t : Nat) (q : Int) : (e.derive t q).ksm = wrap32 (ksmOf t q) := rfl
@[simp] theorem Engine.derive_ph1 (t : Nat) (q : Int) : (e.derive t q).ph1 = e.ph1 := rfl
@[simp] theorem Engine.derive_ph2 (t : Nat) (q : Int) : (e.derive t q).ph2 = e.ph2 := rfl
@[simp] theorem Engine.derive_modph (t : Nat) (q : Int) : (e.derive t q).modph = e.modph := rfl
@[simp] theorem Engine.derive_y (t : Nat) (q : Int) : (e.derive t q).y = e.y := rfl
@[simp] theorem Engine.derive_postGain (t : Nat) (q : Int) : (e.derive t q).postGain = e.postGain := rfl
@[simp] theorem Engine.derive_cur (t : Nat) (q : Int) : (e.derive t q).cur = e.cur := rfl
@[simp] theorem Engine.derive_tgt (t : Nat) (q : Int) : (e.derive t q).tgt = e.tgt := rfl

/-! ### `Engine.quiesce` -/

@[simp] theorem Engine.quiesce_life : (e.quiesce).life = e.life := rfl
@[simp] theorem Engine.quiesce_fsQ : (e.quiesce).fsQ = e.fsQ := rfl
@[simp] theorem Engine.quiesce_inc1 : (e.quiesce).inc1 = e.inc1 := rfl
@[simp] theorem Engine.quiesce_incLfo : (e.quiesce).incLfo = e.incLfo := rfl
@[simp] theorem Engine.quiesce_ksm : (e.quiesce).ksm = e.ksm := rfl
@[simp] theorem Engine.quiesce_ph1 : (e.quiesce).ph1 = 0 := rfl
@[simp] theorem Engine.quiesce_ph2 : (e.quiesce).ph2 = 0 := rfl
@[simp] theorem Engine.quiesce_modph : (e.quiesce).modph = 0 := rfl
@[simp] theorem Engine.quiesce_y : (e.quiesce).y = 0 := rfl
@[simp] theorem Engine.quiesce_postGain : (e.quiesce).postGain = e.postGain := rfl
@[simp] theorem Engine.quiesce_cur : (e.quiesce).cur = e.cur := rfl
@[simp] theorem Engine.quiesce_tgt : (e.quiesce).tgt = e.tgt := rfl

/-! ### `Engine.created` -/

@[simp] theorem Engine.created_life (t : Nat) (q : Int) : (e.created t q).life = .ready := rfl
@[simp] theorem Engine.created_fsQ (t : Nat) (q : Int) : (e.created t q).fsQ = wrap32 q := rfl
@[simp] theorem Engine.created_inc1 (t : Nat) (q : Int) :
    (e.created t q).inc1 = wrap32 (rndiv (BASE_Q * 2 ^ 32) q) := rfl
@[simp] theorem Engine.created_incLfo (t : Nat) (q : Int) :
    (e.created t q).incLfo = wrap32 (rndiv (LFO_Q * 2 ^ 32) q) := rfl
@[simp] theorem Engine.created_ksm (t : Nat) (q : Int) : (e.created t q).ksm = wrap32 (ksmOf t q) := rfl
@[simp] theorem Engine.created_ph1 (t : Nat) (q : Int) : (e.created t q).ph1 = 0 := rfl
@[simp] theorem Engine.created_ph2 (t : Nat) (q : Int) : (e.created t q).ph2 = 0 := rfl
@[simp] theorem Engine.created_modph (t : Nat) (q : Int) : (e.created t q).modph = 0 := rfl
@[simp] theorem Engine.created_y (t : Nat) (q : Int) : (e.created t q).y = 0 := rfl
@[simp] theorem Engine.created_postGain (t : Nat) (q : Int) : (e.created t q).postGain = DEF_POST_GAIN := rfl
@[simp] theorem Engine.created_cur (t : Nat) (q : Int) : (e.created t q).cur = Scene.default := rfl
@[simp] theorem Engine.created_tgt (t : Nat) (q : Int) : (e.created t q).tgt = Scene.default := rfl

/-! ### `Engine.smoothStep` -/

@[simp] theorem Engine.smoothStep_life : (e.smoothStep).life = e.life := rfl
@[simp] theorem Engine.smoothStep_fsQ : (e.smoothStep).fsQ = e.fsQ := rfl
@[simp] theorem Engine.smoothStep_inc1 : (e.smoothStep).inc1 = e.inc1 := rfl
@[simp] theorem Engine.smoothStep_incLfo : (e.smoothStep).incLfo = e.incLfo := rfl
@[simp] theorem Engine.smoothStep_ksm : (e.smoothStep).ksm = e.ksm := rfl
@[simp] theorem Engine.smoothStep_ph1 : (e.smoothStep).ph1 = e.ph1 := rfl
@[simp] theorem Engine.smoothStep_ph2 : (e.smoothStep).ph2 = e.ph2 := rfl
@[simp] theorem Engine.smoothStep_modph : (e.smoothStep).modph = e.modph := rfl
@[simp] theorem Engine.smoothStep_y : (e.smoothStep).y = e.y := rfl
@[simp] theorem Engine.smoothStep_postGain : (e.smoothStep).postGain = e.postGain := rfl
@[simp] theorem Engine.smoothStep_cur : (e.smoothStep).cur = e.cur.smoothed e.tgt (zext32 e.ksm) := rfl
@[simp] theorem Engine.smoothStep_tgt : (e.smoothStep).tgt = e.tgt := rfl

/-! ### `Engine.filterStep` -/

@[simp] theorem Engine.filterStep_life : (e.filterStep).life = e.life := rfl
@[simp] theorem Engine.filterStep_fsQ : (e.filterStep).fsQ = e.fsQ := rfl
@[simp] theorem Engine.filterStep_inc1 : (e.filterStep).inc1 = e.inc1 := rfl
@[simp] theorem Engine.filterStep_incLfo : (e.filterStep).incLfo = e.incLfo := rfl
@[simp] theorem Engine.filterStep_ksm : (e.filterStep).ksm = e.ksm := rfl
@[simp] theorem Engine.filterStep_ph1 : (e.filterStep).ph1 = e.ph1 := rfl
@[simp] theorem Engine.filterStep_ph2 : (e.filterStep).ph2 = e.ph2 := rfl
@[simp] theorem Engine.filterStep_modph : (e.filterStep).modph = e.modph := rfl
@[simp] theorem Engine.filterStep_y : (e.filterStep).y = wrap32 (lpf (sext32 e.y) e.osc e.filterCoef) := rfl
@[simp] theorem Engine.filterStep_postGain : (e.filterStep).postGain = e.postGain := rfl
@[simp] theorem Engine.filterStep_cur : (e.filterStep).cur = e.cur := rfl
@[simp] theorem Engine.filterStep_tgt : (e.filterStep).tgt = e.tgt := rfl

/-! ### `Engine.advance` -/

@[simp] theorem Engine.advance_life : (e.advance).life = e.life := rfl
@[simp] theorem Engine.advance_fsQ : (e.advance).fsQ = e.fsQ := rfl
@[simp] theorem Engine.advance_inc1 : (e.advance).inc1 = e.inc1 := rfl
@[simp] theorem Engine.advance_incLfo : (e.advance).incLfo = e.incLfo := rfl
@[simp] theorem Engine.advance_ksm : (e.advance).ksm = e.ksm := rfl
@[simp] theorem Engine.advance_ph1 : (e.advance).ph1 = wrap32 (zext32 e.ph1 + zext32 e.inc1) := rfl
@[simp] theorem Engine.advance_ph2 :
    (e.advance).ph2 = wrap32 (zext32 e.ph2 + zext32 (inc2Of e.inc1 (sext32 e.cur.detune + drift e.modph))) := rfl
@[simp] theorem Engine.advance_modph : (e.advance).modph = wrap32 (zext32 e.modph + zext32 e.incLfo) := rfl
@[simp] theorem Engine.advance_y : (e.advance).y = e.y := rfl
@[simp] theorem Engine.advance_postGain : (e.advance).postGain = e.postGain := rfl
@[simp] theorem Engine.advance_cur : (e.advance).cur = e.cur := rfl
@[simp] theorem Engine.advance_tgt : (e.advance).tgt = e.tgt := rfl

/-! ### `Engine.setPostGain` -/

@[simp] theorem Engine.setPostGain_life (w : Word) : (e.setPostGain w).life = e.life := rfl
@[simp] theorem Engine.setPostGain_fsQ (w : Word) : (e.setPostGain w).fsQ = e.fsQ := rfl
@[simp] theorem Engine.setPostGain_inc1 (w : Word) : (e.setPostGain w).inc1 = e.inc1 := rfl
@[simp] theorem Engine.setPostGain_incLfo (w : Word) : (e.setPostGain w).incLfo = e.incLfo := rfl
@[simp] theorem Engine.setPostGain_ksm (w : Word) : (e.setPostGain w).ksm = e.ksm := rfl
@[simp] theorem Engine.setPostGain_ph1 (w : Word) : (e.setPostGain w).ph1 = e.ph1 := rfl
@[simp] theorem Engine.setPostGain_ph2 (w : Word) : (e.setPostGain w).ph2 = e.ph2 := rfl
@[simp] theorem Engine.setPostGain_modph (w : Word) : (e.setPostGain w).modph = e.modph := rfl
@[simp] theorem Engine.setPostGain_y (w : Word) : (e.setPostGain w).y = e.y := rfl
@[simp] theorem Engine.setPostGain_postGain (w : Word) : (e.setPostGain w).postGain = w := rfl
@[simp] theorem Engine.setPostGain_cur (w : Word) : (e.setPostGain w).cur = e.cur := rfl
@[simp] theorem Engine.setPostGain_tgt (w : Word) : (e.setPostGain w).tgt = e.tgt := rfl

/-! ### `Engine.setCutBase` -/

@[simp] theorem Engine.setCutBase_life (w : Word) : (e.setCutBase w).life = e.life := rfl
@[simp] theorem Engine.setCutBase_fsQ (w : Word) : (e.setCutBase w).fsQ = e.fsQ := rfl
@[simp] theorem Engine.setCutBase_inc1 (w : Word) : (e.setCutBase w).inc1 = e.inc1 := rfl
@[simp] theorem Engine.setCutBase_incLfo (w : Word) : (e.setCutBase w).incLfo = e.incLfo := rfl
@[simp] theorem Engine.setCutBase_ksm (w : Word) : (e.setCutBase w).ksm = e.ksm := rfl
@[simp] theorem Engine.setCutBase_ph1 (w : Word) : (e.setCutBase w).ph1 = e.ph1 := rfl
@[simp] theorem Engine.setCutBase_ph2 (w : Word) : (e.setCutBase w).ph2 = e.ph2 := rfl
@[simp] theorem Engine.setCutBase_modph (w : Word) : (e.setCutBase w).modph = e.modph := rfl
@[simp] theorem Engine.setCutBase_y (w : Word) : (e.setCutBase w).y = e.y := rfl
@[simp] theorem Engine.setCutBase_postGain (w : Word) : (e.setCutBase w).postGain = e.postGain := rfl
@[simp] theorem Engine.setCutBase_cur (w : Word) : (e.setCutBase w).cur = e.cur := rfl
@[simp] theorem Engine.setCutBase_tgt (w : Word) : (e.setCutBase w).tgt = { e.tgt with cutBase := w } := rfl

/-! ### `Engine.setCutSpan` -/

@[simp] theorem Engine.setCutSpan_life (w : Word) : (e.setCutSpan w).life = e.life := rfl
@[simp] theorem Engine.setCutSpan_fsQ (w : Word) : (e.setCutSpan w).fsQ = e.fsQ := rfl
@[simp] theorem Engine.setCutSpan_inc1 (w : Word) : (e.setCutSpan w).inc1 = e.inc1 := rfl
@[simp] theorem Engine.setCutSpan_incLfo (w : Word) : (e.setCutSpan w).incLfo = e.incLfo := rfl
@[simp] theorem Engine.setCutSpan_ksm (w : Word) : (e.setCutSpan w).ksm = e.ksm := rfl
@[simp] theorem Engine.setCutSpan_ph1 (w : Word) : (e.setCutSpan w).ph1 = e.ph1 := rfl
@[simp] theorem Engine.setCutSpan_ph2 (w : Word) : (e.setCutSpan w).ph2 = e.ph2 := rfl
@[simp] theorem Engine.setCutSpan_modph (w : Word) : (e.setCutSpan w).modph = e.modph := rfl
@[simp] theorem Engine.setCutSpan_y (w : Word) : (e.setCutSpan w).y = e.y := rfl
@[simp] theorem Engine.setCutSpan_postGain (w : Word) : (e.setCutSpan w).postGain = e.postGain := rfl
@[simp] theorem Engine.setCutSpan_cur (w : Word) : (e.setCutSpan w).cur = e.cur := rfl
@[simp] theorem Engine.setCutSpan_tgt (w : Word) : (e.setCutSpan w).tgt = { e.tgt with cutSpan := w } := rfl

/-! ### `Engine.setDrive` -/

@[simp] theorem Engine.setDrive_life (w : Word) : (e.setDrive w).life = e.life := rfl
@[simp] theorem Engine.setDrive_fsQ (w : Word) : (e.setDrive w).fsQ = e.fsQ := rfl
@[simp] theorem Engine.setDrive_inc1 (w : Word) : (e.setDrive w).inc1 = e.inc1 := rfl
@[simp] theorem Engine.setDrive_incLfo (w : Word) : (e.setDrive w).incLfo = e.incLfo := rfl
@[simp] theorem Engine.setDrive_ksm (w : Word) : (e.setDrive w).ksm = e.ksm := rfl
@[simp] theorem Engine.setDrive_ph1 (w : Word) : (e.setDrive w).ph1 = e.ph1 := rfl
@[simp] theorem Engine.setDrive_ph2 (w : Word) : (e.setDrive w).ph2 = e.ph2 := rfl
@[simp] theorem Engine.setDrive_modph (w : Word) : (e.setDrive w).modph = e.modph := rfl
@[simp] theorem Engine.setDrive_y (w : Word) : (e.setDrive w).y = e.y := rfl
@[simp] theorem Engine.setDrive_postGain (w : Word) : (e.setDrive w).postGain = e.postGain := rfl
@[simp] theorem Engine.setDrive_cur (w : Word) : (e.setDrive w).cur = e.cur := rfl
@[simp] theorem Engine.setDrive_tgt (w : Word) : (e.setDrive w).tgt = { e.tgt with drive := w } := rfl

/-! ### `Engine.setOutGain` -/

@[simp] theorem Engine.setOutGain_life (w : Word) : (e.setOutGain w).life = e.life := rfl
@[simp] theorem Engine.setOutGain_fsQ (w : Word) : (e.setOutGain w).fsQ = e.fsQ := rfl
@[simp] theorem Engine.setOutGain_inc1 (w : Word) : (e.setOutGain w).inc1 = e.inc1 := rfl
@[simp] theorem Engine.setOutGain_incLfo (w : Word) : (e.setOutGain w).incLfo = e.incLfo := rfl
@[simp] theorem Engine.setOutGain_ksm (w : Word) : (e.setOutGain w).ksm = e.ksm := rfl
@[simp] theorem Engine.setOutGain_ph1 (w : Word) : (e.setOutGain w).ph1 = e.ph1 := rfl
@[simp] theorem Engine.setOutGain_ph2 (w : Word) : (e.setOutGain w).ph2 = e.ph2 := rfl
@[simp] theorem Engine.setOutGain_modph (w : Word) : (e.setOutGain w).modph = e.modph := rfl
@[simp] theorem Engine.setOutGain_y (w : Word) : (e.setOutGain w).y = e.y := rfl
@[simp] theorem Engine.setOutGain_postGain (w : Word) : (e.setOutGain w).postGain = e.postGain := rfl
@[simp] theorem Engine.setOutGain_cur (w : Word) : (e.setOutGain w).cur = e.cur := rfl
@[simp] theorem Engine.setOutGain_tgt (w : Word) : (e.setOutGain w).tgt = { e.tgt with outGain := w } := rfl

/-! ### `Engine.setDetune` -/

@[simp] theorem Engine.setDetune_life (w : Word) : (e.setDetune w).life = e.life := rfl
@[simp] theorem Engine.setDetune_fsQ (w : Word) : (e.setDetune w).fsQ = e.fsQ := rfl
@[simp] theorem Engine.setDetune_inc1 (w : Word) : (e.setDetune w).inc1 = e.inc1 := rfl
@[simp] theorem Engine.setDetune_incLfo (w : Word) : (e.setDetune w).incLfo = e.incLfo := rfl
@[simp] theorem Engine.setDetune_ksm (w : Word) : (e.setDetune w).ksm = e.ksm := rfl
@[simp] theorem Engine.setDetune_ph1 (w : Word) : (e.setDetune w).ph1 = e.ph1 := rfl
@[simp] theorem Engine.setDetune_ph2 (w : Word) : (e.setDetune w).ph2 = e.ph2 := rfl
@[simp] theorem Engine.setDetune_modph (w : Word) : (e.setDetune w).modph = e.modph := rfl
@[simp] theorem Engine.setDetune_y (w : Word) : (e.setDetune w).y = e.y := rfl
@[simp] theorem Engine.setDetune_postGain (w : Word) : (e.setDetune w).postGain = e.postGain := rfl
@[simp] theorem Engine.setDetune_cur (w : Word) : (e.setDetune w).cur = e.cur := rfl
@[simp] theorem Engine.setDetune_tgt (w : Word) : (e.setDetune w).tgt = { e.tgt with detune := w } := rfl

/-! ### STATUS at a completion -/

@[simp] theorem Status.completed_busy (c : ErrCode) : (st.completed c).busy = false := by
  cases c <;> simp [Status.completed, Status.setSticky]
@[simp] theorem Status.completed_done (c : ErrCode) : (st.completed c).done = true := by
  cases c <;> simp [Status.completed, Status.setSticky]
@[simp] theorem Status.completed_errcode (c : ErrCode) : (st.completed c).errcode = c := by
  cases c <;> simp [Status.completed, Status.setSticky]
@[simp] theorem Status.completed_ebusy (c : ErrCode) : (st.completed c).ebusy = st.ebusy := by
  cases c <;> simp [Status.completed, Status.setSticky]
@[simp] theorem Status.completed_eill (c : ErrCode) : (st.completed c).eill = (st.eill || decide (c = .illegal)) := by
  cases c <;> simp [Status.completed, Status.setSticky]
@[simp] theorem Status.completed_estate (c : ErrCode) : (st.completed c).estate = (st.estate || decide (c = .state)) := by
  cases c <;> simp [Status.completed, Status.setSticky]
@[simp] theorem Status.completed_earg (c : ErrCode) : (st.completed c).earg = (st.earg || decide (c = .arg)) := by
  cases c <;> simp [Status.completed, Status.setSticky]

/-! ### The abandoned command and the reset input -/

@[simp] theorem State.abandon_build : s.abandon.build = s.build := by
  unfold State.abandon; split <;> rfl
@[simp] theorem State.abandon_rstN : s.abandon.rstN = s.rstN := by
  unfold State.abandon; split <;> rfl
@[simp] theorem State.abandon_ie : s.abandon.ie = s.ie := by
  unfold State.abandon; split <;> rfl
@[simp] theorem State.abandon_status : s.abandon.status = s.status := by
  unfold State.abandon; split <;> rfl
@[simp] theorem State.abandon_arg0 : s.abandon.arg0 = s.arg0 := by
  unfold State.abandon; split <;> rfl
@[simp] theorem State.abandon_arg1 : s.abandon.arg1 = s.arg1 := by
  unfold State.abandon; split <;> rfl
@[simp] theorem State.abandon_arg2 : s.abandon.arg2 = s.arg2 := by
  unfold State.abandon; split <;> rfl
@[simp] theorem State.abandon_arg3 : s.abandon.arg3 = s.arg3 := by
  unfold State.abandon; split <;> rfl
@[simp] theorem State.abandon_result : s.abandon.result = s.result := by
  unfold State.abandon; split <;> rfl
@[simp] theorem State.abandon_pend : s.abandon.pend = s.pend := by
  unfold State.abandon; split <;> rfl
@[simp] theorem State.abandon_eng : s.abandon.eng = s.eng := by
  unfold State.abandon; split <;> rfl
@[simp] theorem State.abandon_hrdata : s.abandon.hrdata = s.hrdata := by
  unfold State.abandon; split <;> rfl
@[simp] theorem State.abandon_inputs : s.abandon.inputs = s.inputs := by
  unfold State.abandon; split <;> rfl

theorem State.abandon_idle (h : s.status.busy = false) : s.abandon = s := by simp [State.abandon, h]

@[simp] theorem State.hardReset_build : s.hardReset.build = s.build := by simp [State.hardReset]
@[simp] theorem State.hardReset_rstN : s.hardReset.rstN = s.rstN := by simp [State.hardReset]
@[simp] theorem State.hardReset_ie : s.hardReset.ie = false := by simp [State.hardReset]
@[simp] theorem State.hardReset_status : s.hardReset.status = Status.zero := by simp [State.hardReset]
@[simp] theorem State.hardReset_arg0 : s.hardReset.arg0 = 0 := by simp [State.hardReset]
@[simp] theorem State.hardReset_arg1 : s.hardReset.arg1 = 0 := by simp [State.hardReset]
@[simp] theorem State.hardReset_arg2 : s.hardReset.arg2 = 0 := by simp [State.hardReset]
@[simp] theorem State.hardReset_arg3 : s.hardReset.arg3 = 0 := by simp [State.hardReset]
@[simp] theorem State.hardReset_result : s.hardReset.result = 0 := by simp [State.hardReset]
@[simp] theorem State.hardReset_pend : s.hardReset.pend = 0 := by simp [State.hardReset]
@[simp] theorem State.hardReset_eng : s.hardReset.eng = Engine.zero := by simp [State.hardReset]
@[simp] theorem State.hardReset_mem : s.hardReset.mem = s.abandon.mem := by simp [State.hardReset]
@[simp] theorem State.hardReset_draws : s.hardReset.draws = s.abandon.draws := by simp [State.hardReset]
@[simp] theorem State.hardReset_hrdata : s.hardReset.hrdata = s.hrdata := by simp [State.hardReset]
@[simp] theorem State.hardReset_inputs : s.hardReset.inputs = s.inputs := by simp [State.hardReset]

end Sys2Proof.Machine
end

