-- ==== Sys2Proof/Laws/Exec.lean ====
section
/-! SUPPORT. What each command can do, said once: every way its meaning can end. -/

namespace Sys2Proof.Machine

variable (s : State)

/-- NOP ends one way. -/
theorem execNop_eq : execNop s = .next (s.complete 0) := rfl

/-- CREATE ends with STATE, with ARG, or with the created engine. -/
theorem execCreate_cases :
    (s.eng.life = .ready ∧ execCreate s = .next (s.cmdError .state))
    ∨ (s.eng.life = .uninit ∧ fsValid (f32dec s.arg0) = none ∧ execCreate s = .next (s.cmdError .arg))
    ∨ ∃ q, s.eng.life = .uninit ∧ fsValid (f32dec s.arg0) = some q
        ∧ execCreate s = .next (State.complete { s with eng := s.eng.created s.build.t99Ms q } 1) := by
  unfold execCreate
  cases h : s.eng.life <;> cases h' : fsValid (f32dec s.arg0) <;> simp

/-- DESTROY ends with STATE or with the zero engine. -/
theorem execDestroy_cases :
    (s.eng.life = .uninit ∧ execDestroy s = .next (s.cmdError .state))
    ∨ (s.eng.life = .ready ∧ execDestroy s = .next (State.complete { s with eng := Engine.zero } 0)) := by
  unfold execDestroy
  cases h : s.eng.life <;> simp

/-- RESET ends with STATE, with ARG, or with the re-derived engine. -/
theorem execReset_cases :
    (s.eng.life = .uninit ∧ execReset s = .next (s.cmdError .state))
    ∨ (s.eng.life = .ready ∧ fsValid (f32dec s.arg0) = none ∧ execReset s = .next (s.cmdError .arg))
    ∨ ∃ q, s.eng.life = .ready ∧ fsValid (f32dec s.arg0) = some q
        ∧ execReset s = .next (State.complete { s with eng := (s.eng.derive s.build.t99Ms q).quiesce } 0) := by
  unfold execReset
  cases h : s.eng.life <;> cases h' : fsValid (f32dec s.arg0) <;> simp

/-- A setter ends with STATE, with ARG, or with its destination written. -/
theorem setter_cases (operand : F32 → Option Int) (store : Engine → Word → Engine) :
    (s.eng.life = .uninit ∧ setter operand store s = .next (s.cmdError .state))
    ∨ (s.eng.life = .ready ∧ operand (f32dec s.arg0) = none ∧ setter operand store s = .next (s.cmdError .arg))
    ∨ ∃ v, s.eng.life = .ready ∧ operand (f32dec s.arg0) = some v
        ∧ setter operand store s = .next (State.complete { s with eng := store s.eng (wrap32 v) } 0) := by
  unfold setter
  cases h : s.eng.life <;> cases h' : operand (f32dec s.arg0) <;> simp

/-- RENDER's operand checks, as the spec writes them (43_render.md R140). -/
theorem renderArgsOk_iff :
    s.renderArgsOk = true ↔ s.arg1.toNat ≠ 0 ∧ s.arg2.toNat ≠ 0
      ∧ s.arg0.toNat + s.arg1.toNat * s.arg2.toNat ≤ s.build.sramWords := by
  simp [State.renderArgsOk, and_assoc]

/-- MIXG's operand checks, as the spec writes them (44_kernels.md R160). -/
theorem mixgArgsOk_iff :
    s.mixgArgsOk = true ↔ s.arg0.toNat + s.arg2.toNat ≤ s.build.sramWords
      ∧ s.arg1.toNat + s.arg2.toNat ≤ s.build.sramWords := by
  simp [State.mixgArgsOk]

/-- SINEG's operand checks, as the spec writes them (44_kernels.md R161). -/
theorem sinegArgsOk_iff :
    s.sinegArgsOk = true ↔ s.arg1.toNat < s.build.sramWords
      ∧ s.arg0.toNat + s.arg3.toNat ≤ s.build.sramWords := by
  simp [State.sinegArgsOk]

/-- RENDER ends with STATE, with ARG, or with its loop run whole. -/
theorem execRender_cases :
    (s.eng.life = .uninit ∧ execRender s = .next (s.cmdError .state))
    ∨ (s.eng.life = .ready ∧ s.renderArgsOk = false ∧ execRender s = .next (s.cmdError .arg))
    ∨ (s.eng.life = .ready ∧ s.renderArgsOk = true ∧ execRender s = .next (State.complete
        { s with eng := s.eng.atFrame s.arg1.toNat,
                 mem := (renderLoop s.arg0.toNat s.arg2.toNat s.arg1.toNat 0 s.eng s.mem).2 } s.arg1)) := by
  unfold execRender
  cases h : s.eng.life <;> cases h' : s.renderArgsOk <;> simp [renderLoop_eng]

/-- MIXG ends with ARG or with its loop run whole. -/
theorem execMixg_cases :
    (s.mixgArgsOk = false ∧ execMixg s = .next (s.cmdError .arg))
    ∨ (s.mixgArgsOk = true ∧ execMixg s = .next (State.complete
        { s with mem := mixLoop s.arg0.toNat s.arg1.toNat (sext32 s.arg3) s.arg2.toNat 0 s.mem } s.arg2)) := by
  unfold execMixg
  cases h : s.mixgArgsOk <;> simp

/-- What SINEG leaves in the SRAM. -/
def State.sinegMem (s : State) : Memory :=
  (sineLoop s.arg2 s.arg3.toNat s.arg0.toNat (s.mem.readWord s.arg1.toNat) s.mem).2.writeWord s.arg1.toNat
    (s.mem.readWord s.arg1.toNat + s.arg3 * s.arg2)

/-- SINEG ends with ARG or with its loop run whole and the phase written last. -/
theorem execSineg_cases :
    (s.sinegArgsOk = false ∧ execSineg s = .next (s.cmdError .arg))
    ∨ (s.sinegArgsOk = true
        ∧ execSineg s = .next (State.complete { s with mem := s.sinegMem } s.arg3)) := by
  unfold execSineg
  cases h : s.sinegArgsOk
  · simp
  · simp [sineLoop_phase, State.sinegMem]

/-- Every command ends with an error that writes the completion record, or completes with an engine state, a memory
and a result of its own and nothing else changed. -/
theorem exec_cases (i : Instr) :
    (∃ c, (c = .state ∨ c = .arg) ∧ exec i s = .next (s.cmdError c))
    ∨ ∃ e m r, exec i s = .next (State.complete { s with eng := e, mem := m } r) := by
  have hs : ∀ operand store, (∃ c, (c = .state ∨ c = .arg) ∧ setter operand store s = .next (s.cmdError c))
      ∨ ∃ e m r, setter operand store s = .next (State.complete { s with eng := e, mem := m } r) := by
    intro operand store
    rcases setter_cases s operand store with ⟨-, h⟩ | ⟨-, -, h⟩ | ⟨v, -, -, h⟩
    · exact .inl ⟨_, .inl rfl, h⟩
    · exact .inl ⟨_, .inr rfl, h⟩
    · exact .inr ⟨_, s.mem, _, h⟩
  cases i with
  | nop => exact .inr ⟨s.eng, s.mem, 0, rfl⟩
  | create =>
    rcases execCreate_cases s with ⟨-, h⟩ | ⟨-, -, h⟩ | ⟨q, -, -, h⟩
    · exact .inl ⟨_, .inl rfl, h⟩
    · exact .inl ⟨_, .inr rfl, h⟩
    · exact .inr ⟨_, s.mem, _, h⟩
  | destroy =>
    rcases execDestroy_cases s with ⟨-, h⟩ | ⟨-, h⟩
    · exact .inl ⟨_, .inl rfl, h⟩
    · exact .inr ⟨_, s.mem, _, h⟩
  | reset =>
    rcases execReset_cases s with ⟨-, h⟩ | ⟨-, -, h⟩ | ⟨q, -, -, h⟩
    · exact .inl ⟨_, .inl rfl, h⟩
    · exact .inl ⟨_, .inr rfl, h⟩
    · exact .inr ⟨_, s.mem, _, h⟩
  | render =>
    rcases execRender_cases s with ⟨-, h⟩ | ⟨-, -, h⟩ | ⟨-, -, h⟩
    · exact .inl ⟨_, .inl rfl, h⟩
    · exact .inl ⟨_, .inr rfl, h⟩
    · exact .inr ⟨_, _, _, h⟩
  | setGain => exact hs _ _
  | setCutBase => exact hs _ _
  | setCutSpan => exact hs _ _
  | setDrive => exact hs _ _
  | setOutGain => exact hs _ _
  | setDetune => exact hs _ _
  | mixg =>
    rcases execMixg_cases s with ⟨-, h⟩ | ⟨-, h⟩
    · exact .inl ⟨_, .inr rfl, h⟩
    · exact .inr ⟨s.eng, _, _, h⟩
  | sineg =>
    rcases execSineg_cases s with ⟨-, h⟩ | ⟨-, h⟩
    · exact .inl ⟨_, .inr rfl, h⟩
    · exact .inr ⟨s.eng, _, _, h⟩

/-- At the sequencer's turn the pending word ends as ILLEGAL or as its command. -/
theorem completePending_cases :
    (∃ r, decode s.pend = .error r ∧ completePending s = .next (s.cmdError .illegal))
    ∨ ∃ i, decode s.pend = .ok i ∧ completePending s = exec i s := by
  unfold completePending
  cases h : decode s.pend <;> simp

/-- Every step is the sequencer's turn or one event of the host, after the turn is taken. -/
theorem step_cases :
    (s.SequencerNext ∧ step s = sequencerTurn s.takeTurn)
    ∨ ∃ ev rest, ev ≠ .pass ∧ s.inputs = ev :: rest ∧ step s = .next (s.takeTurn.hostEvent ev) := by
  unfold step
  cases h : s.inputs with
  | nil => exact .inl ⟨.inl h, rfl⟩
  | cons ev rest =>
    cases ev with
    | pass => exact .inl ⟨.inr ⟨rest, h⟩, rfl⟩
    | read a => exact .inr ⟨_, _, by simp, rfl, rfl⟩
    | write a w => exact .inr ⟨_, _, by simp, rfl, rfl⟩
    | rstLow => exact .inr ⟨_, _, by simp, rfl, rfl⟩
    | rstHigh => exact .inr ⟨_, _, by simp, rfl, rfl⟩

variable {s}

/-- A setter whose operand is taken writes its destination and completes with RESULT 0 (42_setters.md R130). -/
theorem setter_next {operand : F32 → Option Int} {store : Engine → Word → Engine} {v : Int}
    (h : s.eng.life = .ready) (ho : operand (f32dec s.arg0) = some v) :
    setter operand store s = .next (State.complete { s with eng := store s.eng (wrap32 v) } 0) := by
  unfold setter
  rw [h]
  simp only [ho]

/-- Every command ends, and its end is a completion (60_exceptions.md R174, R175). -/
theorem exec_next (i : Instr) (s : State) :
    ∃ t, exec i s = .next t ∧ t.status.busy = false ∧ t.status.done = true ∧ t.pend = 0 ∧ t.rstN = s.rstN
      ∧ t.build = s.build ∧ t.draws = s.draws ∧ t.hrdata = s.hrdata ∧ t.inputs = s.inputs := by
  rcases exec_cases s i with ⟨c, -, h⟩ | ⟨e, m, r, h⟩ <;> exact ⟨_, h, by simp⟩

/-- Every pending word ends, and its end is a completion. -/
theorem completePending_next (s : State) :
    ∃ t, completePending s = .next t ∧ t.status.busy = false ∧ t.status.done = true ∧ t.pend = 0 ∧ t.rstN = s.rstN
      ∧ t.build = s.build ∧ t.draws = s.draws ∧ t.hrdata = s.hrdata ∧ t.inputs = s.inputs := by
  rcases completePending_cases s with ⟨r, -, h⟩ | ⟨i, -, h⟩
  · exact ⟨_, h, by simp⟩
  · rw [h]; exact exec_next i s

/-- The sequencer's turn. -/
theorem step_of_sequencerNext (h : s.SequencerNext) : step s = sequencerTurn s.takeTurn := by
  rcases h with h | ⟨r, h⟩ <;> simp [step, h]

/-- The sequencer's turn while a command runs is its COMPLETE (30_encoding.md R80). -/
theorem step_of_busy (h : s.SequencerNext) (hr : s.rstN = true) (hb : s.status.busy = true) :
    step s = completePending s.takeTurn := by
  rw [step_of_sequencerNext h, sequencerTurn]; simp [hr, hb]

/-- A turn of the host. -/
theorem step_of_event {ev : HostEvent} {rest : List HostEvent} (h : s.inputs = ev :: rest) (hp : ev ≠ .pass) :
    step s = .next (s.takeTurn.hostEvent ev) := by
  unfold step; rw [h]; cases ev <;> simp_all

/-- A host read, `rst_n` being 1. -/
theorem step_of_read {a : HostAddr} {rest : List HostEvent} (h : s.inputs = .read a :: rest) (hr : s.rstN = true) :
    step s = .next (s.takeTurn.hostRead a) := by
  rw [step_of_event h (by simp)]; simp [State.hostEvent, hr]

/-- A host write, `rst_n` being 1. -/
theorem step_of_write {a : HostAddr} {w : Word} {rest : List HostEvent} (h : s.inputs = .write a w :: rest)
    (hr : s.rstN = true) : step s = .next (s.takeTurn.hostWrite a w) := by
  rw [step_of_event h (by simp)]; simp [State.hostEvent, hr]

/-- A run goes on from the next state of its first step. -/
theorem run_succ {t : State} (h : step s = .next t) (n : Nat) :
    Host.Core.run Sys2Proof.core (n + 1) s = Host.Core.run Sys2Proof.core n t := by
  have h' : Sys2Proof.core.step s = .next t := h
  simp only [Host.Core.run, h']

end Sys2Proof.Machine
end

