-- ==== Sys2Proof/Laws/Operands.lean ====
section
/-! SUPPORT. The laws of the operand forms: the fields of a binary32 word, and the ranges of what the operand checks
answer. -/

namespace Sys2Proof.Machine

/-! ### The binary32 operand -/

/-- The three fields of a binary32 word, as F32DEC takes them (40_primitives.md R92). -/
theorem f32dec_fields (s : BitVec 1) (x : BitVec 8) (f : BitVec 23) :
    (s ++ x ++ f).getLsbD 31 = s.getLsbD 0 ∧ (s ++ x ++ f).extractLsb' 23 8 = x ∧ (s ++ x ++ f).extractLsb' 0 23 = f := by
  refine ⟨?_, ?_, ?_⟩
  · simp only [BitVec.getLsbD_append]; simp
  · apply BitVec.eq_of_getLsbD_eq
    intro i hi
    simp only [BitVec.getLsbD_extractLsb', BitVec.getLsbD_append]
    simp [hi]
  · apply BitVec.eq_of_getLsbD_eq
    intro i hi
    simp only [BitVec.getLsbD_extractLsb', BitVec.getLsbD_append]
    simp [hi]

/-- A value that is not negative is rounded to one that is not (40_primitives.md R93). -/
theorem toFix_nonneg {m e : Int} {f : Nat} (h : 0 ≤ m) : 0 ≤ toFix m e f := by
  unfold toFix
  split
  · positivity
  · have h2 := (rneShift_spec m (-(e + f)).toNat).2.1
    have hk : (0 : Int) < 2 ^ (-(e + f)).toNat := by positivity
    by_contra hc
    have h3 : rneShift m (-(e + f)).toNat * 2 ^ (-(e + f)).toNat ≤ -1 * 2 ^ (-(e + f)).toNat :=
      mul_le_mul_of_nonneg_right (by omega) hk.le
    have h1 := (rneShift_spec m (-(e + f)).toNat).1
    omega

/-! ### The operands are in range -/

/-- A rate that FSVALID answers is legal (41_lifecycle.md R122). -/
theorem fsValid_range {d : F32} {q : Int} (h : fsValid d = some q) : FS_MIN_Q ≤ q ∧ q ≤ FS_MAX_Q := by
  cases d with
  | nan => cases h
  | posInf => cases h
  | negInf => cases h
  | fin m x =>
    simp only [fsValid, FS_MIN_Q, FS_MAX_Q] at *
    split_ifs at h with h1 h2
    injection h with h
    omega

/-- SET_DRIVE's value is in its range (42_setters.md R134). -/
theorem driveOperand_range {d : F32} {v : Int} (h : driveOperand d = some v) : DRIVE_MIN_Q ≤ v ∧ v ≤ DRIVE_MAX_Q := by
  cases d with
  | nan => cases h
  | posInf => cases h; decide
  | negInf => cases h; decide
  | fin m x =>
    injection h with h
    subst h
    exact sat_bounds (by norm_num)

/-- SET_DETUNE's value is in its range (42_setters.md R136). -/
theorem detuneOperand_range {d : F32} {v : Int} (h : detuneOperand d = some v) :
    -DETUNE_MAX_Q ≤ v ∧ v ≤ DETUNE_MAX_Q := by
  cases d with
  | nan => cases h
  | posInf => cases h
  | negInf => cases h
  | fin m x =>
    injection h with h
    subst h
    exact sat_bounds (by norm_num)

end Sys2Proof.Machine
end

