-- ==== Sys2Proof/Laws/Invariant.lean ====
section
/-! SUPPORT. The engine's range invariants, operation by operation, and what every host event leaves of the engine, the
memory's form and the control state. -/

namespace Sys2Proof.Machine

variable {t : Nat} {e : Engine} {s : State}

/-! ### The engine's invariant -/

theorem Engine.inv_zero : Engine.zero.Inv t := ⟨fun _ => rfl, fun h => by cases h⟩

/-- While READY the invariant is the range invariants. -/
theorem Engine.inv_iff_of_ready (h : e.life = .ready) : e.Inv t ↔ e.ReadyInRange t := by
  simp [Engine.Inv, h]

theorem Scene.default_inRange : Scene.default.InRange := by decide

/-- DERIVE of a legal rate, with the filter state zeroed and legal scenes, is in range (40_primitives.md R95). -/
theorem Engine.derive_inRange {q : Int} (h1 : FS_MIN_Q ≤ q) (h2 : q ≤ FS_MAX_Q) (hc : e.cur.InRange)
    (ht : e.tgt.InRange) : (e.derive t q).quiesce.ReadyInRange t := by
  have b1 := rndiv_rate_bounds (b := BASE_Q) h1 (by norm_num) le_rfl
  have b2 := rndiv_rate_bounds (b := LFO_Q) h1 (by norm_num) (by norm_num)
  have b3 := ksmOf_bounds t q
  have hq : zext32 (wrap32 q) = q := zext32_wrap32_of_mem (by simp only [FS_MIN_Q] at h1; omega)
    (by simp only [FS_MAX_Q] at h2; omega)
  have hk : zext32 (wrap32 (ksmOf t q)) = ksmOf t q := zext32_wrap32_of_mem (by omega)
    (by simp only [ONE] at b3; omega)
  refine ⟨?_, ?_, ?_, ?_, ?_, by simp [sext32], hc, ht⟩
  · show FS_MIN_Q ≤ zext32 (wrap32 q) ∧ zext32 (wrap32 q) ≤ FS_MAX_Q
    rw [hq]; exact ⟨h1, h2⟩
  · show zext32 (wrap32 _) = rndiv _ (zext32 (wrap32 q))
    rw [hq, zext32_wrap32_of_mem b1.1 b1.2]
  · show zext32 (wrap32 _) = rndiv _ (zext32 (wrap32 q))
    rw [hq, zext32_wrap32_of_mem b2.1 b2.2]
  · show zext32 (wrap32 _) = ksmOf t (zext32 (wrap32 q))
    rw [hq, hk]
  · show 1 ≤ zext32 (wrap32 (ksmOf t q)) ∧ zext32 (wrap32 (ksmOf t q)) ≤ ONE
    rw [hk]; exact b3

/-- A smoothed parameter stays between its two values (10_state.md R32, 40_primitives.md R103). -/
theorem Scene.smoothed_inRange {cur tgt : Scene} {k : Int} (h1 : 1 ≤ k) (h2 : k ≤ ONE) (hc : cur.InRange)
    (ht : tgt.InRange) : (cur.smoothed tgt k).InRange := by
  have d := smooth_between (cur := zext32 cur.drive) (tgt := zext32 tgt.drive) h1 h2
  have u := smooth_between (cur := sext32 cur.detune) (tgt := sext32 tgt.detune) h1 h2
  simp only [Scene.InRange, Scene.smoothed, DRIVE_MIN_Q, DRIVE_MAX_Q, DETUNE_MAX_Q] at *
  rw [zext32_wrap32_of_mem (by omega) (by omega), sext32_wrap32_of_mem (by omega) (by omega)]
  omega

/-- The filter coefficient of a READY engine is in [0, ONE) (40_primitives.md R100, R107). -/
theorem Engine.filterCoef_bounds (h : FS_MIN_Q ≤ zext32 e.fsQ) : 0 ≤ e.filterCoef ∧ e.filterCoef < ONE := by
  have hc := cutoff_bounds (zext32 e.cur.cutBase) (zext32 e.cur.cutSpan) (sinQ e.modph) h
  exact lpfCoef_bounds (le_trans (by norm_num) hc.1) (lt_of_lt_of_le (by norm_num) h)

/-- One sample step keeps the ranges (10_state.md R34). -/
theorem sampleStep_inRange (h : e.ReadyInRange t) : (sampleStep e).1.ReadyInRange t := by
  obtain ⟨h1, h2, h3, h4, h5, h6, h7, h8⟩ := h
  refine ⟨h1, h2, h3, h4, h5, ?_, Scene.smoothed_inRange h5.1 h5.2 h7 h8, h8⟩
  have hk := Engine.filterCoef_bounds (e := e.smoothStep) h1.1
  have ho := osc_bounds e.smoothStep
  have hl := lpf_between (y := sext32 e.y) (x := e.smoothStep.osc) hk.1 hk.2
  show -ONE ≤ sext32 (wrap32 (lpf (sext32 e.y) e.smoothStep.osc e.smoothStep.filterCoef))
    ∧ sext32 (wrap32 (lpf (sext32 e.y) e.smoothStep.osc e.smoothStep.filterCoef)) ≤ ONE
  simp only [ONE] at *
  rw [sext32_wrap32_of_mem (by omega) (by omega)]
  omega

theorem sampleStep_life : (sampleStep e).1.life = e.life := rfl

theorem sampleStep_tgt : (sampleStep e).1.tgt = e.tgt := rfl

/-- A sample step moves voice 1 by one increment (43_render.md R149). -/
@[simp] theorem sampleStep_ph1 : (sampleStep e).1.ph1 = e.ph1 + e.inc1 := wrap32_add _ _

/-- A sample step moves the LFO by one increment (43_render.md R149). -/
@[simp] theorem sampleStep_modph : (sampleStep e).1.modph = e.modph + e.incLfo := wrap32_add _ _

/-- A sample step moves voice 2 by the increment of the smoothed detune and the drift (43_render.md R149). -/
@[simp] theorem sampleStep_ph2 :
    (sampleStep e).1.ph2 = e.ph2 + inc2Of e.inc1 (sext32 (sampleStep e).1.cur.detune + drift e.modph) := wrap32_add _ _

/-- The rate and its increments are the same for every frame. -/
theorem Engine.atFrame_rate (n : Nat) :
    (e.atFrame n).fsQ = e.fsQ ∧ (e.atFrame n).inc1 = e.inc1 ∧ (e.atFrame n).incLfo = e.incLfo := by
  induction n with
  | zero => exact ⟨rfl, rfl, rfl⟩
  | succ n ih => exact ih

theorem Engine.atFrame_life (n : Nat) : (e.atFrame n).life = e.life := by
  induction n with
  | zero => rfl
  | succ n ih => exact ih

theorem Engine.atFrame_tgt (n : Nat) : (e.atFrame n).tgt = e.tgt := by
  induction n with
  | zero => rfl
  | succ n ih => exact ih

theorem Engine.atFrame_inRange (h : e.ReadyInRange t) (n : Nat) : (e.atFrame n).ReadyInRange t := by
  induction n with
  | zero => exact h
  | succ n ih => exact sampleStep_inRange ih

/-! ### What a host event leaves -/

@[simp] theorem State.writeCtrl_inputs (w : Word) : (s.writeCtrl w).inputs = s.inputs := by
  unfold State.writeCtrl; split <;> rfl

@[simp] theorem State.writeCtrl_build (w : Word) : (s.writeCtrl w).build = s.build := by
  unfold State.writeCtrl; split <;> rfl

@[simp] theorem State.store_build (w : Word) (l : Location) : (s.store w l).build = s.build := by
  cases l with
  | sram a => simp only [State.store]; split <;> rfl
  | ctrl => exact State.writeCtrl_build w
  | _ => rfl

@[simp] theorem State.store_inputs (w : Word) (l : Location) : (s.store w l).inputs = s.inputs := by
  cases l with
  | sram a => simp only [State.store]; split <;> rfl
  | ctrl => exact State.writeCtrl_inputs w
  | _ => rfl

/-- A read changes nothing but EBUSY and the read data (20_memory.md R58). -/
theorem State.hostRead_eq (a : HostAddr) :
    s.hostRead a = { s with
      hrdata := (s.hostRead a).hrdata
      status := { s.status with ebusy := s.status.ebusy || (s.status.busy && (locate a).readRejected) } } := by
  unfold State.hostRead
  cases h : (s.status.busy && (locate a).readRejected) <;> simp [State.setEbusy]

@[simp] theorem State.hostEvent_build (ev : HostEvent) : (s.hostEvent ev).build = s.build := by
  cases ev with
  | pass => rfl
  | read a =>
    simp only [State.hostEvent]; split
    · rw [State.hostRead_eq]
    · simp
  | write a w =>
    simp only [State.hostEvent, State.hostWrite]
    split_ifs <;> simp
  | rstLow => simp [State.hostEvent]
  | rstHigh => simp only [State.hostEvent]; split <;> simp

@[simp] theorem State.hostEvent_inputs (ev : HostEvent) : (s.hostEvent ev).inputs = s.inputs := by
  cases ev with
  | pass => rfl
  | read a =>
    simp only [State.hostEvent]; split
    · rw [State.hostRead_eq]
    · simp
  | write a w =>
    simp only [State.hostEvent, State.hostWrite]
    split_ifs <;> simp
  | rstLow => simp [State.hostEvent]
  | rstHigh => simp only [State.hostEvent]; split <;> simp

/-- A host event leaves the engine state alone or resets it. -/
theorem State.hostEvent_eng (ev : HostEvent) : (s.hostEvent ev).eng = s.eng ∨ (s.hostEvent ev).eng = Engine.zero := by
  cases ev with
  | pass => exact .inl rfl
  | read a =>
    simp only [State.hostEvent]; split
    · rw [State.hostRead_eq]; exact .inl rfl
    · exact .inr (by simp)
  | write a w =>
    simp only [State.hostEvent, State.hostWrite]
    split_ifs
    · exact .inl rfl
    · cases locate a with
      | sram n => simp only [State.store]; split <;> exact .inl rfl
      | ctrl =>
        simp only [State.store, State.writeCtrl]
        split
        · exact .inr rfl
        · exact .inl rfl
      | _ => exact .inl rfl
    · exact .inr (by simp)
  | rstLow => exact .inr (by simp [State.hostEvent])
  | rstHigh =>
    simp only [State.hostEvent]; split
    · exact .inl rfl
    · exact .inr (by simp)

/-! ### The SRAM's form -/

/-- Every word a pending command would write is one the build has (70_reset_and_hazards.md R198). -/
theorem State.pendingWrites_lt {a : Nat} (h : a ∈ s.pendingWrites) : a < s.build.sramWords := by
  unfold State.pendingWrites at h
  split at h
  · split at h
    · rename_i hc
      have hc := (renderArgsOk_iff s).1 (by simp at hc; exact hc.2)
      rw [List.mem_range'_1] at h
      omega
    · cases h
  · split at h
    · rename_i hc
      have hc := (mixgArgsOk_iff s).1 hc
      rw [List.mem_range'_1] at h
      omega
    · cases h
  · split at h
    · rename_i hc
      have hc := (sinegArgsOk_iff s).1 hc
      rw [List.mem_append, List.mem_range'_1, List.mem_singleton] at h
      omega
    · cases h
  all_goals cases h

theorem State.abandon_memInv (h : s.MemInv) : s.abandon.MemInv := by
  unfold State.abandon
  split
  · exact ⟨Memory.wf_forgetAll h.1,
      Memory.fits_forgetAll (Memory.fits_mono h.2 (Nat.le_succ _)) (fun a ha => State.pendingWrites_lt ha) le_rfl⟩
  · exact h

theorem State.hardReset_memInv (h : s.MemInv) : s.hardReset.MemInv := abandon_memInv h

theorem State.store_memInv (h : s.MemInv) (w : Word) (l : Location) : (s.store w l).MemInv := by
  cases l with
  | sram a =>
    simp only [State.store]; split
    · exact ⟨Memory.wf_writeWord h.1, Memory.fits_writeWord h.2 ‹_›⟩
    · exact h
  | ctrl => simp only [State.store, State.writeCtrl]; split <;> exact h
  | _ => exact h

theorem State.hostEvent_memInv (h : s.MemInv) (ev : HostEvent) : (s.hostEvent ev).MemInv := by
  cases ev with
  | pass => exact h
  | read a =>
    simp only [State.hostEvent]; split
    · rw [State.hostRead_eq]; exact h
    · exact State.hardReset_memInv h
  | write a w =>
    simp only [State.hostEvent, State.hostWrite]
    split_ifs
    · exact h
    · exact State.store_memInv h w _
    · exact State.hardReset_memInv h
  | rstLow => exact State.hardReset_memInv h
  | rstHigh =>
    simp only [State.hostEvent]; split
    · exact h
    · exact State.hardReset_memInv h

end Sys2Proof.Machine
end

