-- ==== Sys2Proof/Laws/PerInstr.lean ====
section
/-! SUPPORT. Facts about every command as syntax, one lemma per constructor. -/

namespace Sys2Proof.Laws

namespace EncodesWell

/-- The command is well formed, its word is well formed, and the word decodes to it (30_encoding.md R72, R74). -/
def Statement (i : Instr) : Prop :=
  i.wellFormed = true ∧ wordWellFormed (encode i) = true ∧ decode (encode i) = .ok i

theorem nop : Statement .nop := by unfold Statement; decide
theorem create : Statement .create := by unfold Statement; decide
theorem destroy : Statement .destroy := by unfold Statement; decide
theorem reset : Statement .reset := by unfold Statement; decide
theorem render : Statement .render := by unfold Statement; decide
theorem setGain : Statement .setGain := by unfold Statement; decide
theorem setCutBase : Statement .setCutBase := by unfold Statement; decide
theorem setCutSpan : Statement .setCutSpan := by unfold Statement; decide
theorem setDrive : Statement .setDrive := by unfold Statement; decide
theorem setOutGain : Statement .setOutGain := by unfold Statement; decide
theorem setDetune : Statement .setDetune := by unfold Statement; decide
theorem mixg : Statement .mixg := by unfold Statement; decide
theorem sineg : Statement .sineg := by unfold Statement; decide

end EncodesWell

end Sys2Proof.Laws
end

