-- ==== Sys2Proof/Tests/Slice0.lean ====
section
/-! SUPPORT. Tests on fixed values. Every expected value is the spec's: the vectors named in the comments are those of
spec/95_test_vectors.md unless another file is named. The theorems `witness_…` show for every statement of
Certificates/Slice0 that its hypotheses can be met, clause by clause. -/

namespace Sys2Proof.Tests

open Sys2Proof.Machine

/-! ### Helpers -/

/-- What `f` reads from the state after a next state, nothing after a stop. -/
def after {α : Type} (o : Host.Outcome State Fault Refusal) (f : State → α) : Option α :=
  match o with
  | .next t => some (f t)
  | .fault _ => none
  | .refused _ => none

/-- The default scene (41_lifecycle.md R123). -/
def scene0 : Scene :=
  { cutBase := 204800, cutSpan := 153600, drive := 25165824, outGain := 8388608, detune := 1792 }

/-- The engine state after `CREATE f32(48000.0)`, vector L2. -/
def eng48 : Engine :=
  { life := .ready, fsQ := 12288000, inc1 := 4921317, incLfo := 11185, ksm := 32192, ph1 := 0, ph2 := 0, modph := 0,
    y := 0, postGain := 16777216, cur := scene0, tgt := scene0 }

/-- An idle READY block with the operands `a0` to `a3`. -/
def ready (a0 a1 a2 a3 : Word) : State :=
  { State.reset with eng := eng48, arg0 := a0, arg1 := a1, arg2 := a2, arg3 := a3 }

/-- An idle UNINIT block with the operands `a0` to `a3` and the given SRAM words. -/
def uninit (words : List (Nat × Word)) (a0 a1 a2 a3 : Word) : State :=
  { State.reset with
    arg0 := a0, arg1 := a1, arg2 := a2, arg3 := a3
    mem := words.foldl (fun m p => m.writeWord p.1 p.2) State.reset.mem }

/-- `s` with the command word `w` accepted and the host's events `evs` to come. -/
def running (w : Word) (evs : List HostEvent) (s : State) : State := { s.accept w with inputs := evs }

/-- STATUS as the host reads it. -/
def statusOf (s : State) : Word := statusWord s.status s.eng.life

/-- What one step of `s` with the command word `w` pending leaves, read by `f`. -/
def done {α : Type} (w : Nat) (s : State) (f : State → α) : Option α := after (step (s.withFetchWord 32 w)) f

/-! ### Well-formedness -/

theorem test_reserved_bits_refused : rsvIsZero 0x00000104 = false ∧ wordWellFormed 0x00000104 = false := by decide
theorem test_top_bit_refused : rsvIsZero 0x80000001 = false ∧ wordWellFormed 0xFFFFFFFF = false := by decide
theorem test_unassigned_opcode_refused :
    opcIsAssigned 0x00000005 = false ∧ wordWellFormed 0x00000005 = false ∧ wordWellFormed 0x0000000F = false
      ∧ wordWellFormed 0x00000016 = false ∧ wordWellFormed 0x0000001F = false ∧ wordWellFormed 0x00000022 = false
      ∧ wordWellFormed 0x000000FF = false := by decide
theorem test_words_well_formed : wordWellFormed 0x00000000 = true ∧ wordWellFormed 0x00000021 = true := by decide
theorem test_builds_refused :
    Build.wellFormed { sramWords := 0, t99Ms := 50 } = false ∧ Build.wellFormed { sramWords := 4097, t99Ms := 50 } = false
      ∧ Build.wellFormed { sramWords := 4096, t99Ms := 0 } = false
      ∧ Build.wellFormed { sramWords := 4096, t99Ms := 1001 } = false := by decide
theorem test_builds_well_formed :
    Build.reference.wellFormed = true ∧ Build.wellFormed { sramWords := 1, t99Ms := 1000 } = true := by decide
theorem test_memory_forms_refused :
    Memory.wf { cells := [(5, 1), (4, 1)], marks := [(1, .stored)] } = false
      ∧ Memory.wf { cells := [(4, 0)], marks := [(1, .stored)] } = false
      ∧ Memory.wf { cells := [(4, 1)], marks := [] } = false
      ∧ Memory.wf { cells := [], marks := [(1, .drawn 0)] } = false := by decide

/-! ### Decoding: the words of 30_encoding.md R72, written out -/

theorem test_decode_nop : decode 0x00000000 = .ok .nop := by decide
theorem test_decode_create : decode 0x00000001 = .ok .create := by decide
theorem test_decode_destroy : decode 0x00000002 = .ok .destroy := by decide
theorem test_decode_reset : decode 0x00000003 = .ok .reset := by decide
theorem test_decode_render : decode 0x00000004 = .ok .render := by decide
theorem test_decode_set_gain : decode 0x00000010 = .ok .setGain := by decide
theorem test_decode_set_cut_base : decode 0x00000011 = .ok .setCutBase := by decide
theorem test_decode_set_cut_span : decode 0x00000012 = .ok .setCutSpan := by decide
theorem test_decode_set_drive : decode 0x00000013 = .ok .setDrive := by decide
theorem test_decode_set_out_gain : decode 0x00000014 = .ok .setOutGain := by decide
theorem test_decode_set_detune : decode 0x00000015 = .ok .setDetune := by decide
theorem test_decode_mixg : decode 0x00000020 = .ok .mixg := by decide
theorem test_decode_sineg : decode 0x00000021 = .ok .sineg := by decide
theorem test_decode_illegal :
    decode 0x00000104 = .error .reservedBits ∧ decode 0x00000022 = .error .unassignedOpcode := by decide
theorem test_decode_table_word :
    decodeTableWord 32 0x21 = some .sineg ∧ decodeTableWord 8 0x104 = some .render
      ∧ decodeTableWord 64 0x100000001 = none := by decide

/-! ### One step per command -/

-- L1
theorem test_nop : done 0x00 State.reset (fun t => (statusOf t, t.result)) = some (0x00000002, 0) := by decide
-- L2
theorem test_create :
    done 0x01 { State.reset with arg0 := 0x473B8000 } (fun t => (statusOf t, t.result, t.eng))
      = some (0x00000006, 1, eng48) := by decide
-- L4: STATE wins over ARG
theorem test_create_state_first :
    done 0x01 (ready 0x7FC00000 0 0 0) (fun t => (statusOf t, t.result)) = some (0x00000426, 0) := by decide
-- L7 without the sticky flag
theorem test_destroy :
    done 0x02 (ready 0 0 0 0) (fun t => (statusOf t, t.eng)) = some (0x00000002, Engine.zero) := by decide
-- L8 without the earlier flags
theorem test_destroy_twice : done 0x02 State.reset statusOf = some 0x00000422 := by decide
-- L11, E8
theorem test_reset :
    done 0x03 { ready 0x47BB8000 0 0 0 with eng := { eng48 with ph1 := 29527902, ph2 := 29699604, modph := 67110, y := 151948 } }
      (fun t => t.eng) = some { eng48 with fsQ := 24576000, inc1 := 2460658, incLfo := 5592, ksm := 16096 } := by decide
-- L10
theorem test_reset_bad_rate :
    done 0x03 (ready 0xC73B8000 0 0 0) (fun t => (statusOf t, t.eng)) = some (0x00000836, eng48) := by decide
-- 2.10
theorem test_set_gain : done 0x10 (ready 0x43800000 0 0 0) (fun t => t.eng.postGain) = some 0xFFFFFFFF := by decide
theorem test_set_gain_negative :
    done 0x10 (ready 0xBF800000 0 0 0) (fun t => (statusOf t, t.eng)) = some (0x00000836, eng48) := by decide
theorem test_set_cut_base : done 0x11 (ready 0x44FA0000 0 0 0) (fun t => t.eng.tgt.cutBase) = some 512000 := by decide
theorem test_set_cut_base_tiny :
    done 0x11 (ready 0x3A83126F 0 0 0) (fun t => (statusOf t, t.eng.tgt.cutBase)) = some (0x00000006, 0) := by decide
theorem test_set_cut_span :
    done 0x12 (ready 0x80000000 0 0 0) (fun t => (t.eng.tgt.cutSpan, t.eng.cur.cutSpan)) = some (0, 153600) := by decide
theorem test_set_cut_span_infinite : done 0x12 (ready 0xFF800000 0 0 0) statusOf = some 0x00000836 := by decide
theorem test_set_drive : done 0x13 (ready 0x3DCCCCCC 0 0 0) (fun t => t.eng.tgt.drive) = some 1677722 := by decide
theorem test_set_drive_infinite :
    done 0x13 (ready 0x7F800000 0 0 0) (fun t => t.eng.tgt.drive) = some 83886080 := by decide
theorem test_set_out_gain :
    done 0x14 (ready 0x3F800000 0 0 0) (fun t => t.eng.tgt.outGain) = some 16777216 := by decide
theorem test_set_out_gain_saturates :
    done 0x14 (ready 0x43960000 0 0 0) (fun t => t.eng.tgt.outGain) = some 0xFFFFFFFF := by decide
theorem test_set_detune :
    done 0x15 (ready 0xC1480000 0 0 0) (fun t => t.eng.tgt.detune) = some 0xFFFFF380 := by decide
theorem test_set_detune_saturates :
    done 0x15 (ready 0xC53B8000 0 0 0) (fun t => t.eng.tgt.detune) = some 0xFFF6A000 := by decide
-- E5 and the trace of 2.11: three frames on two channels
theorem test_render :
    done 0x04 (ready 0 3 2 0) (fun t => (t.result, (List.range 6).map t.mem.readWord, t.eng.y, t.eng.ph2))
      = some (3, [0, 0, 0x3A49D800, 0x3A49D800, 0x3B129A00, 0x3B129A00], 33360, 14849802) := by decide +kernel
-- E7: the product 2^32 does not wrap
theorem test_render_range :
    done 0x04 (ready 0 65536 65536 0) (fun t => (statusOf t, t.result, t.eng)) = some (0x00000836, 0, eng48) := by decide
-- M1, M7
theorem test_mixg :
    done 0x20 (uninit [(0, 5), (1, 0x01000000)] 0 1 1 0x80000000) (fun t => (t.result, t.mem.readWord 0))
      = some (1, 0x80000005) := by decide
-- M11
theorem test_mixg_overlap :
    done 0x20 (uninit [(0, 0x01000000), (1, 0), (2, 0), (3, 0)] 1 0 3 0x01000000)
      (fun t => (List.range 4).map t.mem.readWord) = some [0x01000000, 0x01000000, 0x01000000, 0x01000000] := by
  decide +kernel
-- G6
theorem test_sineg :
    done 0x21 (uninit [(100, 0xF0000000)] 0 100 0x20000000 3)
      (fun t => (t.result, (List.range 3).map t.mem.readWord, t.mem.readWord 100))
      = some (3, [0xFF9E0488, 0x0061FB78, 0x00EC9A0D], 0x50000000) := by decide +kernel
-- G8: the phase write is last
theorem test_sineg_phase_last :
    done 0x21 (uninit [(1, 0)] 0 1 0x40000000 2) (fun t => (t.mem.readWord 0, t.mem.readWord 1))
      = some (0, 0x80000000) := by decide +kernel
-- 2.14
theorem test_illegal_word :
    done 0x104 (ready 0 0 0 0) (fun t => (statusOf t, t.result)) = some (0x00000216, 0)
      ∧ done 0x05 State.reset statusOf = some 0x00000212 := by decide

/-! ### The host interface -/

-- H1
theorem test_read_id : after (step { State.reset with inputs := [.read 0x000] }) (·.hrdata) = some (some 0x414D4231) := by
  decide
theorem test_read_sramsz : after (step { State.reset with inputs := [.read 0x004] }) (·.hrdata) = some (some 4096) := by
  decide
theorem test_read_reserved : after (step { State.reset with inputs := [.read 0x3FFC] }) (·.hrdata) = some (some 0) := by
  decide
-- H2
theorem test_sram_window :
    after (step { State.reset with inputs := [.write 0x4001 0xCAFEBABE] }) (fun t => (t.mem.readWord 0, t.mem.readByte 0))
      = some (0xCAFEBABE, 0xBE) := by decide
-- H5
theorem test_arg_write_while_busy :
    after (step (running 4 [.write 0x014 99] (ready 0 1 1 0))) (fun t => (t.arg0, statusOf t)) = some (0, 0x00000105) := by
  decide
-- 10_state.md R28 and the example of 42_setters.md R136: the target is -12.5 cents, the current value still 7 cents
theorem test_readback :
    done 0x15 (ready 0xC1480000 0 0 0) (fun t => after (step { t with inputs := [.read 0x0A4] }) (·.hrdata))
        = some (some (some 0xFFFFF380))
      ∧ done 0x15 (ready 0xC1480000 0 0 0) (fun t => after (step { t with inputs := [.read 0x0A0] }) (·.hrdata))
        = some (some (some 1792)) := by decide
-- H6
theorem test_readback_while_busy :
    after (step (running 4 [.read 0x050] (ready 0 1 1 0))) (fun t => (t.hrdata, statusOf t)) = some (some 0, 0x00000105) := by
  decide
-- H8
theorem test_status_write_while_busy :
    after (step { running 4 [.write 0x00C 0x100] (ready 0 1 1 0) with
        status := { busy := true, done := false, errcode := .ok, ebusy := true, eill := false, estate := false,
                    earg := false } }) statusOf = some 0x00000005 := by decide
-- H12, H13
theorem test_irq :
    after (step { State.reset with ie := true, inputs := [.write 0x010 0] }) State.irq = some false
      ∧ after (step (running 0 [] { State.reset with ie := true })) State.irq = some true := by decide
-- H17
theorem test_soft_reset :
    after (step { ready 0 2 1 0 with ie := true, inputs := [.write 0x008 3] })
      (fun t => (statusOf t, ctrlWord t.ie, t.eng)) = some (0, 0, Engine.zero) := by decide
-- 70_reset_and_hazards.md R198: the word an abandoned RENDER would have written is drawn anew, the next one is kept
theorem test_reset_while_busy :
    after (step { running 4 [.rstLow] (ready 0 1 1 0) with mem := (uninit [(0, 7), (1, 9)] 0 0 0 0).mem })
      (fun t => (t.mem.mark 0, t.mem.mark 1, t.mem.readWord 1)) = some (.drawn 1, .stored, 9) := by decide

/-! ### The datapath -/

-- 2.1
theorem test_tofix :
    f32dec 0x3DCCCCCD = .fin 13421773 (-27) ∧ toFix 13421773 (-27) 24 = 1677722
      ∧ fsValid (f32dec 0x45F9FFFC) = some 2048000 ∧ fsValid (f32dec 0x45F9FFFB) = none
      ∧ f32dec 0x00000001 = .fin 1 (-149) ∧ toFix 1 (-149) 8 = 0 := by decide
theorem test_fixtof32 :
    fixToF32 12918 = 0x3A49D800 ∧ fixToF32 (-1) = 0xB3800000 ∧ fixToF32 16777216 = 0x3F800000
      ∧ fixToF32 (-16777215) = 0xBF7FFFFF := by decide
-- 2.3
theorem test_sin :
    sinQ 0x10000000 = 6421368 ∧ sinQ 0x15555555 = 8390746 ∧ sinQ 0xA0000000 = -11868395 ∧ sinQ 0xFFFFFFFF = 0 := by
  decide
-- 2.4
theorem test_exp2r :
    exp2r (-1) = (2147478811, -1) ∧ exp2r 615168 = (1075611453, 2) ∧ exp2r (-615168) = (2143773757, -3)
      ∧ inc2Of 4921317 (-2432) = 4894443 ∧ drift 0x20000000 = 543 := by decide
-- 2.5
theorem test_filter :
    cutoff 204800 153600 11868395 12288000 = 313458 ∧ cutoff 204800 4294967295 (-16777216) 12288000 = 5120
      ∧ lpfCoef 6143999 12288000 = 12726307 ∧ lpf 5 4 1 = 4 ∧ lpf 0 121137 1590378 = 11483 := by decide
-- 2.6, 2.7, 2.8
theorem test_clip_smooth_gain :
    softClip (-12000000) = -14930456 ∧ softClip 4194304 = 6160384 ∧ smooth 0 (-100) 32192 = -1
      ∧ smooth 204800 512000 32192 = 205390 ∧ gainMul (-1) 8388608 = -1 ∧ sat32 2147483648 = 2147483647 := by decide

/-! ### Witnesses: the hypotheses of every statement, met together, clause by clause -/

theorem witness_IllegalWord :
    (running 0x00000104 [] State.reset).rstN = true ∧ (running 0x00000104 [] State.reset).status.busy = true
      ∧ (running 0x00000104 [] State.reset).inputs = []
      ∧ wordWellFormed (running 0x00000104 [] State.reset).pend = false
      ∧ wordWellFormed (running 0x000000FF [] State.reset).pend = false := by decide
theorem witness_IllegalWord_legal :
    (running 0x21 [.pass] State.reset).rstN = true ∧ (running 0x21 [.pass] State.reset).status.busy = true
      ∧ (running 0x21 [.pass] State.reset).inputs = [.pass]
      ∧ wordWellFormed (running 0x21 [.pass] State.reset).pend = true := by decide
theorem witness_SequencerNext :
    (running 0x21 [] State.reset).SequencerNext ∧ (running 0x21 [.pass] State.reset).SequencerNext :=
  ⟨.inl rfl, .inr ⟨[], rfl⟩⟩
theorem witness_StepRunsDecodedCommand :
    (running 0x04 [] State.reset).rstN = true ∧ (running 0x04 [] State.reset).status.busy = true
      ∧ (running 0x04 [] State.reset).inputs = [] ∧ decode (running 0x04 [] State.reset).pend = .ok .render := by decide
theorem witness_idle : State.reset.rstN = true ∧ State.reset.status.busy = false ∧ State.reset.inputs = [] := by decide

/-- A READY block about to complete a RENDER of one frame. -/
def rendering : State := running 0x04 [] (ready 0 1 1 0)

theorem witness_invariants :
    rendering.eng.Inv rendering.build.t99Ms ∧ rendering.MemInv ∧ rendering.ControlInv
      ∧ after (step rendering) (·.status.busy) = some false := by decide +kernel
theorem witness_invariants_uninit :
    State.reset.eng.Inv State.reset.build.t99Ms ∧ State.reset.MemInv ∧ State.reset.ControlInv
      ∧ after (step State.reset) (·.status.busy) = some false := by decide
theorem witness_CompletionRecords : ErrCode.illegal ≠ .ok ∧ ErrCode.state ≠ .ok ∧ ErrCode.arg ≠ .ok := by decide
theorem witness_ErrorsArePrecise :
    after (exec .destroy State.reset) (·.status.errcode) = some .state
      ∧ after (exec .setGain (ready 0xBF800000 0 0 0)) (·.status.errcode) = some .arg := by decide
theorem witness_SuccessRecordAndResult :
    ∀ i ∈ [Instr.destroy, .reset, .render, .setGain, .setCutBase, .setCutSpan, .setDrive, .setOutGain, .setDetune],
      after (exec i (ready 0x473B8000 1 1 0)) (·.status.errcode)
        = some (if i = .render then .arg else .ok) := by decide +kernel
theorem witness_SuccessRecordAndResult_others :
    after (exec .nop State.reset) (·.status.errcode) = some .ok
      ∧ after (exec .create { State.reset with arg0 := 0x473B8000 }) (·.status.errcode) = some .ok
      ∧ after (exec .render (ready 0 1 1 0)) (·.status.errcode) = some .ok
      ∧ after (exec .mixg State.reset) (·.status.errcode) = some .ok
      ∧ after (exec .sineg (uninit [(0, 0)] 0 0 0 0)) (·.status.errcode) = some .ok := by decide +kernel
theorem witness_LifecycleMoves_create :
    after (step (running 0x01 [] { State.reset with arg0 := 0x473B8000 })) (·.eng.life) = some .ready
      ∧ State.reset.eng.life = .uninit := by decide
theorem witness_LifecycleMoves_back :
    after (step (running 0x02 [] (ready 0 0 0 0))) (·.eng.life) = some .uninit
      ∧ after (step { ready 0 0 0 0 with inputs := [.rstLow] }) (·.eng.life) = some .uninit
      ∧ after (step { ready 0 0 0 0 with inputs := [.write 0x008 2] }) (·.eng.life) = some .uninit
      ∧ after (step { ready 0 0 0 0 with rstN := false }) (·.eng.life) = some .uninit
      ∧ (ready 0 0 0 0).eng.life = .ready := by decide
theorem witness_FrameOfEveryCommand :
    after (exec .render (ready 0 1 1 0)) (·.arg1) = some 1 ∧ after (exec .setGain (ready 0 1 1 0)) (·.arg1) = some 1
      ∧ after (exec .mixg (ready 0 0 0 0)) (·.arg1) = some 0 := by decide +kernel
theorem witness_AddressMap_word : (0x4001 : HostAddr).toNat / 4 = (0x4003 : HostAddr).toNat / 4 := by decide
theorem witness_AddressMap_window :
    0x4000 ≤ (0x4000 : HostAddr).toNat ∧ 0x4000 ≤ (0x7FFF : HostAddr).toNat := by decide
theorem witness_AddressMap_reserved :
    0x028 ≤ (0x028 : HostAddr).toNat ∧ (0x03F : HostAddr).toNat < 0x040
      ∧ 0x068 ≤ (0x068 : HostAddr).toNat ∧ (0x07F : HostAddr).toNat < 0x080
      ∧ 0x0A8 ≤ (0x0A8 : HostAddr).toNat ∧ (0x3FFF : HostAddr).toNat < 0x4000 := by decide
theorem witness_accesses_busy :
    (running 0x04 [.write 0x010 5] (ready 0 1 1 0)).rstN = true
      ∧ (running 0x04 [.write 0x010 5] (ready 0 1 1 0)).status.busy = true
      ∧ (running 0x04 [.write 0x010 5] (ready 0 1 1 0)).inputs = [.write 0x010 5]
      ∧ (running 0x04 [.read 0x7FFC] (ready 0 1 1 0)).inputs = [.read 0x7FFC] := by decide
theorem witness_accesses_idle :
    ({ State.reset with inputs := [.write 0x014 5] } : State).rstN = true
      ∧ ({ State.reset with inputs := [.write 0x014 5] } : State).status.busy = false
      ∧ ({ State.reset with inputs := [.read 0x014] } : State).inputs = [.read 0x014] := by decide
/-- One offset for every location that a clause of AccessesWhileBusy, AccessesWhileIdle, CommandAccept,
StatusWriteOneToClear or ControlWrite names; 4095 is the last word of the window, absent from a smaller build. -/
theorem witness_locations :
    locate 0x000 = .id ∧ locate 0x004 = .sramsz ∧ locate 0x008 = .ctrl ∧ locate 0x00C = .status ∧ locate 0x010 = .cmd
      ∧ locate 0x014 = .arg0 ∧ locate 0x018 = .arg1 ∧ locate 0x01C = .arg2 ∧ locate 0x020 = .arg3
      ∧ locate 0x024 = .result ∧ locate 0x0A4 = .rb .detuneTgt ∧ locate 0x3FFC = .reserved ∧ locate 0x4000 = .sram 0
      ∧ locate 0x7FFC = .sram 4095 ∧ 4095 < Build.reference.sramWords
      ∧ (State.resetOf { sramWords := 4095, t99Ms := 50 }).build.sramWords ≤ 4095 := by decide
theorem witness_CommandAccept :
    ∀ ev ∈ [HostEvent.write 0x010 5, .read 0x010, .read 0x013], ∀ busy ∈ [true, false],
      ({ State.reset with inputs := [ev], status := { State.reset.status with busy := busy } } : State).rstN = true
        ∧ ({ State.reset with inputs := [ev], status := { State.reset.status with busy := busy } } : State).inputs = [ev]
        ∧ locate 0x010 = .cmd ∧ locate 0x013 = .cmd
        ∧ (after (step { State.reset with inputs := [ev], status := { State.reset.status with busy := busy } })
            (·.rstN)) = some true := by decide
theorem witness_SramReadAfterWrite : (uninit [(0, 1), (4095, 0)] 0 0 0 0).mem.wf = true := by decide
theorem witness_ControlWrite :
    (2 : Word).getLsbD 1 = true ∧ (1 : Word).getLsbD 1 = false ∧ (running 0x04 [.write 0x008 1] State.reset).status.busy = true
      ∧ ({ State.reset with inputs := [.write 0x008 3] } : State).status.busy = false := by decide
theorem witness_InterruptLevel :
    after (exec .nop { State.reset with ie := true }) State.irq = some true ∧ (0xF02 : Word).getLsbD 1 = true
      ∧ (0 : Word).getLsbD 0 = false := by decide
theorem witness_HeldInReset :
    ∀ evs ∈ [[], [.pass], [.read 0x000], [.write 0x014 5], [.rstLow], [.rstHigh]],
      State.ControlInv { State.reset with rstN := false, inputs := evs }
        ∧ after (step { State.reset with rstN := false, inputs := evs }) (·.rstN) = some (decide (evs = [.rstHigh])) := by
  decide
theorem witness_ResetAsserted :
    (running 0x04 [.rstLow] (ready 4095 1 1 0)).mem.wf = true
      ∧ (running 0x04 [.rstLow] (ready 4095 1 1 0)).inputs = [.rstLow]
      ∧ (running 0x04 [.rstLow] (ready 4095 1 1 0)).status.busy = true
      ∧ ({ State.reset with inputs := [.rstLow] } : State).status.busy = false ∧ State.reset.mem.wf = true := by decide
theorem witness_ResetAsserted_words :
    (running 0x04 [.rstLow] (ready 4095 1 1 0)).pendingWrites = [4095]
      ∧ (running 0x04 [.rstLow] (ready 4095 1 2 0)).pendingWrites = []
      ∧ (running 0x20 [.rstLow] (ready 4094 0 2 0)).pendingWrites = [4094, 4095]
      ∧ (running 0x20 [.rstLow] (ready 4094 0 3 0)).pendingWrites = []
      ∧ (running 0x21 [.rstLow] (ready 4095 0 0 1)).pendingWrites = [4095, 0]
      ∧ (running 0x21 [.rstLow] (ready 4095 4096 0 1)).pendingWrites = [] := by decide
theorem witness_HostCannotDisturb :
    rendering.rstN = true ∧ rendering.status.busy = true
      ∧ after (Host.Core.run Sys2Proof.core 3 (running 0x04 [.write 0x014 99, .read 0x050] (ready 0 1 1 0)))
          (fun t => (t.mem.readWord 0, t.eng.ph1, t.status.busy)) = some (0, 4921317, false) := by decide +kernel
theorem witness_CreateResult :
    (ready 0 0 0 0).eng.life = .ready
      ∧ ((uninit [] 0x45F9FFFB 0 0 0).eng.life = .uninit ∧ fsValid (f32dec (uninit [] 0x45F9FFFB 0 0 0).arg0) = none)
      ∧ ((uninit [] 0x45FA0000 0 0 0).eng.life = .uninit
          ∧ fsValid (f32dec (uninit [] 0x45FA0000 0 0 0).arg0) = some 2048000)
      ∧ fsValid (f32dec (uninit [] 0x48BB8000 0 0 0).arg0) = some 98304000
      ∧ fsValid (f32dec (uninit [] 0x48BB8001 0 0 0).arg0) = none := by decide
theorem witness_DestroyResult : State.reset.eng.life = .uninit ∧ (ready 0 0 0 0).eng.life = .ready := by decide
theorem witness_ResetCommandResult :
    State.reset.eng.life = .uninit
      ∧ ((ready 0x48BB8001 0 0 0).eng.life = .ready ∧ fsValid (f32dec (ready 0x48BB8001 0 0 0).arg0) = none)
      ∧ ((ready 0x48BB8000 0 0 0).eng.life = .ready
          ∧ fsValid (f32dec (ready 0x48BB8000 0 0 0).arg0) = some 98304000) := by decide
/-- For the four setter statements: a READY block with each kind of operand, the finite ones at the boundary 0 and at
the ends of binary32; and an UNINIT one. -/
theorem witness_setters :
    State.reset.eng.life = .uninit
      ∧ ((ready 0x7FC00000 0 0 0).eng.life = .ready ∧ f32dec (ready 0x7FC00000 0 0 0).arg0 = .nan)
      ∧ ((ready 0x7F800000 0 0 0).eng.life = .ready ∧ f32dec (ready 0x7F800000 0 0 0).arg0 = .posInf)
      ∧ ((ready 0xFF800000 0 0 0).eng.life = .ready ∧ f32dec (ready 0xFF800000 0 0 0).arg0 = .negInf)
      ∧ ((ready 0x80000001 0 0 0).eng.life = .ready ∧ f32dec (ready 0x80000001 0 0 0).arg0 = .fin (-1) (-149))
      ∧ ((ready 0x80000000 0 0 0).eng.life = .ready ∧ f32dec (ready 0x80000000 0 0 0).arg0 = .fin 0 (-149))
      ∧ ((ready 0x00000001 0 0 0).eng.life = .ready ∧ f32dec (ready 0x00000001 0 0 0).arg0 = .fin 1 (-149))
      ∧ ((ready 0x7F7FFFFF 0 0 0).eng.life = .ready ∧ f32dec (ready 0x7F7FFFFF 0 0 0).arg0 = .fin 16777215 104) := by
  decide
theorem witness_RenderResult :
    (ready 4094 1 2 0).mem.wf = true ∧ (ready 4094 1 2 0).eng.life = .ready ∧ (ready 4094 1 2 0).arg1 ≠ 0
      ∧ (ready 4094 1 2 0).arg2 ≠ 0
      ∧ (ready 4094 1 2 0).arg0.toNat + (ready 4094 1 2 0).arg1.toNat * (ready 4094 1 2 0).arg2.toNat
          ≤ (ready 4094 1 2 0).build.sramWords := by decide
theorem witness_RenderResult_errors :
    (ready 0 0 1 0).arg1 = 0 ∧ (ready 0 1 0 0).arg2 = 0
      ∧ (ready 4095 1 2 0).build.sramWords
          < (ready 4095 1 2 0).arg0.toNat + (ready 4095 1 2 0).arg1.toNat * (ready 4095 1 2 0).arg2.toNat
      ∧ State.reset.eng.life = .uninit := by decide
theorem witness_RenderSplitsContinuously :
    (ready 0 0 0 0).mem.wf = true ∧ (ready 0 0 0 0).eng.life = .ready ∧ (1 : Word) ≠ 0 ∧ (2047 : Word) ≠ 0
      ∧ (2 : Word) ≠ 0 ∧ (ready 0 0 0 0).build.sramWords ≤ 4096
      ∧ (0 : Word).toNat + ((1 : Word).toNat + (2047 : Word).toNat) * (2 : Word).toNat
          ≤ (ready 0 0 0 0).build.sramWords := by decide
/-- Steps that move the phases from 5, 0, 0, and an idle block. -/
theorem witness_TimeIsTheSampleCount :
    after (exec .render (ready 0 1 1 0)) (fun t => (t.status.errcode, t.eng.ph1, t.eng.modph)) = some (.ok, 4921317, 11185)
      ∧ (ready 0 1 1 0).eng.phases = (0, 0, 0) := by decide +kernel
theorem witness_TimeIsTheSampleCount_commands :
    after (step (running 0x02 [] { ready 0 0 0 0 with eng := { eng48 with ph1 := 5 } }))
          (fun t => (t.status.errcode, t.eng.phases)) = some (.ok, 0, 0, 0)
      ∧ after (step (running 0x03 [] { ready 0x473B8000 0 0 0 with eng := { eng48 with ph1 := 5 } }))
          (fun t => (t.status.errcode, t.eng.phases)) = some (.ok, 0, 0, 0) := by decide +kernel
theorem witness_TimeIsTheSampleCount_resets :
    after (step { ready 0 0 0 0 with inputs := [.rstLow], eng := { eng48 with ph1 := 5 } }) (·.eng.phases)
        = some (0, 0, 0)
      ∧ after (step { ready 0 0 0 0 with inputs := [.write 0x008 2], eng := { eng48 with ph1 := 5 } }) (·.eng.phases)
        = some (0, 0, 0) := by decide +kernel
theorem witness_RenderOutputIsBounded :
    (ready 4095 1 1 0).mem.wf = true
      ∧ after (exec .render (ready 4095 1 1 0)) (·.status.errcode) = some .ok
      ∧ (ready 4095 1 1 0).arg0.toNat ≤ 4095 ∧ 4095 < (ready 4095 1 1 0).arg0.toNat + 1 * 1 := by decide +kernel
/-- A READY engine whose output gain is `c` on its way to 0. -/
def silencing (c : Word) : Engine :=
  { eng48 with cur := { scene0 with outGain := c }, tgt := { scene0 with outGain := 0 } }

theorem witness_SilenceIsReached :
    (silencing 1).life = .ready ∧ (silencing 1).Inv 50 ∧ (silencing 1).tgt.outGain = 0
      ∧ (silencing 1).cur.outGain.toNat ≤ 0 + 1 ∧ (sampleStep (silencing 2)).1.cur.outGain = 1 := by decide +kernel
theorem witness_MixgResult :
    (uninit [] 4096 0 0 0).mem.wf = true
      ∧ (uninit [] 4096 0 0 0).arg0.toNat + (uninit [] 4096 0 0 0).arg2.toNat ≤ (uninit [] 4096 0 0 0).build.sramWords
      ∧ (uninit [] 4096 0 0 0).arg1.toNat + (uninit [] 4096 0 0 0).arg2.toNat ≤ (uninit [] 4096 0 0 0).build.sramWords
      ∧ (uninit [] 4095 0 2 0).build.sramWords < (uninit [] 4095 0 2 0).arg0.toNat + (uninit [] 4095 0 2 0).arg2.toNat
      ∧ (uninit [] 0 4096 1 0).build.sramWords < (uninit [] 0 4096 1 0).arg1.toNat + (uninit [] 0 4096 1 0).arg2.toNat := by
  decide
theorem witness_SinegResult :
    (uninit [] 4095 4095 0 1).mem.wf = true ∧ (uninit [] 4095 4095 0 1).arg1.toNat < (uninit [] 4095 4095 0 1).build.sramWords
      ∧ (uninit [] 4095 4095 0 1).arg0.toNat + (uninit [] 4095 4095 0 1).arg3.toNat ≤ (uninit [] 4095 4095 0 1).build.sramWords
      ∧ (uninit [] 0 4096 1 1).build.sramWords ≤ (uninit [] 0 4096 1 1).arg1.toNat
      ∧ (uninit [] 4095 0 1 2).build.sramWords < (uninit [] 4095 0 1 2).arg0.toNat + (uninit [] 4095 0 1 2).arg3.toNat := by
  decide
theorem witness_SinegSplitsContinuously :
    (uninit [] 0 4095 1 0).mem.wf = true ∧ (uninit [] 0 4095 1 0).build.sramWords ≤ 4096
      ∧ (uninit [] 0 4095 1 0).arg1.toNat < (uninit [] 0 4095 1 0).build.sramWords
      ∧ (4088 : Word).toNat + (3 : Word).toNat + (5 : Word).toNat ≤ (uninit [] 0 4095 1 0).build.sramWords := by decide
theorem witness_ToFix :
    (0 : Int) ≤ -8 + (8 : Nat) ∧ (-9 : Int) + (8 : Nat) < 0 ∧ toFix 1 (-9) 8 = 0 ∧ toFix 3 (-9) 8 = 2
      ∧ toFix (-3) (-9) 8 = -2 := by decide
theorem witness_FixToF32 : -ONE ≤ ONE ∧ -ONE ≤ -ONE ∧ fixToF32 (-ONE) = 0xBF800000 := by decide
/-- The default engine, and the filter state at the end of its range. -/
theorem witness_SampleStepChain :
    eng48.ReadyInRange 50 ∧ ({ eng48 with y := 16777216 } : Engine).ReadyInRange 50 := by decide
/-- At the lowest legal rate: a sum below, at both ends of, and above the cutoff's clamp. -/
theorem witness_Cutoff :
    cutoff 0 0 0 2048000 = 5120 ∧ cutoff 5120 0 0 2048000 = 5120 ∧ cutoff 1023999 0 0 2048000 = 1023999
      ∧ cutoff 1024000 0 0 2048000 = 1023999 ∧ (1023999 : Int) ≤ 2048000 / 2 - 1 := by decide
/-- For DerivedCoefficientRanges and CutoffAndCoefficientRanges: both ends of the legal rates. -/
theorem witness_rates : FS_MIN_Q ≤ 2048000 ∧ 2048000 ≤ FS_MAX_Q ∧ FS_MIN_Q ≤ 98304000 ∧ 98304000 ≤ FS_MAX_Q := by decide
theorem witness_CompanionIncrement :
    zext32 29527900 ≤ 29527900 ∧ (-615168 : Int) ≤ 615168 ∧ (exp2r 615168).2 = 2 ∧ (exp2r (-615168)).2 = -3 := by decide
theorem witness_FilterStep : (0 : Int) ≤ 16777215 ∧ (16777215 : Int) < ONE ∧ |(-16777216 : Int)| ≤ ONE := by decide
theorem witness_SoftClip : ONE - 1 ≤ (16777215 : Int) := by decide
theorem witness_Smoother : (1 : Int) ≤ 1 ∧ (1 : Int) ≤ ONE ∧ (0 : Int) ≠ 3 ∧ |(3 : Int) - 0| ≤ (3 : Nat) := by decide

end Sys2Proof.Tests
end

section
/-! SUPPORT. The ends of every command and of every step, and what they leave of the engine state, the control state
and the host's view. -/

namespace Sys2Proof.Machine

/-! ### How a command ends -/

/-- Every way a command can end: with an error, which writes the completion record and nothing else, or with the
success of the command, one constructor each, with the checks it has passed and everything it writes. -/
inductive State.CommandEnd (s : State) : Instr → State → Prop
  | error {i : Instr} (c : ErrCode) (hc : c = .state ∨ c = .arg) : s.CommandEnd i (s.cmdError c)
  | nop : s.CommandEnd .nop (s.complete 0)
  | create (q : Int) (hl : s.eng.life = .uninit) (hq : fsValid (f32dec s.arg0) = some q) :
      s.CommandEnd .create (State.complete { s with eng := s.eng.created s.build.t99Ms q } 1)
  | destroy (hl : s.eng.life = .ready) : s.CommandEnd .destroy (State.complete { s with eng := Engine.zero } 0)
  | reset (q : Int) (hl : s.eng.life = .ready) (hq : fsValid (f32dec s.arg0) = some q) :
      s.CommandEnd .reset (State.complete { s with eng := (s.eng.derive s.build.t99Ms q).quiesce } 0)
  | render (hl : s.eng.life = .ready) (hok : s.renderArgsOk = true) :
      s.CommandEnd .render (State.complete
        { s with eng := s.eng.atFrame s.arg1.toNat,
                 mem := (renderLoop s.arg0.toNat s.arg2.toNat s.arg1.toNat 0 s.eng s.mem).2 } s.arg1)
  | setGain (v : Int) (hl : s.eng.life = .ready) (hv : gainOperand (f32dec s.arg0) = some v) :
      s.CommandEnd .setGain (State.complete { s with eng := s.eng.setPostGain (wrap32 v) } 0)
  | setCutBase (v : Int) (hl : s.eng.life = .ready) (hv : cutBaseOperand (f32dec s.arg0) = some v) :
      s.CommandEnd .setCutBase (State.complete { s with eng := s.eng.setCutBase (wrap32 v) } 0)
  | setCutSpan (v : Int) (hl : s.eng.life = .ready) (hv : cutSpanOperand (f32dec s.arg0) = some v) :
      s.CommandEnd .setCutSpan (State.complete { s with eng := s.eng.setCutSpan (wrap32 v) } 0)
  | setDrive (v : Int) (hl : s.eng.life = .ready) (hv : driveOperand (f32dec s.arg0) = some v) :
      s.CommandEnd .setDrive (State.complete { s with eng := s.eng.setDrive (wrap32 v) } 0)
  | setOutGain (v : Int) (hl : s.eng.life = .ready) (hv : gainOperand (f32dec s.arg0) = some v) :
      s.CommandEnd .setOutGain (State.complete { s with eng := s.eng.setOutGain (wrap32 v) } 0)
  | setDetune (v : Int) (hl : s.eng.life = .ready) (hv : detuneOperand (f32dec s.arg0) = some v) :
      s.CommandEnd .setDetune (State.complete { s with eng := s.eng.setDetune (wrap32 v) } 0)
  | mixg (hok : s.mixgArgsOk = true) :
      s.CommandEnd .mixg (State.complete
        { s with mem := mixLoop s.arg0.toNat s.arg1.toNat (sext32 s.arg3) s.arg2.toNat 0 s.mem } s.arg2)
  | sineg (hok : s.sinegArgsOk = true) :
      s.CommandEnd .sineg (State.complete { s with mem := s.sinegMem } s.arg3)

variable {s t : State} {i : Instr}

/-- The setters' template ends as its command does, if its success is one of the command's. -/
theorem setter_commandEnd {operand : F32 → Option Int} {store : Engine → Word → Engine}
    (hset : ∀ v, s.eng.life = .ready → operand (f32dec s.arg0) = some v →
      s.CommandEnd i (State.complete { s with eng := store s.eng (wrap32 v) } 0)) :
    ∃ t, setter operand store s = .next t ∧ s.CommandEnd i t := by
  rcases setter_cases s operand store with ⟨-, h⟩ | ⟨-, -, h⟩ | ⟨v, hl, hv, h⟩
  · exact ⟨_, h, .error _ (.inl rfl)⟩
  · exact ⟨_, h, .error _ (.inr rfl)⟩
  · exact ⟨_, h, hset v hl hv⟩

/-- Every command answers one of its ends. -/
theorem exists_commandEnd (i : Instr) (s : State) : ∃ t, exec i s = .next t ∧ s.CommandEnd i t := by
  cases i with
  | nop => exact ⟨_, execNop_eq s, .nop⟩
  | create =>
    rcases execCreate_cases s with ⟨-, h⟩ | ⟨-, -, h⟩ | ⟨q, hl, hq, h⟩
    · exact ⟨_, h, .error _ (.inl rfl)⟩
    · exact ⟨_, h, .error _ (.inr rfl)⟩
    · exact ⟨_, h, .create q hl hq⟩
  | destroy =>
    rcases execDestroy_cases s with ⟨-, h⟩ | ⟨hl, h⟩
    · exact ⟨_, h, .error _ (.inl rfl)⟩
    · exact ⟨_, h, .destroy hl⟩
  | reset =>
    rcases execReset_cases s with ⟨-, h⟩ | ⟨-, -, h⟩ | ⟨q, hl, hq, h⟩
    · exact ⟨_, h, .error _ (.inl rfl)⟩
    · exact ⟨_, h, .error _ (.inr rfl)⟩
    · exact ⟨_, h, .reset q hl hq⟩
  | render =>
    rcases execRender_cases s with ⟨-, h⟩ | ⟨-, -, h⟩ | ⟨hl, hok, h⟩
    · exact ⟨_, h, .error _ (.inl rfl)⟩
    · exact ⟨_, h, .error _ (.inr rfl)⟩
    · exact ⟨_, h, .render hl hok⟩
  | setGain => exact setter_commandEnd .setGain
  | setCutBase => exact setter_commandEnd .setCutBase
  | setCutSpan => exact setter_commandEnd .setCutSpan
  | setDrive => exact setter_commandEnd .setDrive
  | setOutGain => exact setter_commandEnd .setOutGain
  | setDetune => exact setter_commandEnd .setDetune
  | mixg =>
    rcases execMixg_cases s with ⟨-, h⟩ | ⟨hok, h⟩
    · exact ⟨_, h, .error _ (.inr rfl)⟩
    · exact ⟨_, h, .mixg hok⟩
  | sineg =>
    rcases execSineg_cases s with ⟨-, h⟩ | ⟨hok, h⟩
    · exact ⟨_, h, .error _ (.inr rfl)⟩
    · exact ⟨_, h, .sineg hok⟩

/-- What a command answers is one of its ends. -/
theorem exec_commandEnd (h : exec i s = .next t) : s.CommandEnd i t := by
  obtain ⟨t', h', he⟩ := exists_commandEnd i s
  cases h'.symm.trans h
  exact he

/-- No end of a command other than RENDER, MIXG and SINEG touches the SRAM (20_memory.md R52). -/
theorem State.CommandEnd.mem_eq (h : s.CommandEnd i t) (hi : i ∉ [Instr.render, .mixg, .sineg]) : t.mem = s.mem := by
  cases h with
  | render | mixg | sineg => simp at hi
  | _ => rfl

/-- No end of NOP, MIXG or SINEG touches the engine state (44_kernels.md R160, R161). -/
theorem State.CommandEnd.eng_eq (h : s.CommandEnd i t) (hi : i ∈ [Instr.nop, .mixg, .sineg]) : t.eng = s.eng := by
  cases h with
  | error | nop | mixg | sineg => rfl
  | _ => simp at hi

/-- The lifecycle state changes at the end of CREATE and of DESTROY only (10_state.md R31). -/
theorem State.CommandEnd.life_cases (h : s.CommandEnd i t) :
    t.eng.life = s.eng.life ∨ (i = .create ∧ t.eng.life = .ready) ∨ (i = .destroy ∧ t.eng.life = .uninit) := by
  cases h with
  | create => exact .inr (.inl ⟨rfl, rfl⟩)
  | destroy => exact .inr (.inr ⟨rfl, rfl⟩)
  | render => exact .inl (Engine.atFrame_life _)
  | _ => exact .inl rfl

/-! ### The engine's ranges -/

section
variable {t99 : Nat} {e : Engine} {v : Int}

/-- What CREATE makes of the engine for a legal rate is in range (41_lifecycle.md R121, R123). -/
theorem Engine.created_inRange {q : Int} (h1 : FS_MIN_Q ≤ q) (h2 : q ≤ FS_MAX_Q) :
    (e.created t99 q).ReadyInRange t99 :=
  Engine.derive_inRange (e := { e with cur := Scene.default, tgt := Scene.default }) h1 h2
    Scene.default_inRange Scene.default_inRange

/-- A drive in its range keeps the engine's ranges (42_setters.md R134). -/
theorem Engine.setDrive_inRange (h : e.ReadyInRange t99) (h1 : DRIVE_MIN_Q ≤ v) (h2 : v ≤ DRIVE_MAX_Q) :
    (e.setDrive (wrap32 v)).ReadyInRange t99 := by
  have hv : zext32 (wrap32 v) = v := zext32_wrap32_of_mem (le_trans (by norm_num) h1) (le_trans h2 (by norm_num))
  obtain ⟨hfs, hinc1, hincLfo, hksm, hk, hy, hcur, -, -, htgt⟩ := h
  refine ⟨hfs, hinc1, hincLfo, hksm, hk, hy, hcur, ?_, ?_, htgt⟩ <;> simpa [hv]

/-- A detune in its range keeps the engine's ranges (42_setters.md R136). -/
theorem Engine.setDetune_inRange (h : e.ReadyInRange t99) (h1 : -DETUNE_MAX_Q ≤ v) (h2 : v ≤ DETUNE_MAX_Q) :
    (e.setDetune (wrap32 v)).ReadyInRange t99 := by
  have hv : sext32 (wrap32 v) = v := sext32_wrap32_of_mem (le_trans (by norm_num) h1) (le_trans h2 (by norm_num))
  obtain ⟨hfs, hinc1, hincLfo, hksm, hk, hy, hcur, hd1, hd2, -, -⟩ := h
  refine ⟨hfs, hinc1, hincLfo, hksm, hk, hy, hcur, hd1, hd2, ?_, ?_⟩ <;> simpa [hv]

end

/-- Every end of a command keeps the engine's invariant (10_state.md R34). -/
theorem State.CommandEnd.engine_inv (h : s.CommandEnd i t) (hs : s.eng.Inv s.build.t99Ms) :
    t.eng.Inv t.build.t99Ms := by
  have ready : ∀ {e : Engine}, e.life = .ready → e.ReadyInRange s.build.t99Ms → e.Inv s.build.t99Ms :=
    fun hl => (Engine.inv_iff_of_ready hl).2
  have hr : s.eng.life = .ready → s.eng.ReadyInRange s.build.t99Ms := hs.2
  cases h with
  | error | nop | mixg | sineg => exact hs
  | create q _ hq =>
    obtain ⟨h1, h2⟩ := fsValid_range hq
    exact ready rfl (Engine.created_inRange h1 h2)
  | destroy => exact Engine.inv_zero
  | reset q hl hq =>
    obtain ⟨h1, h2⟩ := fsValid_range hq
    obtain ⟨-, -, -, -, -, -, hcur, htgt⟩ := hr hl
    exact ready hl (Engine.derive_inRange h1 h2 hcur htgt)
  | render hl => exact ready ((Engine.atFrame_life _).trans hl) (Engine.atFrame_inRange (hr hl) _)
  | setGain v hl | setCutBase v hl | setCutSpan v hl | setOutGain v hl =>
    -- The whole 32-bit format is legal for these four (10_state.md R32), so no range speaks of them.
    refine ready hl ?_
    exact hr hl
  | setDrive v hl hv =>
    obtain ⟨h1, h2⟩ := driveOperand_range hv
    exact ready hl (Engine.setDrive_inRange (hr hl) h1 h2)
  | setDetune v hl hv =>
    obtain ⟨h1, h2⟩ := detuneOperand_range hv
    exact ready hl (Engine.setDetune_inRange (hr hl) h1 h2)

/-! ### What a step can do -/

/-- Every step is the sequencer's turn, in which the block is held in reset, or waits, or completes the pending word,
or it is one event of the host. -/
theorem step_next_cases (h : step s = .next t) :
    (s.SequencerNext ∧ s.rstN = false ∧ t = s.takeTurn.hardReset)
    ∨ (s.SequencerNext ∧ s.rstN = true ∧ s.status.busy = false ∧ t = s.takeTurn)
    ∨ (s.SequencerNext ∧ s.rstN = true ∧ s.status.busy = true ∧ completePending s.takeTurn = .next t)
    ∨ ∃ ev rest, s.inputs = ev :: rest ∧ t = s.takeTurn.hostEvent ev := by
  rcases step_cases s with ⟨hn, hs⟩ | ⟨ev, rest, -, hin, hs⟩
  · rw [hs, sequencerTurn, State.takeTurn_rstN, State.takeTurn_status] at h
    split_ifs at h with hr hb
    · exact .inr (.inr (.inl ⟨hn, hr, hb, h⟩))
    · cases h
      exact .inr (.inl ⟨hn, hr, by simpa using hb, rfl⟩)
    · cases h
      exact .inl ⟨hn, by simpa using hr, rfl⟩
  · cases hs.symm.trans h
    exact .inr (.inr (.inr ⟨ev, rest, hin, rfl⟩))

/-- What COMPLETE answers is the ILLEGAL record or an end of the pending command (30_encoding.md R80). -/
theorem completePending_next_cases (h : completePending s = .next t) :
    t = s.cmdError .illegal ∨ ∃ i, decode s.pend = .ok i ∧ s.CommandEnd i t := by
  rcases completePending_cases s with ⟨r, -, hc⟩ | ⟨i, hi, hc⟩
  · cases hc.symm.trans h
    exact .inl rfl
  · exact .inr ⟨i, hi, exec_commandEnd (hc.symm.trans h)⟩

/-- Every step keeps the engine's invariant. -/
theorem step_engine_inv (hs : s.eng.Inv s.build.t99Ms) (h : step s = .next t) : t.eng.Inv t.build.t99Ms := by
  rcases step_next_cases h with ⟨-, -, rfl⟩ | ⟨-, -, -, rfl⟩ | ⟨-, -, -, hc⟩ | ⟨ev, rest, -, rfl⟩
  · rw [State.hardReset_eng]; exact Engine.inv_zero
  · exact hs
  · rcases completePending_next_cases hc with rfl | ⟨i, -, he⟩
    · exact hs
    · exact he.engine_inv hs
  · rw [State.hostEvent_build]
    rcases s.takeTurn.hostEvent_eng ev with he | he <;> rw [he]
    · exact hs
    · exact Engine.inv_zero

/-! ### The control state -/

/-- Registers that a reset would not change are at reset: the control state holds (70_reset_and_hazards.md R190). -/
theorem State.controlInv_of_resetRegs (h : s.resetRegs = s) : s.ControlInv := by
  have hst : s.status = Status.zero := by rw [← h]; rfl
  have hp : s.pend = 0 := by rw [← h]; rfl
  exact ⟨fun _ => by rw [hst]; rfl, fun _ => hp, fun _ => h⟩

/-- Out of reset the control state is DONE against BUSY and PEND against BUSY. -/
theorem State.controlInv_of_rstN (hr : s.rstN = true) (hd : s.status.busy = true → s.status.done = false)
    (hp : s.status.busy = false → s.pend = 0) : s.ControlInv :=
  ⟨hd, hp, fun h => absurd (hr.symm.trans h) (by decide)⟩

/-- A performed write keeps DONE against BUSY and PEND against BUSY. -/
theorem State.store_controlInv (w : Word) (l : Location) (hr : s.rstN = true) (h : s.ControlInv) :
    (s.store w l).ControlInv := by
  obtain ⟨hd, hp, -⟩ := h
  cases l with
  | ctrl =>
    simp only [State.store, State.writeCtrl]
    split
    · exact State.controlInv_of_resetRegs rfl
    · exact State.controlInv_of_rstN hr hd hp
  | status =>
    refine State.controlInv_of_rstN hr (fun hb => ?_) hp
    simp [State.store, Status.writeOneToClear, hd hb]
  | cmd => exact State.controlInv_of_rstN hr (fun _ => rfl) (fun hb => by cases hb)
  | sram a =>
    simp only [State.store]
    split <;> exact State.controlInv_of_rstN hr hd hp
  | _ => exact State.controlInv_of_rstN hr hd hp

/-- A host event keeps the control state. -/
theorem State.hostEvent_controlInv (ev : HostEvent) (h : s.ControlInv) : (s.hostEvent ev).ControlInv := by
  obtain ⟨hd, hp, -⟩ := id h
  cases ev with
  | pass => exact h
  | read a =>
    simp only [State.hostEvent]
    split
    case isTrue hr => rw [State.hostRead_eq]; exact State.controlInv_of_rstN hr hd hp
    case isFalse => exact State.controlInv_of_resetRegs rfl
  | write a w =>
    simp only [State.hostEvent, State.hostWrite]
    split_ifs with hr
    · exact State.controlInv_of_rstN hr hd hp
    · exact State.store_controlInv w _ hr h
    · exact State.controlInv_of_resetRegs rfl
  | rstLow => exact State.controlInv_of_resetRegs rfl
  | rstHigh =>
    simp only [State.hostEvent]
    split
    · exact h
    · exact State.controlInv_of_resetRegs rfl

/-! ### The lifecycle -/

/-- What makes a host event reset the block: `rst_n` low or held, or a soft reset while idle
(70_reset_and_hazards.md R190, R192). -/
def State.ResetBy (s : State) (ev : HostEvent) : Prop :=
  s.rstN = false ∨ ev = .rstLow
    ∨ ∃ a w, ev = .write a w ∧ locate a = .ctrl ∧ w.getLsbD 1 = true ∧ s.status.busy = false

/-- Only a soft reset changes the engine state by a performed write (70_reset_and_hazards.md R192). -/
theorem State.store_eng {w : Word} {l : Location} (h : ¬ (l = .ctrl ∧ w.getLsbD 1 = true)) :
    (s.store w l).eng = s.eng := by
  cases l with
  | ctrl =>
    rw [State.store, State.writeCtrl, if_neg fun hw => h ⟨rfl, hw⟩]
  | sram a => simp only [State.store]; split <;> rfl
  | _ => rfl

/-- A host event that is no reset keeps the engine state. -/
theorem State.hostEvent_eng_of_not_resetBy {ev : HostEvent} (h : ¬ s.ResetBy ev) : (s.hostEvent ev).eng = s.eng := by
  simp only [State.ResetBy, not_or, Bool.not_eq_false] at h
  obtain ⟨hr, hlow, hctrl⟩ := h
  cases ev with
  | pass => rfl
  | read a => simp only [State.hostEvent, hr, if_true]; rw [State.hostRead_eq]
  | write a w =>
    simp only [State.hostEvent, State.hostWrite, hr, if_true]
    split
    case isTrue => rfl
    case isFalse hrej =>
      refine State.store_eng fun ⟨hl, hw⟩ => hctrl ⟨a, w, rfl, hl, hw, ?_⟩
      simpa [hl, Location.writeRejected] using hrej
  | rstLow => exact absurd rfl hlow
  | rstHigh => simp [State.hostEvent, hr]

/-- A setter in UNINIT ends with STATE (42_setters.md R130). -/
theorem setter_of_uninit {operand : F32 → Option Int} {store : Engine → Word → Engine} (h : s.eng.life = .uninit) :
    setter operand store s = .next (s.cmdError .state) := by
  simp [setter, h]

/-- A command that needs READY ends in UNINIT with STATE (10_state.md R31). -/
theorem exec_of_uninit
    (hi : i ∈ [Instr.destroy, .reset, .render, .setGain, .setCutBase, .setCutSpan, .setDrive, .setOutGain, .setDetune])
    (h : s.eng.life = .uninit) : exec i s = .next (s.cmdError .state) := by
  cases i with
  | nop | create | mixg | sineg => simp at hi
  | destroy => simp [exec, execDestroy, h]
  | reset => simp [exec, execReset, h]
  | render => simp [exec, execRender, h]
  | setGain | setCutBase | setCutSpan | setDrive | setOutGain | setDetune => exact setter_of_uninit h

/-- A step that changes the lifecycle state is the completion of CREATE, which leaves READY, or that of DESTROY or a
reset, which leave UNINIT. -/
theorem step_life_cases (h : step s = .next t) (hne : t.eng.life ≠ s.eng.life) :
    (s.rstN = true ∧ s.status.busy = true ∧ s.SequencerNext
      ∧ ((decode s.pend = .ok .create ∧ t.eng.life = .ready) ∨ (decode s.pend = .ok .destroy ∧ t.eng.life = .uninit)))
    ∨ ((s.rstN = false ∨ ∃ ev, s.inputs.head? = some ev ∧ s.ResetBy ev) ∧ t.eng.life = .uninit) := by
  rcases step_next_cases h with ⟨-, hr, rfl⟩ | ⟨-, -, -, rfl⟩ | ⟨hn, hr, hb, hc⟩ | ⟨ev, rest, hin, rfl⟩
  · exact .inr ⟨.inl hr, by rw [State.hardReset_eng]; rfl⟩
  · exact absurd rfl hne
  · rcases completePending_next_cases hc with rfl | ⟨i, hi, he⟩
    · exact absurd rfl hne
    · refine .inl ⟨hr, hb, hn, ?_⟩
      rcases he.life_cases with hl | ⟨rfl, hl⟩ | ⟨rfl, hl⟩
      · exact absurd hl hne
      · exact .inl ⟨hi, hl⟩
      · exact .inr ⟨hi, hl⟩
  · have hreset : s.takeTurn.ResetBy ev := by
      by_contra hno
      exact hne (congrArg Engine.life (State.hostEvent_eng_of_not_resetBy hno))
    refine .inr ⟨.inr ⟨ev, by simp [hin], hreset⟩, ?_⟩
    rcases s.takeTurn.hostEvent_eng ev with he | he
    · exact absurd (congrArg Engine.life he) hne
    · rw [he]; rfl

/-! ### The frame of every command -/

/-- No command writes the operand registers, CTRL, EBUSY, the reset input, the build or the model's own fields
(10_state.md R21, R37). -/
theorem exec_frame (h : exec i s = .next t) :
    t.arg0 = s.arg0 ∧ t.arg1 = s.arg1 ∧ t.arg2 = s.arg2 ∧ t.arg3 = s.arg3 ∧ t.ie = s.ie
      ∧ t.status.ebusy = s.status.ebusy ∧ t.rstN = s.rstN ∧ t.build = s.build ∧ t.draws = s.draws
      ∧ t.hrdata = s.hrdata ∧ t.inputs = s.inputs := by
  rcases exec_cases s i with ⟨c, -, he⟩ | ⟨e, m, r, he⟩ <;> cases he.symm.trans h <;> simp

/-! ### The interrupt line -/

/-- Where DONE is 0 the interrupt line is 0 (10_state.md R35). -/
theorem State.irq_of_not_done (h : s.status.done = false) : s.irq = false := by simp [State.irq, h]

/-- Every completion leaves `irq` equal to IE. -/
theorem exec_irq (h : exec i s = .next t) : t.irq = s.ie := by
  rcases exec_cases s i with ⟨c, -, he⟩ | ⟨e, m, r, he⟩ <;> cases he.symm.trans h <;> simp [State.irq]

/-- The ILLEGAL completion leaves `irq` equal to IE, as every error does. -/
theorem State.cmdError_irq (c : ErrCode) : (s.cmdError c).irq = s.ie := by simp [State.irq]

/-- A CTRL write with bit 0 clear lowers `irq`: it clears IE, or resets DONE. -/
theorem State.writeCtrl_irq {w : Word} (h : w.getLsbD 0 = false) : (s.writeCtrl w).irq = false := by
  unfold State.writeCtrl
  split
  · rfl
  · rw [h]; rfl

/-! ### The host's accesses -/

variable {a : HostAddr} {w : Word} {rest : List HostEvent}

/-- Taking the turn of the first event. -/
theorem State.takeTurn_eq {ev : HostEvent} (h : s.inputs = ev :: rest) :
    s.takeTurn = { s with inputs := rest, hrdata := none } := by
  simp [State.takeTurn, h]

/-- Taking the turn shows the host nothing. -/
@[simp] theorem State.takeTurn_view (l : Location) : s.takeTurn.view l = s.view l := by cases l <;> rfl

/-- A read of a location that is not rejected delivers its value and changes nothing (20_memory.md R58). -/
theorem step_of_performed_read (h : s.inputs = .read a :: rest) (hr : s.rstN = true)
    (hp : (s.status.busy && (locate a).readRejected) = false) :
    step s = .next { s with inputs := rest, hrdata := some (s.view (locate a)) } := by
  rw [step_of_read h hr, State.hostRead, State.takeTurn_status, hp, State.takeTurn_view, State.takeTurn_eq h]
  rfl

/-- A write of a location that is not rejected is performed (20_memory.md R58). -/
theorem step_of_performed_write (h : s.inputs = .write a w :: rest) (hr : s.rstN = true)
    (hp : (s.status.busy && (locate a).writeRejected) = false) :
    step s = .next (State.store { s with inputs := rest, hrdata := none } w (locate a)) := by
  rw [step_of_write h hr, State.takeTurn_eq h]
  simp [State.hostWrite, hp]

/-- A rejected write sets EBUSY and changes nothing else (60_exceptions.md R173). -/
theorem step_of_rejected_write (h : s.inputs = .write a w :: rest) (hr : s.rstN = true)
    (hb : s.status.busy = true) (hl : (locate a).writeRejected = true) :
    step s = .next { s with inputs := rest, hrdata := none, status := { s.status with ebusy := true } } := by
  rw [step_of_write h hr, State.takeTurn_eq h]
  simp [State.hostWrite, hb, hl, State.setEbusy]

theorem ctrlWord_eq (b : Bool) : ctrlWord b = if b then 1 else 0 := by cases b <;> rfl

theorem Life.isReady_eq (l : Life) : l.isReady = decide (l = .ready) := by cases l <;> rfl

/-- A write of a read-only, reserved or absent location does nothing (10_state.md R29, 20_memory.md R53). -/
theorem State.store_ignored {l : Location}
    (h : l = .id ∨ l = .sramsz ∨ l = .result ∨ l = .reserved ∨ (∃ r, l = .rb r)
      ∨ ∃ n, l = .sram n ∧ s.build.sramWords ≤ n) : s.store w l = s := by
  rcases h with rfl | rfl | rfl | rfl | ⟨r, rfl⟩ | ⟨n, rfl, hn⟩
  · rfl
  · rfl
  · rfl
  · rfl
  · rfl
  · exact if_neg (Nat.not_lt.2 hn)

/-! ### Reset -/

/-- While UNINIT every readback register reads 0 (10_state.md R28, R30). -/
theorem readbackValue_zero (r : Readback) : readbackValue Engine.zero r = 0 := by cases r <;> rfl

/-- STATUS reads 0 after reset (10_state.md R38). -/
theorem statusWord_zero : statusWord Status.zero .uninit = 0 := by decide

/-! ### STATUS -/

variable (st : Status) (l : Life)

/-- The single bits of STATUS below ERRCODE. -/
theorem statusWord_low_bits :
    (statusWord st l).getLsbD 0 = st.busy ∧ (statusWord st l).getLsbD 1 = st.done
      ∧ (statusWord st l).getLsbD 2 = decide (l = .ready) ∧ (statusWord st l).getLsbD 3 = false := by
  simp only [statusWord, bit, BitVec.getLsbD_append, ← Life.isReady_eq]
  simp

/-- The sticky flags of STATUS. -/
theorem statusWord_sticky_bits :
    (statusWord st l).getLsbD 8 = st.ebusy ∧ (statusWord st l).getLsbD 9 = st.eill
      ∧ (statusWord st l).getLsbD 10 = st.estate ∧ (statusWord st l).getLsbD 11 = st.earg := by
  simp only [statusWord, bit, BitVec.getLsbD_append]
  simp

/-- Bits 7:4 of STATUS are ERRCODE. -/
theorem statusWord_errcode : (statusWord st l).extractLsb' 4 4 = st.errcode.bits := by
  refine BitVec.eq_of_getLsbD_eq fun k hk => ?_
  simp only [statusWord, bit, BitVec.getLsbD_append, BitVec.getLsbD_extractLsb']
  interval_cases k <;> simp

/-- Bits 31:12 of STATUS are reserved. -/
theorem statusWord_reserved {k : Nat} (hk : 12 ≤ k) : (statusWord st l).getLsbD k = false := by
  simp only [statusWord, bit, BitVec.getLsbD_append]
  repeat rw [if_neg (by omega)]
  exact BitVec.getLsbD_zero

end Sys2Proof.Machine
end

section
/-! The statements about the state, spec/10_state.md. -/

namespace Sys2Proof.Machine

/-- Settles O7: every end of a command keeps the ranges, and a host event keeps or clears the engine state. -/
theorem engineRangesKeptByEveryStep : Obligations.EngineRangesKeptByEveryStep :=
  fun _ _ hs h => step_engine_inv hs h

/-- Settles O9: a reset leaves the registers at reset, a COMPLETE leaves BUSY 0 and PEND 0, and every host event keeps
the two. -/
theorem controlStateKeptByEveryStep : Obligations.ControlStateKeptByEveryStep := by
  rintro s t ⟨hd, hp, hz⟩ h
  have hturn : s.takeTurn.ControlInv := ⟨hd, hp, fun hr => congrArg State.takeTurn (hz hr)⟩
  rcases step_next_cases h with ⟨-, -, rfl⟩ | ⟨-, -, -, rfl⟩ | ⟨-, hr, -, hc⟩ | ⟨ev, rest, -, rfl⟩
  · exact State.controlInv_of_resetRegs rfl
  · exact hturn
  · obtain ⟨t', hc', hb, -, hpend, hr', -⟩ := completePending_next s.takeTurn
    cases hc'.symm.trans hc
    exact State.controlInv_of_rstN (hr'.trans hr) (fun hb' => by simp [hb] at hb') (fun _ => hpend)
  · exact State.hostEvent_controlInv ev hturn

/-- Settles O16: what a step that changes the lifecycle state is (`step_life_cases`), and the STATE error. -/
theorem lifecycleMovesOnlyBy : Obligations.LifecycleMovesOnlyBy := by
  refine ⟨fun s t h hs ht => ?_, fun s t h hs ht => ?_, fun i hi s hs => exec_of_uninit hi hs⟩
  · rcases step_life_cases h (by simp [hs, ht]) with ⟨hr, hb, hn, ⟨hd, -⟩ | ⟨-, hl⟩⟩ | ⟨-, hl⟩
    · exact ⟨hr, hb, hn, hd⟩
    · simp [ht] at hl
    · simp [ht] at hl
  · rcases step_life_cases h (by simp [hs, ht]) with ⟨hr, hb, hn, ⟨-, hl⟩ | ⟨hd, -⟩⟩ | ⟨hr | ⟨ev, hin, hev⟩, -⟩
    · simp [ht] at hl
    · exact .inl ⟨hr, hb, hn, hd⟩
    · exact .inr (.inl hr)
    · rcases hev with hr | rfl | ⟨a, w, rfl, hl, hw, hb⟩
      · exact .inr (.inl hr)
      · exact .inr (.inr (.inl hin))
      · exact .inr (.inr (.inr ⟨a, w, hin, hl, hw, hb⟩))

/-- Settles O17: the frame of both ways to end, and the ends of each command for the SRAM and the engine state. -/
theorem frameOfEveryCommand : Obligations.FrameOfEveryCommand := by
  intro i s t h
  refine ⟨exec_frame h, fun hi => ?_, (exec_commandEnd h).eng_eq⟩
  have hm := (exec_commandEnd h).mem_eq hi
  exact ⟨hm, fun b => by rw [hm]⟩

/-- Settles O22: nothing is rejected while idle, so a read delivers the view of its location and a write is
performed. -/
theorem accessesWhileIdle : Obligations.AccessesWhileIdle := by
  intro s a w rest hr hb
  constructor
  · intro h
    rw [step_of_performed_read h hr (by simp [hb])]
    cases locate a with
    | rb r => cases r <;> simp [State.view, readbackValue, Life.isReady_eq]
    | ctrl => simp [State.view, ctrlWord_eq]
    | _ => rfl
  · intro h
    rw [step_of_performed_write h hr (by simp [hb])]
    refine ⟨fun hl => ?_, fun hl => ?_, fun hl => ?_, fun hl => ?_, fun n hl hn => ?_, fun hl => ?_⟩
    · rw [hl]; rfl
    · rw [hl]; rfl
    · rw [hl]; rfl
    · rw [hl]; rfl
    · rw [hl]; simp [State.store, hn]
    · exact congrArg Host.Outcome.next (State.store_ignored hl)

/-- Settles O27: completions set DONE; accept, acknowledge, CTRL and reset clear DONE or IE. -/
theorem interruptLevel : Obligations.InterruptLevel := by
  refine ⟨fun s => rfl, fun i s t h => exec_irq h, fun s => State.cmdError_irq _, fun s t h => ?_,
    fun s w => State.irq_of_not_done rfl, fun s w hw => State.irq_of_not_done ?_, fun s w hw => State.writeCtrl_irq hw,
    fun s => ⟨rfl, rfl⟩⟩
  · rcases completePending_cases s with ⟨r, -, hc⟩ | ⟨i, -, hc⟩
    · cases hc.symm.trans h
      exact State.cmdError_irq _
    · exact exec_irq (hc.symm.trans h)
  · simp [Status.writeOneToClear, hw]

/-- Settles O10: the engine state is zero, the SRAM's lists are empty, and the registers are at reset. -/
theorem resetMeetsTheInvariants : Obligations.ResetMeetsTheInvariants :=
  fun b => ⟨Engine.inv_zero, ⟨State.resetOf_mem_wf b, rfl⟩, State.controlInv_of_resetRegs rfl⟩

/-- Settles O11: the registers field by field, and every SRAM word by its mark, the power-on draw. -/
theorem resetValues : Obligations.ResetValues := by
  intro b
  refine ⟨ctrlWord_eq false, statusWord_zero, rfl, rfl, rfl, rfl, rfl, rfl, rfl, readbackValue_zero, rfl, rfl, rfl, rfl,
    fun a => ?_⟩
  exact Memory.readWord_drawn (State.resetOf_mem_wf b) rfl

/-- Settles O20: the single bits, ERRCODE as the field of bits 7:4, and no bit from 12 on. -/
theorem statusLayout : Obligations.StatusLayout := by
  intro st l
  obtain ⟨h0, h1, h2, h3⟩ := statusWord_low_bits st l
  obtain ⟨h8, h9, h10, h11⟩ := statusWord_sticky_bits st l
  refine ⟨h0, h1, h2, h3, ?_, h8, h9, h10, h11, Nat.lt_pow_two_of_testBit _ fun k hk => statusWord_reserved st l hk⟩
  have h := congrArg BitVec.toNat (statusWord_errcode st l)
  rw [BitVec.extractLsb'_toNat, Nat.shiftRight_eq_div_pow] at h
  rw [show (statusWord st l).toNat / 16 % 16 = st.errcode.bits.toNat from h]
  cases st.errcode <;> rfl

/-- Settles O24: a CMD write is performed while idle and rejected while BUSY; a CMD read is never rejected. -/
theorem commandAccept : Obligations.CommandAccept := by
  intro s a w rest hr hl
  refine ⟨fun h hb => ?_, fun h hb => step_of_rejected_write h hr hb (by rw [hl]; rfl), fun h _ => ?_, fun h _ => ?_⟩
  · rw [step_of_performed_write h hr (by simp [hb]), hl]; rfl
  · rw [step_of_performed_read h hr (by simp [hl, Location.readRejected]), hl]; rfl
  · exact ⟨_, step_of_performed_read h hr (by simp [hl, Location.readRejected]), by rw [hl]; rfl⟩

/-- Settles O25: a STATUS write is never rejected, and what it performs is the acknowledgement. -/
theorem statusWriteOneToClear : Obligations.StatusWriteOneToClear := by
  intro s a w rest hr hl h
  rw [step_of_performed_write h hr (by simp [hl, Location.writeRejected]), hl]
  rfl

end Sys2Proof.Machine
end

section
/-! SUPPORT. What the statements about the host bus and the SRAM are proved from: the SRAM's form at the end of every
command, the offsets of the register map, the accesses that are rejected while BUSY, and that a running command reads
nothing the host can then change. -/

namespace Sys2Proof.Machine

variable {s t : State} {i : Instr}

/-! ### The SRAM's form -/

/-- Every end of a command keeps the SRAM's form: the checks of RENDER, MIXG and SINEG keep their loops within the
words the build has (20_memory.md R63). -/
theorem State.CommandEnd.memInv (h : s.CommandEnd i t) (hs : s.MemInv) : t.MemInv := by
  obtain ⟨hwf, hfits⟩ := id hs
  cases h with
  | render _ hok =>
    obtain ⟨-, -, hrange⟩ := (renderArgsOk_iff s).1 hok
    exact ⟨renderLoop_wf hwf, renderLoop_fits hfits (by rwa [Nat.zero_add])⟩
  | mixg hok =>
    obtain ⟨hdst, -⟩ := (mixgArgsOk_iff s).1 hok
    exact ⟨mixLoop_wf hwf, mixLoop_fits hfits hdst⟩
  | sineg hok =>
    obtain ⟨hpa, hout⟩ := (sinegArgsOk_iff s).1 hok
    exact ⟨Memory.wf_writeWord (sineLoop_wf hwf), Memory.fits_writeWord (sineLoop_fits hfits hout) hpa⟩
  | _ => exact hs

/-- Every step keeps the SRAM's form. -/
theorem step_memInv (hs : s.MemInv) (h : step s = .next t) : t.MemInv := by
  have hturn : s.takeTurn.MemInv := hs
  rcases step_next_cases h with ⟨-, -, rfl⟩ | ⟨-, -, -, rfl⟩ | ⟨-, -, -, hc⟩ | ⟨ev, rest, -, rfl⟩
  · exact State.hardReset_memInv hturn
  · exact hturn
  · rcases completePending_next_cases hc with rfl | ⟨i, -, he⟩
    · exact hturn
    · exact he.memInv hturn
  · exact State.hostEvent_memInv hturn ev

/-! ### The address map -/

variable {a b : HostAddr}

/-- `haddr[1:0]` is ignored (20_memory.md R50). -/
theorem locate_congr (h : a.toNat / 4 = b.toNat / 4) : locate a = locate b := by
  simp only [locate, h]

/-- From 0x4000 up every offset is in the SRAM window (20_memory.md R53). -/
theorem locate_window (h : 0x4000 ≤ a.toNat) : locate a = .sram ((a.toNat - 0x4000) / 4) := by
  have hword : (a.toNat / 4 * 4 - 0x4000) / 4 = (a.toNat - 0x4000) / 4 := by omega
  rw [locate, if_pos (by omega), hword]

/-- Below 0x4000 the register map decides (10_state.md R20, R28). -/
theorem locate_register (h : a.toNat < 0x4000) : locate a = lookup .reserved registerMap (a.toNat / 4 * 4) :=
  if_neg (by omega)

/-- The three blocks of offsets the register map lists (20_memory.md R64). -/
theorem registerMap_offsets : ∀ e ∈ registerMap,
    e.1 < 0x028 ∨ (0x040 ≤ e.1 ∧ e.1 < 0x068) ∨ (0x080 ≤ e.1 ∧ e.1 < 0x0A8) := by decide

/-- The offsets between the blocks of the register map and the SRAM window are reserved (10_state.md R29). -/
theorem locate_reserved (h : (0x028 ≤ a.toNat ∧ a.toNat < 0x040) ∨ (0x068 ≤ a.toNat ∧ a.toNat < 0x080)
    ∨ (0x0A8 ≤ a.toNat ∧ a.toNat < 0x4000)) : locate a = .reserved := by
  rw [locate_register (by omega)]
  rcases lookup_eq_or_mem with hd | hmem
  · exact hd
  · have hoff := registerMap_offsets _ hmem
    dsimp only at hoff
    omega

/-! ### The accesses rejected while BUSY -/

/-- The writes rejected while BUSY (20_memory.md R58). -/
theorem Location.writeRejected_iff {l : Location} :
    l.writeRejected = true ↔ l = .cmd ∨ l = .arg0 ∨ l = .arg1 ∨ l = .arg2 ∨ l = .arg3 ∨ l = .ctrl ∨ ∃ n, l = .sram n := by
  cases l <;> simp [Location.writeRejected]

/-- The reads rejected while BUSY (20_memory.md R58). -/
theorem Location.readRejected_iff {l : Location} :
    l.readRejected = true ↔ (∃ n, l = .sram n) ∨ ∃ r, l = .rb r := by
  cases l <;> simp [Location.readRejected]

variable {w : Word} {rest : List HostEvent}

/-- A rejected read delivers 0, sets EBUSY and changes nothing else (60_exceptions.md R173). -/
theorem step_of_rejected_read (h : s.inputs = .read a :: rest) (hr : s.rstN = true) (hb : s.status.busy = true)
    (hl : (locate a).readRejected = true) :
    step s = .next { s with inputs := rest, hrdata := some 0, status := { s.status with ebusy := true } } := by
  rw [step_of_read h hr, State.takeTurn_eq h]
  simp [State.hostRead, hb, hl, State.setEbusy]

/-- A write of a read-only or reserved offset does nothing, BUSY or not (10_state.md R29, 20_memory.md R58). -/
theorem step_of_ignored_write (h : s.inputs = .write a w :: rest) (hr : s.rstN = true)
    (hl : locate a = .id ∨ locate a = .sramsz ∨ locate a = .result ∨ locate a = .reserved ∨ ∃ r, locate a = .rb r) :
    step s = .next { s with inputs := rest, hrdata := none } := by
  have hperf : (locate a).writeRejected = false := by
    rcases hl with hl | hl | hl | hl | ⟨r, hl⟩ <;> rw [hl] <;> rfl
  rw [step_of_performed_write h hr (by simp [hperf])]
  refine congrArg Host.Outcome.next (State.store_ignored ?_)
  rcases hl with hl | hl | hl | hl | hl <;> simp [hl]

/-! ### What the host reaches while a command runs -/

/-- `s` with STATUS, the read data and the coming events replaced: all that a read or a write can reach while a command
runs (`step_of_busy_access`). -/
def State.setPorts (s : State) (st : Status) (data : Option Word) (evs : List HostEvent) : State :=
  { s with status := st, hrdata := data, inputs := evs }

section
variable (s : State) (st : Status) (data : Option Word) (evs : List HostEvent)

@[simp] theorem State.setPorts_build : (s.setPorts st data evs).build = s.build := rfl
@[simp] theorem State.setPorts_rstN : (s.setPorts st data evs).rstN = s.rstN := rfl
@[simp] theorem State.setPorts_ie : (s.setPorts st data evs).ie = s.ie := rfl
@[simp] theorem State.setPorts_status : (s.setPorts st data evs).status = st := rfl
@[simp] theorem State.setPorts_arg0 : (s.setPorts st data evs).arg0 = s.arg0 := rfl
@[simp] theorem State.setPorts_arg1 : (s.setPorts st data evs).arg1 = s.arg1 := rfl
@[simp] theorem State.setPorts_arg2 : (s.setPorts st data evs).arg2 = s.arg2 := rfl
@[simp] theorem State.setPorts_arg3 : (s.setPorts st data evs).arg3 = s.arg3 := rfl
@[simp] theorem State.setPorts_result : (s.setPorts st data evs).result = s.result := rfl
@[simp] theorem State.setPorts_pend : (s.setPorts st data evs).pend = s.pend := rfl
@[simp] theorem State.setPorts_eng : (s.setPorts st data evs).eng = s.eng := rfl
@[simp] theorem State.setPorts_mem : (s.setPorts st data evs).mem = s.mem := rfl
@[simp] theorem State.setPorts_draws : (s.setPorts st data evs).draws = s.draws := rfl
@[simp] theorem State.setPorts_hrdata : (s.setPorts st data evs).hrdata = data := rfl
@[simp] theorem State.setPorts_inputs : (s.setPorts st data evs).inputs = evs := rfl
@[simp] theorem State.setPorts_renderArgsOk : (s.setPorts st data evs).renderArgsOk = s.renderArgsOk := rfl
@[simp] theorem State.setPorts_mixgArgsOk : (s.setPorts st data evs).mixgArgsOk = s.mixgArgsOk := rfl
@[simp] theorem State.setPorts_sinegArgsOk : (s.setPorts st data evs).sinegArgsOk = s.sinegArgsOk := rfl
@[simp] theorem State.setPorts_sinegMem : (s.setPorts st data evs).sinegMem = s.sinegMem := rfl
@[simp] theorem State.setPorts_takeTurn :
    (s.setPorts st data evs).takeTurn = s.setPorts st none evs.tail := rfl
@[simp] theorem State.setPorts_setPorts (st' : Status) (data' : Option Word) (evs' : List HostEvent) :
    (s.setPorts st' data' evs').setPorts st data evs = s.setPorts st data evs := rfl

end

/-- A read or a write: the host events that are no reset and leave no turn to the sequencer. -/
def HostEvent.IsAccess (ev : HostEvent) : Prop := (∃ a, ev = .read a) ∨ ∃ a w, ev = .write a w

/-- An access made while a command runs reaches the ports only, and BUSY stays 1 (20_memory.md R58). -/
theorem step_of_busy_access {ev : HostEvent} (h : s.inputs = ev :: rest) (hev : ev.IsAccess) (hr : s.rstN = true)
    (hb : s.status.busy = true) : ∃ st data, st.busy = true ∧ step s = .next (s.setPorts st data rest) := by
  rcases hev with ⟨a, rfl⟩ | ⟨a, w, rfl⟩
  · by_cases hrej : (locate a).readRejected = true
    · exact ⟨{ s.status with ebusy := true }, some 0, hb, step_of_rejected_read h hr hb hrej⟩
    · exact ⟨s.status, some (s.view (locate a)), hb, step_of_performed_read h hr (by simp [hrej])⟩
  · by_cases hrej : (locate a).writeRejected = true
    · exact ⟨{ s.status with ebusy := true }, none, hb, step_of_rejected_write h hr hb hrej⟩
    · have hstep := step_of_performed_write h hr (by simp [hrej])
      cases hl : locate a with
      | status => exact ⟨s.status.writeOneToClear w, none, hb, by rw [hstep, hl]; rfl⟩
      | id | sramsz | result | rb | reserved => exact ⟨s.status, none, hb, by rw [hstep, hl]; rfl⟩
      | _ => exact absurd (by rw [hl]; rfl) hrej

/-! ### A running command does not read the ports -/

/-- Started from `s`, `f` ends the same way whatever STATUS, the read data and the coming events are: they come out
as they were, but for the completion record in STATUS. -/
def IgnoresPorts (f : State → Host.Outcome State Fault Refusal) (s : State) : Prop :=
  ∃ (t : State) (c : ErrCode), ∀ st data evs, f (s.setPorts st data evs) = .next (t.setPorts (st.completed c) data evs)

section
variable {f : State → Host.Outcome State Fault Refusal}

/-- An error is the same error whatever the ports are. -/
theorem IgnoresPorts.of_cmdError (c : ErrCode)
    (h : ∀ st data evs, f (s.setPorts st data evs) = .next ((s.setPorts st data evs).cmdError c)) :
    IgnoresPorts f s :=
  ⟨s.cmdError c, c, h⟩

/-- A success is the same success whatever the ports are. -/
theorem IgnoresPorts.of_complete (e : Engine) (m : Memory) (r : Word)
    (h : ∀ st data evs, f (s.setPorts st data evs)
      = .next (State.complete { s.setPorts st data evs with eng := e, mem := m } r)) :
    IgnoresPorts f s :=
  ⟨State.complete { s with eng := e, mem := m } r, .ok, h⟩

end

theorem setter_ignoresPorts (operand : F32 → Option Int) (store : Engine → Word → Engine) (s : State) :
    IgnoresPorts (setter operand store) s := by
  have ends := fun st data evs => setter_cases (s.setPorts st data evs) operand store
  rcases setter_cases s operand store with ⟨hl, -⟩ | ⟨hl, hv, -⟩ | ⟨v, hl, hv, -⟩
  · exact .of_cmdError .state fun st data evs => by simpa [hl] using ends st data evs
  · exact .of_cmdError .arg fun st data evs => by simpa [hl, hv] using ends st data evs
  · exact .of_complete (store s.eng (wrap32 v)) s.mem 0 fun st data evs => by simpa [hl, hv] using ends st data evs

theorem execCreate_ignoresPorts (s : State) : IgnoresPorts execCreate s := by
  have ends := fun st data evs => execCreate_cases (s.setPorts st data evs)
  rcases execCreate_cases s with ⟨hl, -⟩ | ⟨hl, hq, -⟩ | ⟨q, hl, hq, -⟩
  · exact .of_cmdError .state fun st data evs => by simpa [hl] using ends st data evs
  · exact .of_cmdError .arg fun st data evs => by simpa [hl, hq] using ends st data evs
  · exact .of_complete (s.eng.created s.build.t99Ms q) s.mem 1 fun st data evs => by
      simpa [hl, hq] using ends st data evs

theorem execDestroy_ignoresPorts (s : State) : IgnoresPorts execDestroy s := by
  have ends := fun st data evs => execDestroy_cases (s.setPorts st data evs)
  rcases execDestroy_cases s with ⟨hl, -⟩ | ⟨hl, -⟩
  · exact .of_cmdError .state fun st data evs => by simpa [hl] using ends st data evs
  · exact .of_complete Engine.zero s.mem 0 fun st data evs => by simpa [hl] using ends st data evs

theorem execReset_ignoresPorts (s : State) : IgnoresPorts execReset s := by
  have ends := fun st data evs => execReset_cases (s.setPorts st data evs)
  rcases execReset_cases s with ⟨hl, -⟩ | ⟨hl, hq, -⟩ | ⟨q, hl, hq, -⟩
  · exact .of_cmdError .state fun st data evs => by simpa [hl] using ends st data evs
  · exact .of_cmdError .arg fun st data evs => by simpa [hl, hq] using ends st data evs
  · exact .of_complete (s.eng.derive s.build.t99Ms q).quiesce s.mem 0 fun st data evs => by
      simpa [hl, hq] using ends st data evs

theorem execRender_ignoresPorts (s : State) : IgnoresPorts execRender s := by
  have ends := fun st data evs => execRender_cases (s.setPorts st data evs)
  rcases execRender_cases s with ⟨hl, -⟩ | ⟨hl, hok, -⟩ | ⟨hl, hok, -⟩
  · exact .of_cmdError .state fun st data evs => by simpa [hl] using ends st data evs
  · exact .of_cmdError .arg fun st data evs => by simpa [hl, hok] using ends st data evs
  · exact .of_complete (s.eng.atFrame s.arg1.toNat)
      (renderLoop s.arg0.toNat s.arg2.toNat s.arg1.toNat 0 s.eng s.mem).2 s.arg1 fun st data evs => by
        simpa [hl, hok] using ends st data evs

theorem execMixg_ignoresPorts (s : State) : IgnoresPorts execMixg s := by
  have ends := fun st data evs => execMixg_cases (s.setPorts st data evs)
  rcases execMixg_cases s with ⟨hok, -⟩ | ⟨hok, -⟩
  · exact .of_cmdError .arg fun st data evs => by simpa [hok] using ends st data evs
  · exact .of_complete s.eng (mixLoop s.arg0.toNat s.arg1.toNat (sext32 s.arg3) s.arg2.toNat 0 s.mem) s.arg2
      fun st data evs => by simpa [hok] using ends st data evs

theorem execSineg_ignoresPorts (s : State) : IgnoresPorts execSineg s := by
  have ends := fun st data evs => execSineg_cases (s.setPorts st data evs)
  rcases execSineg_cases s with ⟨hok, -⟩ | ⟨hok, -⟩
  · exact .of_cmdError .arg fun st data evs => by simpa [hok] using ends st data evs
  · exact .of_complete s.eng s.sinegMem s.arg3 fun st data evs => by simpa [hok] using ends st data evs

/-- No command reads STATUS, the read data or the coming events: the checks that decide its end are of the operands,
the engine state and the build. -/
theorem exec_ignoresPorts (i : Instr) (s : State) : IgnoresPorts (exec i) s := by
  cases i with
  | nop => exact .of_complete s.eng s.mem 0 fun _ _ _ => rfl
  | create => exact execCreate_ignoresPorts s
  | destroy => exact execDestroy_ignoresPorts s
  | reset => exact execReset_ignoresPorts s
  | render => exact execRender_ignoresPorts s
  | setGain | setCutBase | setCutSpan | setDrive | setOutGain | setDetune => exact setter_ignoresPorts _ _ s
  | mixg => exact execMixg_ignoresPorts s
  | sineg => exact execSineg_ignoresPorts s

/-- COMPLETE does not read the ports either: the pending word is not among them (10_state.md R33). -/
theorem completePending_ignoresPorts (s : State) : IgnoresPorts completePending s := by
  cases hd : decode s.pend with
  | error r => exact .of_cmdError .illegal fun _ _ _ => by simp [completePending, hd]
  | ok i =>
    obtain ⟨t, c, h⟩ := exec_ignoresPorts i s
    exact ⟨t, c, fun st data evs => by simp [completePending, hd, h]⟩

/-- Reads and writes made while a command runs, and then the sequencer's turn: the command ends as `t`, the end it has
whatever the ports are; the accesses decide STATUS before the completion record, and no more. -/
theorem run_of_busy_accesses {c : ErrCode} (hr : s.rstN = true)
    (hend : ∀ st data evs, completePending (s.setPorts st data evs) = .next (t.setPorts (st.completed c) data evs))
    {evs : List HostEvent} (hevs : ∀ ev ∈ evs, ev.IsAccess) (st : Status) (data : Option Word) (hb : st.busy = true) :
    ∃ st' : Status, Host.Core.run Sys2Proof.core (evs.length + 1) (s.setPorts st data evs)
      = .next (t.setPorts (st'.completed c) none []) := by
  induction evs generalizing st data with
  | nil =>
    have hstep : step (s.setPorts st data []) = .next (t.setPorts (st.completed c) none []) := by
      rw [step_of_busy (s := s.setPorts st data []) (.inl rfl) hr hb, State.setPorts_takeTurn]
      exact hend st none []
    exact ⟨st, run_succ hstep 0⟩
  | cons ev rest ih =>
    obtain ⟨hev, hrest⟩ := List.forall_mem_cons.1 hevs
    obtain ⟨st', data', hb', hstep⟩ := step_of_busy_access (s := s.setPorts st data (ev :: rest)) rfl hev hr hb
    rw [State.setPorts_setPorts] at hstep
    obtain ⟨st'', hrun⟩ := ih hrest st' data' hb'
    exact ⟨st'', (run_succ hstep _).trans hrun⟩

end Sys2Proof.Machine
end

section
/-! The statements about the host bus and the SRAM, spec/20_memory.md. -/

namespace Sys2Proof.Machine

/-- Settles O8: a reset, an idle turn, an end of a command and a host event each keep the form. -/
theorem memoryFormKeptByEveryStep : Obligations.MemoryFormKeptByEveryStep :=
  fun _ _ hs h => step_memInv hs h

/-- Settles O19: the window and the reserved offsets by their ranges, and the registers offset by offset. -/
theorem addressMap : Obligations.AddressMap := by
  refine ⟨fun _ _ => locate_congr, fun _ => locate_window, ?_⟩
  repeat refine ⟨rfl, ?_⟩
  exact fun _ => locate_reserved

/-- Settles O21: the tables of rejected accesses say which accesses set EBUSY; every other read delivers the view of its
location, and of the other writes only the one of STATUS has an effect. -/
theorem accessesWhileBusy : Obligations.AccessesWhileBusy := by
  intro s a w rest hr hb
  constructor
  · intro h
    exact ⟨fun hl => step_of_rejected_write h hr hb (Location.writeRejected_iff.2 hl),
      fun hl => statusWriteOneToClear s a w rest hr hl h, step_of_ignored_write h hr⟩
  · intro h
    refine ⟨fun hl => step_of_rejected_read h hr hb (Location.readRejected_iff.2 hl), fun v hv => ?_⟩
    have performed : ∀ l : Location, locate a = l → l.readRejected = false →
        step s = .next { s with inputs := rest, hrdata := some (s.view l) } := by
      rintro l rfl hl
      exact step_of_performed_read h hr (by simp [hl])
    rcases hv with ⟨hl, rfl⟩ | ⟨hl, rfl⟩ | ⟨hl, rfl⟩ | ⟨hl, rfl⟩ | ⟨hl, rfl⟩ | ⟨hl, rfl⟩ | ⟨hl, rfl⟩ | ⟨hl, rfl⟩
      | ⟨hl, rfl⟩ | ⟨hl, rfl⟩
    · exact performed .id hl rfl
    · exact performed .sramsz hl rfl
    · rw [← ctrlWord_eq]
      exact performed .ctrl hl rfl
    · exact performed .status hl rfl
    · exact performed .arg0 hl rfl
    · exact performed .arg1 hl rfl
    · exact performed .arg2 hl rfl
    · exact performed .arg3 hl rfl
    · exact performed .result hl rfl
    · exact performed .reserved hl rfl

/-- Settles O23: everything a write does, byte by byte and word by word. -/
theorem sramReadAfterWrite : Obligations.SramReadAfterWrite := by
  intro m a w h
  refine ⟨Memory.wf_writeWord h, ?_, fun k hk => ?_, fun b hb => ?_, fun a' ha => ?_⟩
  · rw [Memory.readWord_writeWord h, if_pos rfl]
  · have hword : (4 * a + k) / 4 = a := by omega
    have hbyte : (4 * a + k) % 4 = k := by omega
    rw [Memory.readByte_writeWord h, if_pos hword, hbyte, byteOf]
  · rw [Memory.readByte_writeWord h, if_neg hb]
  · rw [Memory.readWord_writeWord h, if_neg ha]

/-- Settles O30: the command ignores the ports, and the ports are all that the accesses reach, so the run with the
accesses and the run without them end in one state, ports aside. -/
theorem hostCannotDisturbARunningCommand : Obligations.HostCannotDisturbARunningCommand := by
  intro s evs hr hb hevs
  obtain ⟨t, c, hend⟩ := completePending_ignoresPorts s
  obtain ⟨st0, h0⟩ := run_of_busy_accesses hr hend (evs := []) (by simp) s.status s.hrdata hb
  obtain ⟨st1, h1⟩ := run_of_busy_accesses hr hend hevs s.status s.hrdata hb
  exact ⟨_, _, h0, h1, rfl, rfl, rfl, by simp, rfl, rfl, rfl, rfl, rfl, rfl, by simp⟩

end Sys2Proof.Machine
end

section
/-! SUPPORT. What the statements about the command words are proved from: the decoder against the encoder and the check
of well-formedness, the sequencer's turn on a word that decodes and on one that does not, and the operand registers no
command's end depends on. -/

namespace Sys2Proof

/-! ### The decoder against the encoder -/

variable {w : Word} {i : Instr}

/-- Each of the 13 words of the opcode map is well formed and decodes to its command. -/
theorem encodesWell (i : Instr) : Laws.EncodesWell.Statement i := by
  cases i with
  | nop => exact Laws.EncodesWell.nop
  | create => exact Laws.EncodesWell.create
  | destroy => exact Laws.EncodesWell.destroy
  | reset => exact Laws.EncodesWell.reset
  | render => exact Laws.EncodesWell.render
  | setGain => exact Laws.EncodesWell.setGain
  | setCutBase => exact Laws.EncodesWell.setCutBase
  | setCutSpan => exact Laws.EncodesWell.setCutSpan
  | setDrive => exact Laws.EncodesWell.setDrive
  | setOutGain => exact Laws.EncodesWell.setOutGain
  | setDetune => exact Laws.EncodesWell.setDetune
  | mixg => exact Laws.EncodesWell.mixg
  | sineg => exact Laws.EncodesWell.sineg

@[simp] theorem decode_encode (i : Instr) : decode (encode i) = .ok i := (encodesWell i).2.2

/-- A word that decodes has `RSV` 0 and the command's `OPC`, and the two fields are all of the word. -/
theorem eq_encode_of_decode (h : decode w = .ok i) : w = encode i := by
  rcases decode_cases w with ⟨-, hd⟩ | ⟨-, -, hd⟩ | ⟨j, hrsv, hopc, hd⟩ <;> cases hd.symm.trans h
  apply BitVec.eq_of_toNat_eq
  calc w.toNat = (rsvField w).toNat * 256 + (opcField w).toNat := word_of_fields w
    _ = (opcField w).toNat := by simp [hrsv]
    _ = (encode i).toNat := decodeOpc_eq_some hopc

theorem decode_eq_ok_iff : decode w = .ok i ↔ w = encode i :=
  ⟨eq_encode_of_decode, fun h => h ▸ decode_encode i⟩

/-- The check of R73 is of the field `RSV`. -/
theorem rsvIsZero_iff : rsvIsZero w = true ↔ rsvField w = 0 := by
  rw [BitVec.toNat_eq, rsvField_toNat]
  exact beq_iff_eq

/-- The check of R74 is that the opcode map answers for the field `OPC`. -/
theorem opcIsAssigned_eq (w : Word) : opcIsAssigned w = (decodeOpc (opcField w)).isSome := by
  rw [decodeOpc_isSome, opcField_toNat, opcIsAssigned]

/-- A word decodes exactly when it is well formed (30_encoding.md R73, R74). -/
theorem exists_decode_iff : (∃ i, decode w = .ok i) ↔ wordWellFormed w = true := by
  rw [wordWellFormed, Bool.and_eq_true, rsvIsZero_iff, opcIsAssigned_eq]
  rcases decode_cases w with ⟨hrsv, hd⟩ | ⟨-, hopc, hd⟩ | ⟨i, hrsv, hopc, hd⟩
  · exact iff_of_false (by simp [hd]) fun h => hrsv h.1
  · exact iff_of_false (by simp [hd]) (by simp [hopc])
  · exact iff_of_true ⟨i, hd⟩ ⟨hrsv, by simp [hopc]⟩

/-- The reserved bits are the reason for a refusal exactly when they are not 0, whatever the `OPC`
(30_encoding.md R73). -/
theorem decode_eq_reservedBits_iff : decode w = .error .reservedBits ↔ rsvIsZero w = false := by
  rw [← Bool.not_eq_true, rsvIsZero_iff]
  rcases decode_cases w with ⟨hrsv, hd⟩ | ⟨hrsv, -, hd⟩ | ⟨i, hrsv, -, hd⟩
  · exact iff_of_true hd hrsv
  · exact iff_of_false (by simp [hd]) (not_not_intro hrsv)
  · exact iff_of_false (by simp [hd]) (not_not_intro hrsv)

end Sys2Proof

namespace Sys2Proof.Machine

variable {s : State} {i : Instr}

/-! ### The sequencer's turn on a pending word -/

/-- The sequencer's turn runs the command the pending word decodes to (30_encoding.md R80). -/
theorem step_of_decode_ok (hr : s.rstN = true) (hb : s.status.busy = true) (hn : s.SequencerNext)
    (hd : decode s.pend = .ok i) : step s = exec i s.takeTurn := by
  rw [step_of_busy hn hr hb]
  simp [completePending, hd]

/-- The sequencer's turn ends a word that is not well formed as ILLEGAL (30_encoding.md R73, R74). -/
theorem step_of_illegal (hr : s.rstN = true) (hb : s.status.busy = true) (hn : s.SequencerNext)
    (hw : wordWellFormed s.pend = false) : step s = .next (s.takeTurn.cmdError .illegal) := by
  rw [step_of_busy hn hr hb]
  rcases completePending_cases s.takeTurn with ⟨r, -, hc⟩ | ⟨i, hd, -⟩
  · exact hc
  · exact absurd (exists_decode_iff.1 ⟨i, hd⟩) (by simp [hw])

/-! ### The operands a command does not use -/

/-- `s` with other values in some of its operand registers: a register given `none` keeps its own. -/
def State.setArgs (s : State) (a0 a1 a2 a3 : Option Word) : State :=
  { s with arg0 := a0.getD s.arg0, arg1 := a1.getD s.arg1, arg2 := a2.getD s.arg2, arg3 := a3.getD s.arg3 }

/-- Started from `s` or from `s` with other operands, `f` ends in one state but for those operands, which stay. -/
def IgnoresArgs (f : State → Host.Outcome State Fault Refusal) (s : State) (a0 a1 a2 a3 : Option Word) : Prop :=
  ∃ t, f s = .next t ∧ f (s.setArgs a0 a1 a2 a3) = .next (t.setArgs a0 a1 a2 a3)

section
variable (s : State) (a0 a1 a2 a3 : Option Word)

@[simp] theorem State.setArgs_build : (s.setArgs a0 a1 a2 a3).build = s.build := rfl
@[simp] theorem State.setArgs_arg0 : (s.setArgs a0 a1 a2 a3).arg0 = a0.getD s.arg0 := rfl
@[simp] theorem State.setArgs_arg1 : (s.setArgs a0 a1 a2 a3).arg1 = a1.getD s.arg1 := rfl
@[simp] theorem State.setArgs_arg2 : (s.setArgs a0 a1 a2 a3).arg2 = a2.getD s.arg2 := rfl
@[simp] theorem State.setArgs_eng : (s.setArgs a0 a1 a2 a3).eng = s.eng := rfl
@[simp] theorem State.setArgs_mem : (s.setArgs a0 a1 a2 a3).mem = s.mem := rfl
@[simp] theorem State.setArgs_renderArgsOk : (s.setArgs none none none a3).renderArgsOk = s.renderArgsOk := rfl

variable {s a0 a1 a2 a3} {f : State → Host.Outcome State Fault Refusal}

/-- An error is the same error whatever the operands are. -/
theorem IgnoresArgs.of_cmdError {c : ErrCode} (h : f s = .next (s.cmdError c))
    (h' : f (s.setArgs a0 a1 a2 a3) = .next ((s.setArgs a0 a1 a2 a3).cmdError c)) : IgnoresArgs f s a0 a1 a2 a3 :=
  ⟨_, h, h'⟩

/-- A success that writes the same is the same success whatever the operands are. -/
theorem IgnoresArgs.of_complete {e : Engine} {m : Memory} {r : Word}
    (h : f s = .next (State.complete { s with eng := e, mem := m } r))
    (h' : f (s.setArgs a0 a1 a2 a3)
      = .next (State.complete { s.setArgs a0 a1 a2 a3 with eng := e, mem := m } r)) : IgnoresArgs f s a0 a1 a2 a3 :=
  ⟨_, h, h'⟩

end

variable (s : State) (a0 a1 a2 a3 : Option Word)

theorem execDestroy_ignoresArgs : IgnoresArgs execDestroy s a0 a1 a2 a3 := by
  have ends := execDestroy_cases (s.setArgs a0 a1 a2 a3)
  rcases execDestroy_cases s with ⟨hl, h⟩ | ⟨hl, h⟩
  · exact .of_cmdError h (by simpa [hl] using ends)
  · exact .of_complete h (by simpa [hl] using ends)

theorem execCreate_ignoresArgs : IgnoresArgs execCreate s none a1 a2 a3 := by
  have ends := execCreate_cases (s.setArgs none a1 a2 a3)
  rcases execCreate_cases s with ⟨hl, h⟩ | ⟨hl, hq, h⟩ | ⟨q, hl, hq, h⟩
  · exact .of_cmdError h (by simpa [hl] using ends)
  · exact .of_cmdError h (by simpa [hl, hq] using ends)
  · exact .of_complete h (by simpa [hl, hq] using ends)

theorem execReset_ignoresArgs : IgnoresArgs execReset s none a1 a2 a3 := by
  have ends := execReset_cases (s.setArgs none a1 a2 a3)
  rcases execReset_cases s with ⟨hl, h⟩ | ⟨hl, hq, h⟩ | ⟨q, hl, hq, h⟩
  · exact .of_cmdError h (by simpa [hl] using ends)
  · exact .of_cmdError h (by simpa [hl, hq] using ends)
  · exact .of_complete h (by simpa [hl, hq] using ends)

theorem setter_ignoresArgs (operand : F32 → Option Int) (store : Engine → Word → Engine) :
    IgnoresArgs (setter operand store) s none a1 a2 a3 := by
  have ends := setter_cases (s.setArgs none a1 a2 a3) operand store
  rcases setter_cases s operand store with ⟨hl, h⟩ | ⟨hl, hv, h⟩ | ⟨v, hl, hv, h⟩
  · exact .of_cmdError h (by simpa [hl] using ends)
  · exact .of_cmdError h (by simpa [hl, hv] using ends)
  · exact .of_complete h (by simpa [hl, hv] using ends)

theorem execRender_ignoresArgs : IgnoresArgs execRender s none none none a3 := by
  have ends := execRender_cases (s.setArgs none none none a3)
  rcases execRender_cases s with ⟨hl, h⟩ | ⟨hl, hok, h⟩ | ⟨hl, hok, h⟩
  · exact .of_cmdError h (by simpa [hl] using ends)
  · exact .of_cmdError h (by simpa [hl, hok] using ends)
  · exact .of_complete h (by simpa [hl, hok] using ends)

/-- NOP and DESTROY use no operand (30_encoding.md R71). -/
theorem exec_ignoresArgs_of_no_operand (hi : i ∈ [Instr.nop, .destroy]) : IgnoresArgs (exec i) s a0 a1 a2 a3 := by
  cases i with
  | nop => exact .of_complete (execNop_eq s) (execNop_eq _)
  | destroy => exact execDestroy_ignoresArgs s a0 a1 a2 a3
  | _ => simp at hi

/-- CREATE, RESET and the setters use ARG0 only (30_encoding.md R71). -/
theorem exec_ignoresArgs_of_one_operand
    (hi : i ∈ [Instr.create, .reset, .setGain, .setCutBase, .setCutSpan, .setDrive, .setOutGain, .setDetune]) :
    IgnoresArgs (exec i) s none a1 a2 a3 := by
  cases i with
  | create => exact execCreate_ignoresArgs s a1 a2 a3
  | reset => exact execReset_ignoresArgs s a1 a2 a3
  | setGain | setCutBase | setCutSpan | setDrive | setOutGain | setDetune => exact setter_ignoresArgs s a1 a2 a3 _ _
  | _ => simp at hi

end Sys2Proof.Machine
end

section
/-! The statements about the command words, spec/30_encoding.md. -/

namespace Sys2Proof.Machine

/-- Settles O2: a word is its two fields, and the checks of well-formedness are the decoder's of each. -/
theorem decodeIsExactlyEncode : Obligations.DecodeIsExactlyEncode :=
  ⟨fun _ _ => decode_eq_ok_iff, fun _ => exists_decode_iff, fun _ => decode_eq_reservedBits_iff⟩

/-- Settles O3: a word that is not well formed ends as ILLEGAL, and one that is decodes to the command whose word it
is. -/
theorem illegalWordCompletesWithErrcodeOne : Obligations.IllegalWordCompletesWithErrcodeOne := by
  intro s hr hb hn
  refine ⟨fun hw => step_of_illegal hr hb hn hw, fun hw => ?_⟩
  obtain ⟨i, hd⟩ := exists_decode_iff.2 hw
  exact ⟨i, (eq_encode_of_decode hd).symm, step_of_decode_ok hr hb hn hd⟩

/-- Settles O18: what decides the end of a command, and what the end writes, is read from the operands it uses. -/
theorem unusedOperandsHaveNoEffect : Obligations.UnusedOperandsHaveNoEffect := by
  intro s v0 v1 v2 v3
  exact ⟨fun i hi => exec_ignoresArgs_of_no_operand s (some v0) (some v1) (some v2) (some v3) hi,
    fun i hi => exec_ignoresArgs_of_one_operand s (some v1) (some v2) (some v3) hi,
    execRender_ignoresArgs s (some v3)⟩

/-- Settles O1: the 13 words are those of the encoder, and the two others fail one check each. -/
theorem specCommandWordsDecode : Obligations.SpecCommandWordsDecode :=
  ⟨decode_encode .nop, decode_encode .create, decode_encode .destroy, decode_encode .reset, decode_encode .render,
    decode_encode .setGain, decode_encode .setCutBase, decode_encode .setCutSpan, decode_encode .setDrive,
    decode_encode .setOutGain, decode_encode .setDetune, decode_encode .mixg, decode_encode .sineg, rfl, rfl⟩

/-- Settles O4: the turn is the COMPLETE of the pending word, which runs the command it decodes to. -/
theorem stepRunsDecodedCommand : Obligations.StepRunsDecodedCommand :=
  fun _ _ hr hb hn hd => step_of_decode_ok hr hb hn hd

end Sys2Proof.Machine
end

section
/-! SUPPORT. What the statements about the primitives are proved from: binary32 decode and encode by their fields, the
rounded division by its bounds, and the shapes of SIN, EXP2R, LPFCOEF and SOFTCLIP. -/

namespace Sys2Proof.Machine

/-! ### Shifts and rounded division by their bounds -/

theorem asr_lt_iff {v b : Int} {k : Nat} : asr v k < b ↔ v < b * 2 ^ k :=
  Int.ediv_lt_iff_lt_mul (by positivity)

theorem asr_mul_two_pow (v : Int) (k : Nat) : asr (v * 2 ^ k) k = v :=
  Int.mul_ediv_cancel v (by positivity)

theorem le_rndiv_iff {a b k : Int} (hb : 0 < b) : k ≤ rndiv a b ↔ (2 * k - 1) * b ≤ 2 * a := by
  have hmul : k * (2 * b) = (2 * k - 1) * b + b := by ring
  rw [rndiv, Int.le_ediv_iff_mul_le (by omega), hmul]
  omega

theorem rndiv_le_iff {a b k : Int} (hb : 0 < b) : rndiv a b ≤ k ↔ 2 * a < (2 * k + 1) * b := by
  rw [← Int.lt_add_one_iff, ← not_le, le_rndiv_iff hb, not_le]
  ring_nf

/-- The result of the rounded division is off by half the divisor at most. -/
theorem two_mul_abs_rndiv_sub_le {a b : Int} (hb : 0 < b) : 2 * |rndiv a b * b - a| ≤ b := by
  have hnear := rndiv_spec (a := a) hb
  rcases abs_cases (rndiv a b * b - a) with ⟨habs, -⟩ | ⟨habs, -⟩ <;> omega

/-! ### F32DEC, TOFIX and FIXTOF32 -/

/-- F32DEC by the three fields of the pattern (40_primitives.md R92). -/
theorem f32dec_append (s : BitVec 1) (x : BitVec 8) (f : BitVec 23) :
    f32dec (s ++ x ++ f) =
      if x = 255 then
        if f ≠ 0 then .nan else if s = 0 then .posInf else .negInf
      else if x = 0 then .fin (if s = 0 then (f.toNat : Int) else -(f.toNat : Int)) (-149)
      else .fin (if s = 0 then (2 ^ 23 + f.toNat : Int) else -(2 ^ 23 + f.toNat : Int)) ((x.toNat : Int) - 150) := by
  obtain ⟨hs, hx, hf⟩ := f32dec_fields s x f
  have hx255 : x.toNat = 255 ↔ x = 255 := (BitVec.toNat_eq (y := 255)).symm
  have hx0 : x.toNat = 0 ↔ x = 0 := (BitVec.toNat_eq (y := 0)).symm
  have hf0 : f.toNat = 0 ↔ f = 0 := (BitVec.toNat_eq (y := 0)).symm
  have hsign : s.getLsbD 0 = true ↔ ¬ s = 0 := by
    rcases BitVec.eq_zero_or_eq_one s with rfl | rfl <;> decide
  simp only [f32dec, hs, hx, hf, hx255, hx0, hf0, hsign, ne_eq, ite_not, Nat.cast_add, Nat.cast_pow, Nat.cast_ofNat]
  split_ifs <;> rfl

theorem toFix_of_nonneg {m e : Int} {f : Nat} (h : 0 ≤ e + f) : toFix m e f = m * 2 ^ (e + f).toNat := if_pos h

theorem toFix_of_neg {m e : Int} {f : Nat} (h : e + f < 0) : toFix m e f = rneShift m (-(e + f)).toNat :=
  if_neg (not_le.2 h)

/-- The fraction field of FIXTOF32 for the magnitude `m` (40_primitives.md R94). -/
def fracField (m : Nat) : Nat := if m.log2 ≤ 23 then m * 2 ^ (23 - m.log2) % 2 ^ 23 else 0

theorem fixToF32_of_ne_zero {z : Int} (hz : z ≠ 0) :
    fixToF32 z = BitVec.ofBool (decide (z < 0)) ++ BitVec.ofNat 8 (z.natAbs.log2 + 103)
      ++ BitVec.ofNat 23 (fracField z.natAbs) := if_neg hz

theorem fracField_lt (m : Nat) : fracField m < 2 ^ 23 := by
  unfold fracField
  split
  · exact Nat.mod_lt _ (by norm_num)
  · norm_num

/-- The hidden bit and the fraction field are the magnitude shifted up to 24 bits: no bit of it is lost. -/
theorem significand_mul {m : Nat} (h0 : m ≠ 0) (h1 : m ≤ 2 ^ 24) :
    (2 ^ 23 + fracField m) * 2 ^ (m.log2 + 102) = m * 2 ^ 125 := by
  have hlow := Nat.log2_self_le h0
  have hhigh := Nat.lt_log2_self (n := m)
  unfold fracField
  generalize m.log2 = e at *
  split
  case isTrue he =>
    have hmin : 2 ^ 23 ≤ m * 2 ^ (23 - e) :=
      calc 2 ^ 23 = 2 ^ e * 2 ^ (23 - e) := by rw [← pow_add, Nat.add_sub_cancel' he]
        _ ≤ m * 2 ^ (23 - e) := Nat.mul_le_mul_right _ hlow
    have hmax : m * 2 ^ (23 - e) < 2 ^ 24 :=
      calc m * 2 ^ (23 - e) < 2 ^ (e + 1) * 2 ^ (23 - e) := Nat.mul_lt_mul_of_pos_right hhigh (by positivity)
        _ = 2 ^ 24 := by rw [← pow_add]; congr 1; omega
    have hfrac : 2 ^ 23 + m * 2 ^ (23 - e) % 2 ^ 23 = m * 2 ^ (23 - e) := by omega
    rw [hfrac, mul_assoc, ← pow_add]
    congr 2
    omega
  case isFalse he =>
    have hm : m = 2 ^ 24 := le_antisymm h1 (le_trans (Nat.pow_le_pow_right (by norm_num) (by omega)) hlow)
    have he24 : e = 24 := by
      have : e < 25 := (Nat.pow_lt_pow_iff_right (a := 2) (by norm_num)).1 (by omega)
      omega
    rw [hm, he24]
    norm_num

/-- FIXTOF32 of a `z` other than 0 is the normal number with the bits of `z` (40_primitives.md R94). -/
theorem f32dec_fixToF32_of_ne_zero {z : Int} (hz : z ≠ 0) (h1 : -ONE ≤ z) (h2 : z ≤ ONE) :
    ∃ m e, f32dec (fixToF32 z) = .fin m e ∧ -149 ≤ e ∧ m * 2 ^ (e + 149).toNat = z * 2 ^ 125 := by
  have habs0 : z.natAbs ≠ 0 := Int.natAbs_ne_zero.2 hz
  have habs1 : z.natAbs ≤ 2 ^ 24 := by simp only [ONE] at h1 h2; omega
  have hlog : z.natAbs.log2 ≤ 24 := Nat.le_of_lt_succ ((Nat.log2_lt habs0).2 (by omega))
  have hexp : (BitVec.ofNat 8 (z.natAbs.log2 + 103)).toNat = z.natAbs.log2 + 103 := by
    rw [BitVec.toNat_ofNat]; omega
  have hfrac : (BitVec.ofNat 23 (fracField z.natAbs)).toNat = fracField z.natAbs := by
    rw [BitVec.toNat_ofNat, Nat.mod_eq_of_lt (fracField_lt _)]
  have hx255 : BitVec.ofNat 8 (z.natAbs.log2 + 103) ≠ 255 := fun h => by
    rw [BitVec.toNat_eq, hexp] at h; simp at h; omega
  have hx0 : BitVec.ofNat 8 (z.natAbs.log2 + 103) ≠ 0 := fun h => by
    rw [BitVec.toNat_eq, hexp] at h; simp at h
  have hsig : (2 ^ 23 + (fracField z.natAbs : Int)) * 2 ^ (z.natAbs.log2 + 102) = z.natAbs * 2 ^ 125 := by
    exact_mod_cast significand_mul habs0 habs1
  have hscale : (((z.natAbs.log2 + 103 : Nat) : Int) - 150 + 149).toNat = z.natAbs.log2 + 102 := by omega
  rw [fixToF32_of_ne_zero hz, f32dec_append, if_neg hx255, if_neg hx0, hexp, hfrac]
  refine ⟨_, _, rfl, by omega, ?_⟩
  rw [hscale]
  rcases lt_or_gt_of_ne hz with hneg | hpos
  · have hmag : -(z.natAbs : Int) = z := by omega
    rw [decide_eq_true hneg, if_neg (by decide), neg_mul, hsig, ← neg_mul, hmag]
  · have hmag : (z.natAbs : Int) = z := by omega
    rw [decide_eq_false hpos.le.not_gt, if_pos (by decide), hsig, hmag]

theorem fixToF32_zero : fixToF32 0 = 0 := rfl

theorem f32dec_zero : f32dec 0 = .fin 0 (-149) := rfl

/-- -0.0 decodes to the mantissa 0, as +0.0 does. -/
theorem f32dec_negZero : f32dec 0x80000000 = .fin 0 (-149) := rfl

/-! ### DERIVE -/

/-- DERIVE's quotient for `ksm` at 50 ms lies well inside its clamp for a legal rate (40_primitives.md R95). -/
theorem ksmOf_fifty_bounds {q : Int} (h1 : FS_MIN_Q ≤ q) (h2 : q ≤ FS_MAX_Q) :
    4024 ≤ ksmOf 50 q ∧ ksmOf 50 q ≤ 193154 := by
  simp only [FS_MIN_Q, FS_MAX_Q] at h1 h2
  have hpos : (0 : Int) < ((50 : Nat) : Int) * q := by omega
  have hlow : 4024 ≤ C_LN100 * 2 ^ 8 / (((50 : Nat) : Int) * q) :=
    (Int.le_ediv_iff_mul_le hpos).2 (by simp only [C_LN100]; omega)
  have hhigh : C_LN100 * 2 ^ 8 / (((50 : Nat) : Int) * q) < 193155 :=
    (Int.ediv_lt_iff_lt_mul hpos).2 (by simp only [C_LN100]; omega)
  have hksm : ksmOf 50 q = C_LN100 * 2 ^ 8 / (((50 : Nat) : Int) * q) :=
    sat_of_mem (by omega) (by simp only [ONE]; omega)
  rw [hksm]
  omega

/-! ### SIN and DRIFT -/

/-- SIN's magnitude at the folded phase `x`: the odd quintic in Q2.30, rounded to Q8.24 (40_primitives.md R97). -/
def sinMag (x : Int) : Int :=
  let u2 := asr (x * x) 30
  sat (asr (asr (x * (C1 + asr ((C3 + asr (C5 * u2) 30) * u2) 30)) 30 + 32) 6) 0 ONE

/-- The phase folded into the first quarter cycle: an odd quadrant `q` is run through backwards from its end. -/
def foldedPhase (q f : Nat) : Int := if q = 0 ∨ q = 2 then f else 2 ^ 30 - f

/-- SIN by the quadrant of the phase and the place in it: the upper two quadrants change the sign. -/
theorem sinQ_eq (p : Word) :
    sinQ p = if p.toNat / 2 ^ 30 = 0 ∨ p.toNat / 2 ^ 30 = 1
      then sinMag (foldedPhase (p.toNat / 2 ^ 30) (p.toNat % 2 ^ 30))
      else -sinMag (foldedPhase (p.toNat / 2 ^ 30) (p.toNat % 2 ^ 30)) := by
  unfold sinQ
  generalize p.toNat / 2 ^ 30 = q
  generalize p.toNat % 2 ^ 30 = f
  rfl

/-- Half a cycle further the phase has the same place in its quadrant, two quadrants on. -/
theorem quadrant_add_half (p : Word) :
    (p + 0x80000000).toNat % 2 ^ 30 = p.toNat % 2 ^ 30
      ∧ (p + 0x80000000).toNat / 2 ^ 30 = (p.toNat / 2 ^ 30 + 2) % 4 := by
  have hp := p.isLt
  have hsum : (p + 0x80000000).toNat = (p.toNat + 2147483648) % 2 ^ 32 := BitVec.toNat_add p 0x80000000
  omega

theorem sinQ_add_half (p : Word) : sinQ (p + 0x80000000) = -sinQ p := by
  obtain ⟨hplace, hquad⟩ := quadrant_add_half p
  have hp : p.toNat / 2 ^ 30 < 4 := by have := p.isLt; omega
  rw [sinQ_eq, sinQ_eq, hplace, hquad]
  generalize p.toNat / 2 ^ 30 = q at hp
  interval_cases q <;> simp [foldedPhase]

theorem sinQ_zero : sinQ 0 = 0 := by decide

theorem sinQ_quarter : sinQ 0x40000000 = ONE := by decide

/-- DRIFT advances the phase by a quarter cycle, modulo one cycle (40_primitives.md R108). -/
theorem drift_eq (p : Word) : drift p = 768 * sinQ (p + 0x40000000) / 2 ^ 24 := by
  have hquarter : wrap32 (zext32 p + QUARTER) = p + 0x40000000 := wrap32_add p 0x40000000
  rw [drift, hquarter, asr_def]

/-! ### EXP2R and INC2 -/

/-- EXP2R's cubic for `2^f` on the fraction `f` of an octave, in Q2.30 (40_primitives.md R98). -/
def exp2Cubic (f : Int) : Int :=
  2 ^ 30 + asr ((B1 + asr ((B2 + asr (B3 * f) 30) * f) 30) * f) 30

/-- EXP2R splits `c` into its whole octaves and the cubic of the fraction that is left. -/
theorem exp2r_eq (c : Int) :
    exp2r c = (exp2Cubic (c * 2 ^ 30 / CENT_DIV - c / CENT_DIV * 2 ^ 30), c / CENT_DIV) := by
  have hoct : asr (c * 2 ^ 30 / CENT_DIV) 30 = c / CENT_DIV := by
    simp only [asr_def, CENT_DIV]
    omega
  rw [← hoct]
  rfl

theorem exp2Cubic_zero : exp2Cubic 0 = 2 ^ 30 := by decide

/-- The cubic lies below the chord `1 + f`, its coefficients being positive with the sum 1. -/
theorem exp2Cubic_le {f : Int} (h0 : 0 ≤ f) (h1 : f ≤ 2 ^ 30) : exp2Cubic f ≤ 2 ^ 30 + f := by
  simp only [exp2Cubic, B1, B2, B3]
  have hr1 := horner_bounds (b := 241534262) (r := 84960057) (by norm_num) le_rfl h0 h1
  have hr2 := horner_bounds (b := 747247505) (by omega) hr1.2 h0 h1
  have hlast : asr ((747247505 + asr ((241534262 + asr (84960057 * f) 30) * f) 30) * f) 30 < f + 1 :=
    asr_lt_iff.2 (by nlinarith)
  omega

/-- At a whole number of octaves the fraction is 0, and EXP2R is exact (40_primitives.md R98). -/
theorem exp2r_whole_octaves (k : Int) : exp2r (CENT_DIV * k) = (2 ^ 30, k) := by
  have hoct : CENT_DIV * k / CENT_DIV = k := Int.mul_ediv_cancel_left k (by norm_num)
  have hfrac : CENT_DIV * k * 2 ^ 30 / CENT_DIV - k * 2 ^ 30 = 0 := by simp only [CENT_DIV]; omega
  rw [exp2r_eq, hoct, hfrac, exp2Cubic_zero]

/-- The unwrapped companion increment is below 2^27 on RENDER's domain (40_primitives.md R99): the domain
ends 3 cents above two octaves, and below two octaves the shift is at least 29. -/
theorem companion_increment_lt {i c : Int} (hi : i ≤ 29527900) (hc : c ≤ 615168) :
    asr (i * (exp2r c).1) (30 - (exp2r c).2).toNat < 2 ^ 27 := by
  obtain ⟨hmin, hmax, -⟩ := exp2r_bounds c
  have hfrac : (exp2r c).1 ≤ 2 ^ 30 + (c * 2 ^ 30 / CENT_DIV - c / CENT_DIV * 2 ^ 30) := by
    rw [exp2r_eq]
    apply exp2Cubic_le <;> simp only [CENT_DIV] <;> omega
  have hoct : (exp2r c).2 = c / CENT_DIV := congrArg Prod.snd (exp2r_eq c)
  generalize (exp2r c).1 = r at *
  generalize (exp2r c).2 = n at *
  simp only [CENT_DIV] at hoct hfrac
  refine asr_lt_iff.2 ?_
  rcases (by omega : n = 2 ∨ n ≤ 1) with rfl | hn
  · have hr : r ≤ 1076426180 := by omega
    have hprod : i * r ≤ 29527900 * 1076426180 := mul_le_mul hi hr (by omega) (by norm_num)
    have hshift : (30 - (2 : Int)).toNat = 28 := rfl
    rw [hshift]
    omega
  · have hprod : i * r ≤ 29527900 * 2 ^ 31 := mul_le_mul hi hmax (by omega) (by norm_num)
    have hshift : (2 : Int) ^ 29 ≤ 2 ^ (30 - n).toNat := pow_le_pow_right₀ (by norm_num) (by omega)
    omega

/-! ### The filter -/

/-- CUTOFF is a clamp (40_primitives.md R107). -/
theorem cutoff_eq {fsQ : Int} (cb cs lfo : Int) (h : FS_MIN_Q ≤ fsQ) :
    cutoff cb cs lfo fsQ = max 5120 (min (cb + cs * lfo / 2 ^ 24) (fsQ / 2 - 1)) := by
  have hmax : fcMax fsQ = fsQ / 2 - 1 := rfl
  have hrange : FC_MIN_Q ≤ fcMax fsQ := by rw [hmax]; simp only [FS_MIN_Q, FC_MIN_Q] at *; omega
  rw [cutoff, sat_eq_max_min hrange, hmax, asr_def]

/-- LPFCOEF by the inequalities of its floor (40_primitives.md R100). -/
theorem lpfCoef_floor {fc fsQ : Int} (hpos : 0 < fsQ * 2 ^ 16 + fc * 411775) :
    lpfCoef fc fsQ * (fsQ * 2 ^ 16 + fc * 411775) ≤ ONE * (fc * 411775)
      ∧ ONE * (fc * 411775) < (lpfCoef fc fsQ + 1) * (fsQ * 2 ^ 16 + fc * 411775) :=
  ⟨Int.ediv_mul_le _ hpos.ne', Int.lt_ediv_add_one_mul_self _ hpos⟩

/-- LPFCOEF is at least one LSB from 20 Hz on (40_primitives.md R100). -/
theorem lpfCoef_pos {fc fsQ : Int} (hfs0 : 0 ≤ fsQ) (hfs : fsQ ≤ FS_MAX_Q) (hfc : 5120 ≤ fc) :
    0 < lpfCoef fc fsQ := by
  refine (Int.le_ediv_iff_mul_le ?_).2 ?_ <;> simp only [ONE, TWOPI_Q16, FS_MAX_Q] at * <;> omega

/-- Below Nyquist `P / (fs_q * 2^16 + P)` is below 411775 / 542847, and so LPFCOEF below 0.7586. -/
theorem lpfCoef_lt {fc fsQ : Int} (hfc : 0 < fc) (hnyq : 2 * fc < fsQ) :
    10000 * lpfCoef fc fsQ < 7586 * ONE := by
  have hpos : 0 < fsQ * 2 ^ 16 + fc * 411775 := by omega
  have hfloor := (lpfCoef_floor hpos).1
  have hratio : 10000 * (fc * 411775) < 7586 * (fsQ * 2 ^ 16 + fc * 411775) := by omega
  generalize fsQ * 2 ^ 16 + fc * 411775 = d at *
  refine lt_of_mul_lt_mul_right ?_ hpos.le
  calc 10000 * lpfCoef fc fsQ * d = 10000 * (lpfCoef fc fsQ * d) := mul_assoc _ _ _
    _ ≤ 10000 * (ONE * (fc * 411775)) := by omega
    _ < 7586 * ONE * d := by simp only [ONE]; omega

/-- The intermediates of one filter step (40_primitives.md R101). -/
theorem lpf_intermediates {y x a : Int} (h0 : 0 ≤ a) (h1 : a < ONE) (hy : |y| ≤ ONE) (hx : |x| ≤ ONE) :
    |x - y| ≤ 2 ^ 25 ∧ |a * (x - y)| < 2 ^ 49 := by
  have hdiff : |x - y| ≤ 2 ^ 25 := by
    rw [abs_le] at *; simp only [ONE] at *; omega
  refine ⟨hdiff, ?_⟩
  calc |a * (x - y)| = a * |x - y| := by rw [abs_mul, abs_of_nonneg h0]
    _ ≤ (ONE - 1) * 2 ^ 25 := mul_le_mul (by omega) hdiff (abs_nonneg _) (by norm_num)
    _ < 2 ^ 49 := by norm_num

/-! ### SOFTCLIP -/

theorem softClip_zero : softClip 0 = 0 := by decide

/-- SOFTCLIP is computed on the magnitude, so it is exactly odd (40_primitives.md R102). -/
theorem softClip_neg (u : Int) : softClip (-u) = -softClip u := by
  rcases lt_trichotomy u 0 with hu | rfl | hu
  · simp [softClip, hu, hu.le]
  · rw [neg_zero, softClip_zero, neg_zero]
  · simp [softClip, hu, hu.le]

theorem softClip_of_ge {u : Int} (h : ONE ≤ u) : softClip u = ONE := by
  have habs : (u.natAbs : Int) ≥ ONE := by omega
  have hu : ¬ u < 0 := by simp only [ONE] at h; omega
  simp only [softClip, if_pos habs, if_neg hu]

/-! ### SMOOTH -/

theorem smooth_target {tgt k : Int} : smooth tgt tgt k = tgt := by simp [smooth]

/-- Away from the target a SMOOTH step comes nearer by at least 1 (40_primitives.md R103 item 2). -/
theorem abs_sub_smooth_le {cur tgt k : Int} (h1 : 1 ≤ k) (h2 : k ≤ ONE) (hne : cur ≠ tgt) :
    |tgt - smooth cur tgt k| ≤ |tgt - cur| - 1 := by
  rcases smooth_spec (cur := cur) (tgt := tgt) h1 h2 with ⟨h, -⟩ | ⟨h, hstep, hle⟩ | ⟨h, hge, hstep⟩
  · exact absurd h.symm hne
  · rw [abs_of_nonneg (by omega), abs_of_pos (by omega)]; omega
  · rw [abs_of_nonpos (by omega), abs_of_neg (by omega)]; omega

/-- As many SMOOTH steps as the distance, or more, end at the target (40_primitives.md R103 item 3). -/
theorem smooth_iterate {tgt k : Int} (h1 : 1 ≤ k) (h2 : k ≤ ONE) (n : Nat) :
    ∀ cur : Int, |tgt - cur| ≤ n → (fun c => smooth c tgt k)^[n] cur = tgt := by
  induction n with
  | zero =>
    intro cur hdist
    have := abs_nonpos_iff.1 hdist
    exact (sub_eq_zero.1 this).symm
  | succ n ih =>
    intro cur hdist
    rw [Function.iterate_succ_apply]
    refine ih _ ?_
    rcases eq_or_ne cur tgt with rfl | hne
    · rw [smooth_target, sub_self, abs_zero]
      omega
    · have := abs_sub_smooth_le h1 h2 hne
      omega

/-! ### GAINMUL, MAC and SAT32 -/

/-- A product of a sample and a gain stays below 2^63, whether the gain is unsigned or signed
(40_primitives.md R104). -/
theorem abs_product_lt {x g : Int} (hx : |x| ≤ 2 ^ 31) (hg : |g| ≤ 2 ^ 32 - 1) : |x * g| < 2 ^ 63 :=
  calc |x * g| = |x| * |g| := abs_mul x g
    _ ≤ 2 ^ 31 * (2 ^ 32 - 1) := mul_le_mul hx hg (abs_nonneg _) (by norm_num)
    _ < 2 ^ 63 := by norm_num

theorem abs_sext32_le (w : Word) : |sext32 w| ≤ 2 ^ 31 := by
  have := sext32_bounds w
  rw [abs_le]
  omega

theorem abs_zext32_le (w : Word) : |zext32 w| ≤ 2 ^ 32 - 1 := by
  obtain ⟨h0, h1⟩ := zext32_bounds w
  rw [abs_of_nonneg h0]
  omega

theorem gainMul_one (x : Int) : gainMul x ONE = x := asr_mul_two_pow x 24

theorem gainMul_zero (x : Int) : gainMul x 0 = 0 := by simp [gainMul, asr_def]

end Sys2Proof.Machine
end

section
/-! The statements about the primitives, spec/40_primitives.md. -/

namespace Sys2Proof.Machine

/-- Settles O48: a pattern is its three fields, and F32DEC reads nothing else. -/
theorem binaryDecode : Obligations.BinaryDecode := f32dec_append

/-- Settles O49: where `e + f` is negative the rounding shift does it, and there is nothing to round elsewhere. -/
theorem toFixRoundsToNearestEven : Obligations.ToFixRoundsToNearestEven := by
  intro m e f
  refine ⟨toFix_of_nonneg, fun h => ?_⟩
  rw [toFix_of_neg h]
  obtain ⟨hup, hdown, htie⟩ := rneShift_spec m (-(e + f)).toNat
  exact ⟨hup, by omega, fun ht => htie (by omega)⟩

/-- Settles O50: the significand holds every bit of `z`; and the pattern of -0.0 decodes to 0, so no other `z` can
have it. -/
theorem fixToF32IsExact : Obligations.FixToF32IsExact := by
  refine ⟨fixToF32_zero, fun z h1 h2 => ?_⟩
  rcases eq_or_ne z 0 with rfl | hz
  · rw [fixToF32_zero]
    exact ⟨by decide, 0, -149, f32dec_zero, le_rfl, by norm_num⟩
  · obtain ⟨m, e, hdec, he, hval⟩ := f32dec_fixToF32_of_ne_zero hz h1 h2
    refine ⟨fun hneg => ?_, m, e, hdec, he, hval⟩
    rw [hneg, f32dec_negZero] at hdec
    cases hdec
    omega

/-- Settles O52: both increments and `ksm` fall with the rate, so each bound is a linear one in the rate. -/
theorem derivedCoefficientRanges : Obligations.DerivedCoefficientRanges := by
  intro q h1 h2
  have hpos : 0 < q := lt_of_lt_of_le (by norm_num) h1
  obtain ⟨hksm, hksm'⟩ := ksmOf_fifty_bounds h1 h2
  simp only [FS_MIN_Q, FS_MAX_Q] at h1 h2
  refine ⟨(le_rndiv_iff hpos).2 ?_, (rndiv_le_iff hpos).2 ?_, (le_rndiv_iff hpos).2 ?_, (rndiv_le_iff hpos).2 ?_,
    two_mul_abs_rndiv_sub_le hpos, two_mul_abs_rndiv_sub_le hpos, hksm, hksm', fun t => ksmOf_bounds t q⟩
  all_goals simp only [BASE_Q, LFO_Q]; omega

/-- Settles O53: half a cycle moves the phase by two quadrants, which only changes the sign. -/
theorem sineRangeAndSymmetry : Obligations.SineRangeAndSymmetry := by
  refine ⟨sinQ_bounds, sinQ_add_half, sinQ_zero, sinQ_quarter, ?_, ?_⟩
  · calc sinQ 0x80000000 = -sinQ 0 := sinQ_add_half 0
      _ = 0 := by rw [sinQ_zero, neg_zero]
  · calc sinQ 0xC0000000 = -sinQ 0x40000000 := sinQ_add_half 0x40000000
      _ = -ONE := by rw [sinQ_quarter]

/-- Settles O54: the octave count is the floor of `c / CENT_DIV`, and DRIFT at phase 0 is the sine's peak. -/
theorem centsToRatio : Obligations.CentsToRatio := by
  refine ⟨fun c => ?_, fun c h1 h2 => ?_, exp2r_whole_octaves, fun p => ⟨drift_eq p, drift_bounds p⟩, ?_⟩
  · obtain ⟨hlow, hhigh, -⟩ := exp2r_bounds c
    exact ⟨hlow, hhigh⟩
  · rw [exp2r_eq]
    simp only [CENT_DIV]
    omega
  · rw [drift_eq, zero_add, sinQ_quarter]
    rfl

/-- Settles O55: the increment before the wrap is not negative and below 2^27, so the wrap keeps it. -/
theorem companionIncrementDoesNotWrap : Obligations.CompanionIncrementDoesNotWrap := by
  intro inc1 c hinc _ hc
  have hinc0 := (zext32_bounds inc1).1
  have hlt := companion_increment_lt hinc hc
  have hnonneg : 0 ≤ asr (zext32 inc1 * (exp2r c).1) (30 - (exp2r c).2).toNat :=
    asr_nonneg (mul_nonneg hinc0 (le_trans (by norm_num) (exp2r_bounds c).1))
  have heq : zext32 (inc2Of inc1 c) = asr (zext32 inc1 * (exp2r c).1) (30 - (exp2r c).2).toNat :=
    zext32_wrap32_of_mem hnonneg (by omega)
  exact ⟨heq, by rwa [heq]⟩

/-- Settles O56: the clamp keeps the cutoff where the coefficient's bounds hold. -/
theorem cutoffAndCoefficientRanges : Obligations.CutoffAndCoefficientRanges := by
  intro fsQ h1 h2
  have hpos : 0 < fsQ := lt_of_lt_of_le (by norm_num) h1
  refine ⟨fun cb cs lfo => ?_, fun fc hmin hmax => ?_⟩
  · obtain ⟨hmin, hmax⟩ : 5120 ≤ cutoff cb cs lfo fsQ ∧ cutoff cb cs lfo fsQ ≤ fsQ / 2 - 1 :=
      cutoff_bounds cb cs lfo h1
    have hlt := (lpfCoef_bounds (fc := cutoff cb cs lfo fsQ) (by omega) hpos).2
    have heq := cutoff_eq cb cs lfo h1
    exact ⟨heq, fun hlo hhi => by rw [heq, min_eq_left hhi, max_eq_right hlo], hmin, by omega,
      lpfCoef_pos hpos.le h2 hmin, hlt⟩
  · obtain ⟨hfloor, hfloor'⟩ := lpfCoef_floor (fc := fc) (fsQ := fsQ) (by omega)
    exact ⟨hfloor, hfloor', lpfCoef_pos hpos.le h2 hmin, lpfCoef_lt (by omega) (by omega)⟩

/-- Settles O57: a step between `y` and `x` stays in the range both lie in. -/
theorem filterStepStaysBetween : Obligations.FilterStepStaysBetween := by
  refine fun y x a => ⟨rfl, fun h0 h1 => ?_⟩
  have hbetween := lpf_between (y := y) (x := x) h0 h1
  refine ⟨hbetween, fun hy hx => ⟨?_, lpf_intermediates h0 h1 hy hx⟩⟩
  rw [abs_le] at *
  omega

/-- Settles O58: from ONE on the clip is ONE by its first case, and at `ONE - 1` the cubic rounds to it. -/
theorem softClipBoundedAndOdd : Obligations.SoftClipBoundedAndOdd := by
  refine ⟨softClip_bounds, softClip_neg, fun u hu => ?_, softClip_zero, by decide⟩
  rcases (by omega : u = ONE - 1 ∨ ONE ≤ u) with rfl | h
  · decide
  · exact softClip_of_ge h

/-- Settles O59: each step shortens the distance by at least 1, so the distance bounds the number of steps. -/
theorem smootherConverges : Obligations.SmootherConverges :=
  fun cur _ _ h1 h2 =>
    ⟨smooth_between h1 h2, abs_sub_smooth_le h1 h2, smooth_target, fun n => smooth_iterate h1 h2 n cur⟩

/-- Settles O60: GAINMUL is the shift's floor, and the words' ranges bound the products. -/
theorem gainAndSaturation : Obligations.GainAndSaturation := by
  refine ⟨fun x g _ => ?_, by decide, by decide, fun x g => ⟨?_, ?_⟩, fun v => sat_eq_max_min (by norm_num)⟩
  · obtain ⟨hfloor, hfloor'⟩ := asr_spec (x * g) 24
    exact ⟨hfloor, hfloor', gainMul_one x, gainMul_zero x, rfl⟩
  · exact abs_product_lt (abs_sext32_le x) (abs_zext32_le g)
  · exact abs_product_lt (abs_sext32_le x) (le_trans (abs_sext32_le g) (by norm_num))

end Sys2Proof.Machine
end

section
/-! SUPPORT. What the statements about the lifecycle commands are proved from: a completion and the engine states of
CREATE and RESET written out field by field, the one end each command has in each case, and FSVALID of a finite
operand. -/

namespace Sys2Proof.Machine

variable {s : State} {q : Int}

/-! ### The results, field by field -/

/-- The completion record of a success, with nothing else changed (60_exceptions.md R175). -/
theorem State.complete_eq (s : State) (r : Word) :
    s.complete r =
      { s with result := r, pend := 0, status := { s.status with errcode := .ok, done := true, busy := false } } := rfl

/-- What RESET makes of the engine state: the rate, its coefficients, and the quiescent fields. -/
theorem Engine.quiesce_derive_eq (e : Engine) (t99Ms : Nat) (q : Int) :
    (e.derive t99Ms q).quiesce =
      { e with
        fsQ := wrap32 q, inc1 := wrap32 (rndiv (BASE_Q * 2 ^ 32) q), incLfo := wrap32 (rndiv (LFO_Q * 2 ^ 32) q),
        ksm := wrap32 (sat (C_LN100 * 2 ^ 8 / ((t99Ms : Int) * q)) 1 ONE),
        ph1 := 0, ph2 := 0, modph := 0, y := 0 } := rfl

/-- The default scene (41_lifecycle.md R123). -/
theorem Scene.default_eq :
    Scene.default = { cutBase := 204800, cutSpan := 153600, drive := 25165824, outGain := 8388608, detune := 1792 } :=
  rfl

/-! ### The end of each command in each case -/

theorem exec_create_of_ready (hl : s.eng.life = .ready) : exec .create s = .next (s.cmdError .state) := by
  simp [exec, execCreate, hl]

theorem exec_create_of_bad_rate (hl : s.eng.life = .uninit) (hq : fsValid (f32dec s.arg0) = none) :
    exec .create s = .next (s.cmdError .arg) := by
  simp [exec, execCreate, hl, hq]

theorem exec_create_of_rate (hl : s.eng.life = .uninit) (hq : fsValid (f32dec s.arg0) = some q) :
    exec .create s = .next (State.complete { s with eng := s.eng.created s.build.t99Ms q } 1) := by
  simp [exec, execCreate, hl, hq]

theorem exec_destroy_of_ready (hl : s.eng.life = .ready) :
    exec .destroy s = .next (State.complete { s with eng := Engine.zero } 0) := by
  simp [exec, execDestroy, hl]

theorem exec_reset_of_bad_rate (hl : s.eng.life = .ready) (hq : fsValid (f32dec s.arg0) = none) :
    exec .reset s = .next (s.cmdError .arg) := by
  simp [exec, execReset, hl, hq]

theorem exec_reset_of_rate (hl : s.eng.life = .ready) (hq : fsValid (f32dec s.arg0) = some q) :
    exec .reset s = .next (State.complete { s with eng := (s.eng.derive s.build.t99Ms q).quiesce } 0) := by
  simp [exec, execReset, hl, hq]

/-! ### The sample rate check -/

/-- FSVALID of a finite operand: the range test is on the rounded value (41_lifecycle.md R122). -/
theorem fsValid_fin_eq_some_iff {m e : Int} :
    fsValid (.fin m e) = some q ↔ 0 < m ∧ q = toFix m e 8 ∧ FS_MIN_Q ≤ q ∧ q ≤ FS_MAX_Q := by
  constructor
  · intro h
    obtain ⟨hmin, hmax⟩ := fsValid_range h
    simp only [fsValid] at h
    split_ifs at h with hm
    exact ⟨hm, (Option.some.inj h).symm, hmin, hmax⟩
  · rintro ⟨hm, rfl, hmin, hmax⟩
    simp only [fsValid]
    rw [if_pos hm, if_neg (not_or.2 ⟨not_lt.2 hmin, not_lt.2 hmax⟩)]

end Sys2Proof.Machine
end

section
/-! The statements about the lifecycle commands and the sample rate check, spec/41_lifecycle.md. -/

namespace Sys2Proof.Machine

/-- Settles O31: NOP is its completion record alone. -/
theorem nopResult : Obligations.NopResult := by
  intro s
  rw [← State.complete_eq]
  exact execNop_eq s

/-- Settles O32: the lifecycle state is tested before the rate, and the created engine keeps no field of the old. -/
theorem createResult : Obligations.CreateResult := by
  refine fun s => ⟨exec_create_of_ready, exec_create_of_bad_rate, fun q hl hq => ?_⟩
  rw [exec_create_of_rate hl hq, State.complete_eq, Engine.created, Engine.quiesce_derive_eq, Scene.default_eq]

/-- Settles O33: DESTROY is one of the commands that need READY, and there the engine becomes the zero engine. -/
theorem destroyResult : Obligations.DestroyResult := by
  refine fun s => ⟨exec_of_uninit (by simp), fun hl => ?_⟩
  rw [exec_destroy_of_ready hl, State.complete_eq, Engine.zero, Scene.zero]

/-- Settles O34: the fields that RESET does not re-derive or zero are those of the engine before it. -/
theorem resetCommandResult : Obligations.ResetCommandResult := by
  refine fun s => ⟨exec_of_uninit (by simp), exec_reset_of_bad_rate, fun q hl hq => ?_⟩
  rw [exec_reset_of_rate hl hq, State.complete_eq, Engine.quiesce_derive_eq]

/-- Settles O51: only a finite operand can pass, and its three tests are those of the statement. -/
theorem sampleRateCheck : Obligations.SampleRateCheck := by
  intro d q
  cases d with
  | nan | posInf | negInf => simp [fsValid]
  | fin m e =>
    rw [fsValid_fin_eq_some_iff]
    constructor
    · exact fun h => ⟨m, e, rfl, h⟩
    · rintro ⟨_, _, ⟨⟩, h⟩
      exact h

end Sys2Proof.Machine
end

section
/-! SUPPORT. What the statements about the setters are proved from: the value each operand check answers for each kind
of operand, and the two ends of the setters' template once the block is READY. -/

namespace Sys2Proof.Machine

/-! ### The operand checks, kind by kind -/

section
variable {m e : Int}

/-- In an unsigned 32-bit format a value that is not negative saturates at the top only (42_setters.md R131). -/
theorem sat_toFix_of_nonneg (hm : 0 ≤ m) (f : Nat) : sat (toFix m e f) 0 U32_MAX = min (toFix m e f) 4294967295 := by
  have hv : 0 ≤ min (toFix m e f) U32_MAX := le_min (toFix_nonneg hm) (by norm_num)
  rw [sat_eq_max_min (by norm_num), max_eq_right hv]

theorem gainOperand_of_nonneg (hm : 0 ≤ m) : gainOperand (.fin m e) = some (min (toFix m e 24) 4294967295) := by
  rw [gainOperand, if_pos hm, sat_toFix_of_nonneg hm]

theorem gainOperand_of_neg (hm : m < 0) : gainOperand (.fin m e) = none := if_neg (not_le.2 hm)

theorem cutBaseOperand_of_pos (hm : 0 < m) : cutBaseOperand (.fin m e) = some (min (toFix m e 8) 4294967295) := by
  rw [cutBaseOperand, if_pos hm, sat_toFix_of_nonneg hm.le]

theorem cutBaseOperand_of_nonpos (hm : m ≤ 0) : cutBaseOperand (.fin m e) = none := if_neg (not_lt.2 hm)

theorem cutSpanOperand_of_nonneg (hm : 0 ≤ m) : cutSpanOperand (.fin m e) = some (min (toFix m e 8) 4294967295) := by
  rw [cutSpanOperand, if_pos hm, sat_toFix_of_nonneg hm]

theorem cutSpanOperand_of_neg (hm : m < 0) : cutSpanOperand (.fin m e) = none := if_neg (not_le.2 hm)

theorem driveOperand_fin : driveOperand (.fin m e) = some (max 1677722 (min (toFix m e 24) 83886080)) := by
  rw [driveOperand, sat_eq_max_min (by norm_num)]

theorem detuneOperand_fin : detuneOperand (.fin m e) = some (max (-614400) (min (toFix m e 8) 614400)) := by
  rw [detuneOperand, sat_eq_max_min (by norm_num)]

end

/-! ### The ends of the setters' template -/

section
variable {s : State} {operand : F32 → Option Int} {store : Engine → Word → Engine} {d : F32} {v : Int}

/-- A setter in READY whose operand is refused ends with ARG (42_setters.md R130). -/
theorem setter_of_refused (hl : s.eng.life = .ready) (hd : f32dec s.arg0 = d) (ho : operand d = none) :
    setter operand store s = .next (s.cmdError .arg) := by
  simp [setter, hl, hd, ho]

/-- The refusals that SET_GAIN, SET_OUT_GAIN and the cutoff setters share: no finite value, or a negative one. -/
theorem setter_of_not_nonneg (hnan : operand .nan = none) (hpos : operand .posInf = none)
    (hneg : operand .negInf = none) (hfin : ∀ {m e}, m < 0 → operand (.fin m e) = none) (hl : s.eng.life = .ready)
    (hd : f32dec s.arg0 = .nan ∨ f32dec s.arg0 = .posInf ∨ f32dec s.arg0 = .negInf
      ∨ ∃ m e, f32dec s.arg0 = .fin m e ∧ m < 0) :
    setter operand store s = .next (s.cmdError .arg) := by
  rcases hd with hd | hd | hd | ⟨m, e, hd, hm⟩
  · exact setter_of_refused hl hd hnan
  · exact setter_of_refused hl hd hpos
  · exact setter_of_refused hl hd hneg
  · exact setter_of_refused hl hd (hfin hm)

/-- A setter in READY whose operand is taken writes its destination and the completion record of a success, and leaves
everything else (42_setters.md R130). -/
theorem setter_of_taken (hl : s.eng.life = .ready) (hd : f32dec s.arg0 = d) (ho : operand d = some v) :
    setter operand store s = .next { s with
      result := 0, pend := 0, status := { s.status with errcode := .ok, done := true, busy := false },
      eng := store s.eng (wrap32 v) } := by
  rw [setter_next hl (hd ▸ ho), State.complete_eq]

end

end Sys2Proof.Machine
end

section
/-! The statements about the setters, spec/42_setters.md. -/

namespace Sys2Proof.Machine

/-- Settles O35: both commands are the setters' template with the gain's operand check, and differ in the destination
only. -/
theorem gainSetterResults : Obligations.GainSetterResults := by
  refine fun s => ⟨fun i hi => ?_, fun m e hl hd hm => ?_⟩
  · cases i with
    | setGain | setOutGain =>
      exact ⟨setter_of_uninit, setter_of_not_nonneg rfl rfl rfl gainOperand_of_neg⟩
    | _ => simp at hi
  · have ho := gainOperand_of_nonneg (e := e) hm
    exact ⟨setter_of_taken hl hd ho, setter_of_taken hl hd ho⟩

/-- Settles O36: the two operand checks differ at zero only, which the base refuses and the span takes. -/
theorem cutoffSetterResults : Obligations.CutoffSetterResults := by
  refine fun s => ⟨fun i hi => ?_, fun e hl hd => ?_, fun m e hl hd hm => ?_, fun m e hl hd hm => ?_⟩
  · cases i with
    | setCutBase =>
      exact ⟨setter_of_uninit, setter_of_not_nonneg rfl rfl rfl fun hm => cutBaseOperand_of_nonpos hm.le⟩
    | setCutSpan => exact ⟨setter_of_uninit, setter_of_not_nonneg rfl rfl rfl cutSpanOperand_of_neg⟩
    | _ => simp at hi
  · exact setter_of_refused hl hd (cutBaseOperand_of_nonpos le_rfl)
  · exact setter_of_taken hl hd (cutBaseOperand_of_pos hm)
  · exact setter_of_taken hl hd (cutSpanOperand_of_nonneg hm)

/-- Settles O37: only a NaN is refused; an infinity is taken as the end of the range on its side. -/
theorem driveSetterResult : Obligations.DriveSetterResult := by
  refine fun s => ⟨setter_of_uninit, fun hl hd => setter_of_refused hl hd rfl, fun v hl hv => ?_⟩
  rcases hv with ⟨hd, rfl⟩ | ⟨hd, rfl⟩ | ⟨m, e, hd, rfl⟩
  · exact setter_of_taken hl hd rfl
  · exact setter_of_taken hl hd rfl
  · exact setter_of_taken hl hd driveOperand_fin

/-- Settles O38: the three operands that are not finite are refused, and every finite one is taken, clamped. -/
theorem detuneSetterResult : Obligations.DetuneSetterResult := by
  refine fun s => ⟨setter_of_uninit, fun hl hd => ?_, fun m e hl hd => setter_of_taken hl hd detuneOperand_fin⟩
  rcases hd with hd | hd | hd
  · exact setter_of_refused hl hd rfl
  · exact setter_of_refused hl hd rfl
  · exact setter_of_refused hl hd rfl

end Sys2Proof.Machine
end

section
/-! SUPPORT. What the statements about RENDER are proved from: its ends in each case with the memory of its success, the
sample step with its narrowings removed, and the smoothed output gain of every frame. -/

namespace Sys2Proof.Machine

variable {s t : State} {e : Engine} {m : Memory} {a b f c dst ch n : Nat}

/-! ### RENDER's memory -/

/-- What a successful RENDER leaves in the SRAM. -/
def State.renderMem (s : State) : Memory :=
  (renderLoop s.arg0.toNat s.arg2.toNat s.arg1.toNat 0 s.eng s.mem).2

/-- Slot `(f, c)` holds the word of frame `f` (43_render.md R148). -/
theorem State.renderMem_word (h : s.mem.wf = true) (hf : f < s.arg1.toNat) (hc : c < s.arg2.toNat) :
    s.renderMem.readWord (s.arg0.toNat + f * s.arg2.toNat + c) = fixToF32 (sampleStep (s.eng.atFrame f)).2 := by
  have hword := renderLoop_word (dst := s.arg0.toNat) (f := 0) (e := s.eng) h hf hc
  rwa [Nat.zero_add] at hword

/-- Every byte outside the destination keeps its value (43_render.md R148). -/
theorem State.renderMem_frame (h : s.mem.wf = true)
    (hb : ¬ (4 * s.arg0.toNat ≤ b ∧ b < 4 * (s.arg0.toNat + s.arg1.toNat * s.arg2.toNat))) :
    s.renderMem.readByte b = s.mem.readByte b :=
  renderLoop_frame h (by rw [Nat.zero_add, Nat.zero_mul]; omega)

/-- Every word of the destination is the slot of a frame and a channel. -/
theorem exists_slot (h1 : dst ≤ a) (h2 : a < dst + n * ch) : ∃ f < n, ∃ c < ch, a = dst + f * ch + c := by
  have hch : 0 < ch := Nat.pos_of_ne_zero (by rintro rfl; omega)
  refine ⟨(a - dst) / ch, (Nat.div_lt_iff_lt_mul hch).2 (by omega), (a - dst) % ch, Nat.mod_lt _ hch, ?_⟩
  have := Nat.div_add_mod' (a - dst) ch
  omega

/-- The loop's later frames are a loop of their own at the following destination (43_render.md R150 item 3). -/
theorem renderLoop_split (p q : Nat) :
    renderLoop dst ch (p + q) 0 e m
      = renderLoop (dst + p * ch) ch q 0 (e.atFrame p) (renderLoop dst ch p 0 e m).2 := by
  rw [renderLoop_add, renderLoop_eng, Nat.zero_add]
  exact renderLoop_shift (k := 0)

/-! ### The end of RENDER in each case -/

theorem exec_render_of_bad_args (hl : s.eng.life = .ready) (hok : s.renderArgsOk = false) :
    exec .render s = .next (s.cmdError .arg) := by
  simp [exec, execRender, hl, hok]

theorem exec_render_of_args (hl : s.eng.life = .ready) (hok : s.renderArgsOk = true) :
    exec .render s = .next
      (State.complete { s with eng := s.eng.atFrame s.arg1.toNat, mem := s.renderMem } s.arg1) := by
  simp [exec, execRender, hl, hok, renderLoop_eng, State.renderMem]

/-- A RENDER that ends without error has written its memory. -/
theorem mem_of_exec_render (h : exec .render s = .next t) (hok : t.status.errcode = .ok) : t.mem = s.renderMem := by
  cases exec_commandEnd h with
  | error c hc =>
    have hcode : c = .ok := hok
    simp [hcode] at hc
  | render => rfl

/-! ### The sample step -/

/-- The phase advance, each phase modulo one cycle (43_render.md R149). -/
theorem Engine.advance_eq (e : Engine) :
    e.advance = { e with
      ph1 := e.ph1 + e.inc1
      ph2 := e.ph2 + inc2Of e.inc1 (sext32 e.cur.detune + drift e.modph)
      modph := e.modph + e.incLfo } := by
  simp only [Engine.advance, wrap32_add]

/-- An unsigned parameter smoothed toward its target stays in its format. -/
theorem zext32_smooth {k : Int} (h1 : 1 ≤ k) (h2 : k ≤ ONE) (cur tgt : Word) :
    zext32 (wrap32 (smooth (zext32 cur) (zext32 tgt) k)) = smooth (zext32 cur) (zext32 tgt) k := by
  have hbetween := smooth_between (cur := zext32 cur) (tgt := zext32 tgt) h1 h2
  have hcur := zext32_bounds cur
  have htgt := zext32_bounds tgt
  exact zext32_wrap32_of_mem (by omega) (by omega)

/-- A signed parameter smoothed toward its target stays in its format. -/
theorem sext32_smooth {k : Int} (h1 : 1 ≤ k) (h2 : k ≤ ONE) (cur tgt : Word) :
    sext32 (wrap32 (smooth (sext32 cur) (sext32 tgt) k)) = smooth (sext32 cur) (sext32 tgt) k := by
  have hbetween := smooth_between (cur := sext32 cur) (tgt := sext32 tgt) h1 h2
  have hcur := sext32_bounds cur
  have htgt := sext32_bounds tgt
  exact sext32_wrap32_of_mem (by omega) (by omega)

/-- From the lowest legal rate on the filter's new state lies between two values of its format, so it is stored whole
(43_render.md R145). -/
theorem Engine.sext32_filterStep_y (h : FS_MIN_Q ≤ zext32 e.fsQ) :
    sext32 e.filterStep.y = lpf (sext32 e.y) e.osc e.filterCoef := by
  obtain ⟨hcoef0, hcoef1⟩ := Engine.filterCoef_bounds h
  have hbetween := lpf_between (y := sext32 e.y) (x := e.osc) hcoef0 hcoef1
  have hy := sext32_bounds e.y
  have hosc := osc_bounds e
  simp only [ONE] at hosc
  exact sext32_wrap32_of_mem (by omega) (by omega)

/-- The output clamp bounds every sample (43_render.md R147). -/
theorem sampleStep_output_bounds (e : Engine) : -ONE ≤ (sampleStep e).2 ∧ (sampleStep e).2 ≤ ONE :=
  sat_bounds (by norm_num)

/-- The exponent field of a sample's word is 0 for the sample 0 only, so no word is subnormal (40_primitives.md
R94). -/
theorem fixToF32_exponent_eq_zero_iff {z : Int} (h1 : -ONE ≤ z) (h2 : z ≤ ONE) :
    (fixToF32 z).extractLsb' 23 8 = 0 ↔ z = 0 := by
  refine ⟨fun hexp => by_contra fun hz => ?_, fun hz => by rw [hz, fixToF32_zero]; rfl⟩
  have hlog : z.natAbs.log2 < 25 :=
    (Nat.log2_lt (Int.natAbs_ne_zero.2 hz)).2 (by simp only [ONE] at h1 h2; omega)
  obtain ⟨-, hfield, -⟩ := f32dec_fields (BitVec.ofBool (decide (z < 0))) (BitVec.ofNat 8 (z.natAbs.log2 + 103))
    (BitVec.ofNat 23 (fracField z.natAbs))
  rw [fixToF32_of_ne_zero hz, hfield, BitVec.toNat_eq, BitVec.toNat_ofNat] at hexp
  have hzero : (0 : BitVec 8).toNat = 0 := rfl
  omega

/-! ### The output gain, frame by frame -/

theorem Engine.atFrame_ksm (n : Nat) : (e.atFrame n).ksm = e.ksm := by
  induction n with
  | zero => rfl
  | succ n ih => exact ih

/-- The output gain of every frame is the iterated SMOOTH of the first one (43_render.md R143). -/
theorem Engine.atFrame_outGain (h1 : 1 ≤ zext32 e.ksm) (h2 : zext32 e.ksm ≤ ONE) (n : Nat) :
    zext32 (e.atFrame n).cur.outGain
      = (fun g => smooth g (zext32 e.tgt.outGain) (zext32 e.ksm))^[n] (zext32 e.cur.outGain) := by
  induction n with
  | zero => rfl
  | succ n ih =>
    have hstep := zext32_smooth h1 h2 (e.atFrame n).cur.outGain e.tgt.outGain
    rw [Function.iterate_succ_apply', ← ih, ← hstep, ← Engine.atFrame_tgt n, ← Engine.atFrame_ksm n]
    rfl

/-- A sample whose smoothed output gain is 0 is 0, whatever the post gain (43_render.md R147). -/
theorem sampleStep_output_of_outGain (h : zext32 (sampleStep e).1.cur.outGain = 0) : (sampleStep e).2 = 0 := by
  have hgain : zext32 e.smoothStep.filterStep.cur.outGain = 0 := h
  show e.smoothStep.filterStep.output = 0
  rw [Engine.output, hgain, gainMul_zero, gainMul, zero_mul]
  decide

end Sys2Proof.Machine
end

section
/-! The statements about RENDER, spec/43_render.md. -/

namespace Sys2Proof.Machine

/-- Settles O39: the two checks fail as the spec writes them, and the loop's laws say what a RENDER that passes them
writes. -/
theorem renderResult : Obligations.RenderResult := by
  refine fun s hwf => ⟨exec_of_uninit (by simp), fun hl hbad => ?_, fun hl hn hch hrange => ?_⟩
  · refine exec_render_of_bad_args hl (Bool.eq_false_iff.2 fun hok => ?_)
    obtain ⟨hn, hch, hrange⟩ := (renderArgsOk_iff s).1 hok
    rcases hbad with h | h | h
    · exact hn (by rw [h]; rfl)
    · exact hch (by rw [h]; rfl)
    · omega
  · have hok := (renderArgsOk_iff s).2 ⟨BitVec.toNat_ne.1 hn, BitVec.toNat_ne.1 hch, hrange⟩
    exact ⟨s.renderMem, exec_render_of_args hl hok, fun f hf c hc => State.renderMem_word hwf hf hc,
      fun b hb => State.renderMem_frame hwf hb⟩

/-- Settles O40: the chain is the model's own once the phases add as words, and within the ranges every stored value
lies between two values of its format. -/
theorem sampleStepChain : Obligations.SampleStepChain := by
  intro e
  refine ⟨?_, fun t h => ?_⟩
  · rw [sampleStep, Engine.advance_eq]
    rfl
  · obtain ⟨⟨hfs, -⟩, -, -, -, ⟨hk, hk'⟩, -⟩ := h
    exact ⟨zext32_smooth hk hk' _ _, zext32_smooth hk hk' _ _, zext32_smooth hk hk' _ _, zext32_smooth hk hk' _ _,
      sext32_smooth hk hk' _ _, Engine.sext32_filterStep_y (e := e.smoothStep) hfs⟩

/-- Settles O41: no operand word wraps within the SRAM, and RENDER's loop splits at any frame. -/
theorem renderSplitsContinuously : Obligations.RenderSplitsContinuously := by
  intro s dst n1 n2 ch _ hl hn1 hn2 hch hsize hrange
  have hn1' : n1.toNat ≠ 0 := BitVec.toNat_ne.1 hn1
  have hn2' : n2.toNat ≠ 0 := BitVec.toNat_ne.1 hn2
  have hch' : ch.toNat ≠ 0 := BitVec.toNat_ne.1 hch
  have hframes : n1.toNat + n2.toNat ≤ (n1.toNat + n2.toNat) * ch.toNat :=
    Nat.le_mul_of_pos_right _ (Nat.pos_of_ne_zero hch')
  have hparts := Nat.add_mul n1.toNat n2.toNat ch.toNat
  have hsum : (n1 + n2).toNat = n1.toNat + n2.toNat := BitVec.toNat_add_of_lt (by omega)
  have hprod : (n1 * ch).toNat = n1.toNat * ch.toNat := BitVec.toNat_mul_of_lt (by omega)
  have hnext : (dst + n1 * ch).toNat = dst.toNat + n1.toNat * ch.toNat := by
    rw [BitVec.toNat_add_of_lt (by omega), hprod]
  have hwhole := exec_render_of_args (s := { s with arg0 := dst, arg1 := n1 + n2, arg2 := ch }) hl
    ((renderArgsOk_iff _).2 ⟨by rw [hsum]; omega, hch', by rw [hsum]; exact hrange⟩)
  have hfirst := exec_render_of_args (s := { s with arg0 := dst, arg1 := n1, arg2 := ch }) hl
    ((renderArgsOk_iff _).2 ⟨hn1', hch', by show dst.toNat + n1.toNat * ch.toNat ≤ s.build.sramWords; omega⟩)
  refine ⟨_, _, _, hwhole, hfirst, exec_render_of_args ((Engine.atFrame_life _).trans hl)
    ((renderArgsOk_iff _).2 ⟨hn2', hch', ?_⟩), ?_, ?_, rfl, rfl⟩
  · show (dst + n1 * ch).toNat + n2.toNat * ch.toNat ≤ s.build.sramWords
    omega
  · show (s.eng.atFrame n1.toNat).atFrame n2.toNat = s.eng.atFrame (n1 + n2).toNat
    rw [hsum, Engine.atFrame_add]
  · show (renderLoop (dst + n1 * ch).toNat ch.toNat n2.toNat 0 (s.eng.atFrame n1.toNat)
        (renderLoop dst.toNat ch.toNat n1.toNat 0 s.eng s.mem).2).2
      = (renderLoop dst.toNat ch.toNat (n1 + n2).toNat 0 s.eng s.mem).2
    rw [hsum, hnext, renderLoop_split]

/-- Settles O43: every word of the destination is the encoding of a clamped sample. -/
theorem renderOutputIsBounded : Obligations.RenderOutputIsBounded := by
  intro s t hwf h hok a hlow hhigh
  obtain ⟨f, hf, c, hc, rfl⟩ := exists_slot hlow hhigh
  obtain ⟨hmin, hmax⟩ := sampleStep_output_bounds (s.eng.atFrame f)
  obtain ⟨-, hvalue⟩ := fixToF32IsExact.2 _ hmin hmax
  rw [mem_of_exec_render h hok, State.renderMem_word hwf hf hc]
  refine ⟨_, hmin, hmax, rfl, fun hexp => ?_, hvalue⟩
  rw [(fixToF32_exponent_eq_zero_iff hmin hmax).1 hexp, fixToF32_zero]

/-- Settles O44: the sample of frame `n` uses the output gain after `n + 1` SMOOTH steps, as many as its distance from
0 or more. -/
theorem silenceIsReached : Obligations.SilenceIsReached := by
  intro t e hl hinv htgt n hn
  obtain ⟨-, -, -, -, ⟨hk, hk'⟩, -⟩ := (Engine.inv_iff_of_ready hl).1 hinv
  have hdist : |(0 : Int) - zext32 e.cur.outGain| ≤ (n + 1 : Nat) := by
    rw [zero_sub, abs_neg, abs_of_nonneg (zext32_bounds _).1]
    exact Int.ofNat_le.2 hn
  refine sampleStep_output_of_outGain (e := e.atFrame n) ?_
  calc zext32 (e.atFrame (n + 1)).cur.outGain
      = (fun g => smooth g 0 (zext32 e.ksm))^[n + 1] (zext32 e.cur.outGain) := by
        rw [Engine.atFrame_outGain hk hk', htgt]; rfl
    _ = 0 := smooth_iterate hk hk' (n + 1) _ hdist

end Sys2Proof.Machine
end

section
/-! SUPPORT. What the statements about the vector kernels are proved from: the ends of MIXG and SINEG, and the words and
bytes of the memory that a success of each leaves. -/

namespace Sys2Proof.Machine

variable {s : State} {b i : Nat}

/-! ### MIXG -/

/-- What a successful MIXG leaves in the SRAM. -/
def State.mixgMem (s : State) : Memory :=
  mixLoop s.arg0.toNat s.arg1.toNat (sext32 s.arg3) s.arg2.toNat 0 s.mem

theorem exec_mixg_of_bad_args (hok : s.mixgArgsOk = false) : exec .mixg s = .next (s.cmdError .arg) := by
  simp [exec, execMixg, hok]

theorem exec_mixg_of_args (hok : s.mixgArgsOk = true) :
    exec .mixg s = .next (State.complete { s with mem := s.mixgMem } s.arg2) := by
  simp [exec, execMixg, hok, State.mixgMem]

/-- A saturated sum is stored whole (40_primitives.md R105). -/
theorem sext32_wrap32_sat32 (v : Int) : sext32 (wrap32 (sat32 v)) = sat32 v := by
  obtain ⟨hmin, hmax⟩ : -2147483648 ≤ sat32 v ∧ sat32 v ≤ 2147483647 := sat_bounds (by norm_num)
  exact sext32_wrap32_of_mem hmin hmax

/-- Element `i` ends as the saturated sum, its source taken new exactly when an earlier element has written it
(44_kernels.md R160, R162). -/
theorem State.mixgMem_word (h : s.mem.wf = true) (hi : i < s.arg2.toNat) :
    sext32 (s.mixgMem.readWord (s.arg0.toNat + i)) =
      sat32 (sext32 (s.mem.readWord (s.arg0.toNat + i))
        + gainMul (sext32 (if s.arg0.toNat ≤ s.arg1.toNat + i ∧ s.arg1.toNat < s.arg0.toNat
            then s.mixgMem.readWord (s.arg1.toNat + i) else s.mem.readWord (s.arg1.toNat + i))) (sext32 s.arg3)) := by
  have hword := mixLoop_word (dst := s.arg0.toNat) (src := s.arg1.toNat) (g := sext32 s.arg3) (i := 0) h hi
  simp only [Nat.add_zero] at hword
  rw [State.mixgMem, hword, sext32_wrap32_sat32]
  rfl

/-- Every byte outside the destination keeps its value (44_kernels.md R160). -/
theorem State.mixgMem_frame (h : s.mem.wf = true)
    (hb : ¬ (4 * s.arg0.toNat ≤ b ∧ b < 4 * (s.arg0.toNat + s.arg2.toNat))) :
    s.mixgMem.readByte b = s.mem.readByte b :=
  mixLoop_frame h (by omega)

/-! ### SINEG -/

theorem exec_sineg_of_bad_args (hok : s.sinegArgsOk = false) : exec .sineg s = .next (s.cmdError .arg) := by
  simp [exec, execSineg, hok]

theorem exec_sineg_of_args (hok : s.sinegArgsOk = true) :
    exec .sineg s = .next (State.complete { s with mem := s.sinegMem } s.arg3) := by
  simp [exec, execSineg, hok, sineLoop_phase, State.sinegMem]

/-- An output of SIN is stored whole (40_primitives.md R97). -/
theorem sext32_wrap32_sinQ (p : Word) : sext32 (wrap32 (sinQ p)) = sinQ p := by
  obtain ⟨hmin, hmax⟩ := sinQ_bounds p
  simp only [ONE] at hmin hmax
  exact sext32_wrap32_of_mem (by omega) (by omega)

/-- Every word that SINEG leaves, by its address: the phase word is written last, so it wins over an output at its
place (44_kernels.md R161, R162). -/
theorem State.sinegMem_readWord (h : s.mem.wf = true) (a : Nat) :
    s.sinegMem.readWord a =
      if a = s.arg1.toNat then s.mem.readWord s.arg1.toNat + s.arg3 * s.arg2
      else if s.arg0.toNat ≤ a ∧ a < s.arg0.toNat + s.arg3.toNat then
        wrap32 (sinQ (s.mem.readWord s.arg1.toNat + BitVec.ofNat 32 (a - s.arg0.toNat) * s.arg2))
      else s.mem.readWord a := by
  rw [State.sinegMem, Memory.readWord_writeWord (sineLoop_wf h)]
  congr 1
  split_ifs with hout
  · obtain ⟨i, rfl⟩ := Nat.exists_eq_add_of_le hout.1
    rw [Nat.add_sub_cancel_left, sineLoop_word h (by omega)]
  · exact sineLoop_frame_word h hout

/-- Every byte outside the phase word and the outputs keeps its value (44_kernels.md R161). -/
theorem State.sinegMem_frame (h : s.mem.wf = true) (hpa : b / 4 ≠ s.arg1.toNat)
    (hb : ¬ (4 * s.arg0.toNat ≤ b ∧ b < 4 * (s.arg0.toNat + s.arg3.toNat))) :
    s.sinegMem.readByte b = s.mem.readByte b := by
  rw [State.sinegMem, Memory.readByte_writeWord (sineLoop_wf h), if_neg hpa, sineLoop_frame h (by omega)]

/-! ### SINEG in parts -/

/-- The block when the host has set SINEG's operands `out` and `n`. -/
def State.sinegOperands (s : State) (out n : Word) : State := { s with arg0 := out, arg3 := n }

/-- The block after a successful SINEG of `n` samples to `out`. -/
def State.afterSineg (s : State) (out n : Word) : State :=
  State.complete { s.sinegOperands out n with mem := (s.sinegOperands out n).sinegMem } n

@[simp] theorem State.afterSineg_arg1 (out n : Word) : (s.afterSineg out n).arg1 = s.arg1 := rfl
@[simp] theorem State.afterSineg_arg2 (out n : Word) : (s.afterSineg out n).arg2 = s.arg2 := rfl

theorem exec_sineg_operands {out n : Word} (hpa : s.arg1.toNat < s.build.sramWords)
    (hout : out.toNat + n.toNat ≤ s.build.sramWords) :
    exec .sineg (s.sinegOperands out n) = .next (s.afterSineg out n) :=
  exec_sineg_of_args ((sinegArgsOk_iff _).2 ⟨hpa, hout⟩)

theorem State.afterSineg_wf (h : s.mem.wf = true) (out n : Word) : (s.afterSineg out n).mem.wf = true :=
  Memory.wf_writeWord (sineLoop_wf h)

theorem State.afterSineg_readWord (h : s.mem.wf = true) (out n : Word) (a : Nat) :
    (s.afterSineg out n).mem.readWord a =
      if a = s.arg1.toNat then s.mem.readWord s.arg1.toNat + n * s.arg2
      else if out.toNat ≤ a ∧ a < out.toNat + n.toNat then
        wrap32 (sinQ (s.mem.readWord s.arg1.toNat + BitVec.ofNat 32 (a - out.toNat) * s.arg2))
      else s.mem.readWord a :=
  State.sinegMem_readWord (s := s.sinegOperands out n) h a

/-- The phase word holds the phase from which the next command goes on (44_kernels.md R161). -/
theorem State.afterSineg_phase (h : s.mem.wf = true) (out n : Word) :
    (s.afterSineg out n).mem.readWord s.arg1.toNat = s.mem.readWord s.arg1.toNat + n * s.arg2 := by
  rw [State.afterSineg_readWord h, if_pos rfl]

/-- The phase after `n` and then `i` samples is the phase after `n + i` (44_kernels.md R161). -/
theorem phase_advance_add (ph inc n : Word) (i : Nat) :
    ph + n * inc + BitVec.ofNat 32 i * inc = ph + BitVec.ofNat 32 (n.toNat + i) * inc := by
  rw [BitVec.ofNat_add, BitVec.ofNat_toNat, BitVec.setWidth_eq, BitVec.add_mul, BitVec.add_assoc]

/-- Two commands leave the words of one: the second goes on from the first's phase, and keeps the first's outputs
(44_kernels.md R161). -/
theorem State.afterSineg_split {out n1 n2 : Word} (h : s.mem.wf = true)
    (hsum : (n1 + n2).toNat = n1.toNat + n2.toNat) (hnext : (out + n1).toNat = out.toNat + n1.toNat) (a : Nat) :
    ((s.afterSineg out n1).afterSineg (out + n1) n2).mem.readWord a
      = (s.afterSineg out (n1 + n2)).mem.readWord a := by
  rw [State.afterSineg_readWord (State.afterSineg_wf h out n1), State.afterSineg_arg1, State.afterSineg_arg2,
    State.afterSineg_phase h, State.afterSineg_readWord h out (n1 + n2), hsum, hnext]
  by_cases hpa : a = s.arg1.toNat
  · rw [if_pos hpa, if_pos hpa, BitVec.add_mul, BitVec.add_assoc]
  rw [if_neg hpa, if_neg hpa]
  by_cases hlater : out.toNat + n1.toNat ≤ a ∧ a < out.toNat + n1.toNat + n2.toNat
  · rw [if_pos hlater, if_pos (by omega), phase_advance_add,
      show n1.toNat + (a - (out.toNat + n1.toNat)) = a - out.toNat by omega]
  rw [if_neg hlater, State.afterSineg_readWord h, if_neg hpa]
  by_cases hfirst : out.toNat ≤ a ∧ a < out.toNat + n1.toNat
  · rw [if_pos hfirst, if_pos (by omega)]
  · rw [if_neg hfirst, if_neg (by omega)]

end Sys2Proof.Machine
end

section
/-! The statements about the vector kernels, spec/44_kernels.md. -/

namespace Sys2Proof.Machine

/-- Settles O45: the two range checks are those of the statement, and the element loop leaves the words it names. -/
theorem mixgResult : Obligations.MixgResult := by
  refine fun s h => ⟨fun hbad => exec_mixg_of_bad_args ?_, fun hdst hsrc => ⟨s.mixgMem, ?_, ?_, ?_⟩⟩
  · rw [← Bool.not_eq_true, mixgArgsOk_iff]
    omega
  · exact exec_mixg_of_args ((mixgArgsOk_iff s).2 ⟨hdst, hsrc⟩)
  · exact fun i => State.mixgMem_word h
  · exact fun b => State.mixgMem_frame h

/-- Settles O46: the phase word is written after the outputs, which are stored without wrapping. -/
theorem sinegResult : Obligations.SinegResult := by
  refine fun s h => ⟨fun hbad => exec_sineg_of_bad_args ?_, fun hpa hout => ⟨s.sinegMem, ?_, ?_, ?_, ?_⟩⟩
  · rw [← Bool.not_eq_true, sinegArgsOk_iff]
    omega
  · exact exec_sineg_of_args ((sinegArgsOk_iff s).2 ⟨hpa, hout⟩)
  · rw [State.sinegMem_readWord h, if_pos rfl]
  · intro i hi hne
    rw [State.sinegMem_readWord h, if_neg hne, if_pos (by omega), Nat.add_sub_cancel_left, sext32_wrap32_sinQ]
  · exact fun b => State.sinegMem_frame h

/-- Settles O47: no operand word wraps within the SRAM, and the second command goes on from the first's phase. -/
theorem sinegSplitsContinuously : Obligations.SinegSplitsContinuously := by
  intro s out n1 n2 h hsize hpa hrange
  have hsum : (n1 + n2).toNat = n1.toNat + n2.toNat := BitVec.toNat_add_of_lt (by omega)
  have hnext : (out + n1).toNat = out.toNat + n1.toNat := BitVec.toNat_add_of_lt (by omega)
  have hwhole := exec_sineg_operands (out := out) (n := n1 + n2) hpa (by rw [hsum]; omega)
  have hfirst := exec_sineg_operands (out := out) (n := n1) hpa (by omega)
  have hsecond := exec_sineg_operands (s := s.afterSineg out n1) (out := out + n1) (n := n2) hpa
    (by rw [hnext]; exact hrange)
  exact ⟨_, _, _, hwhole, hfirst, hsecond, State.afterSineg_split h hsum hnext, rfl, rfl⟩

end Sys2Proof.Machine
end

section
/-! SUPPORT. What the statements about completions, errors and time are proved from: the two completion records, the
code each command ends with, the idle block, and the phases frame by frame and step by step. -/

namespace Sys2Proof.Machine

variable {s t : State} {i : Instr} {e : Engine}

/-! ### The completion records -/

/-- What an error completion writes, field by field (60_exceptions.md R174). -/
theorem State.cmdError_eq (s : State) (c : ErrCode) :
    s.cmdError c =
      { s with
        result := 0, pend := 0,
        status := { s.status with
          errcode := c, done := true, busy := false,
          eill := s.status.eill || decide (c = .illegal), estate := s.status.estate || decide (c = .state),
          earg := s.status.earg || decide (c = .arg) } } := by
  cases c with
  | ok | illegal | state | arg => simp [State.cmdError, Status.completed, Status.setSticky]

/-- An error of a command leaves ERRCODE nonzero (60_exceptions.md R170). -/
theorem State.cmdError_errcode_ne_ok {c : ErrCode} (hc : c = .state ∨ c = .arg) :
    (s.cmdError c).status.errcode ≠ .ok := by
  rcases hc with rfl | rfl <;> simp

/-- A command whose ERRCODE is not 0 has written the error record of STATE or ARG and nothing else
(60_exceptions.md R178). -/
theorem exec_eq_cmdError (h : exec i s = .next t) (he : t.status.errcode ≠ .ok) :
    ∃ c, (c = .state ∨ c = .arg) ∧ t = s.cmdError c := by
  rcases exec_cases s i with ⟨c, hc, hend⟩ | ⟨e, m, r, hend⟩ <;> cases hend.symm.trans h
  · exact ⟨c, hc, rfl⟩
  · exact absurd rfl he

/-! ### The code each command ends with -/

section
variable (s : State)

/-- RENDER's operand checks fail as the spec lists it (60_exceptions.md R171). -/
theorem renderArgsOk_eq_false_iff :
    s.renderArgsOk = false ↔
      s.arg1 = 0 ∨ s.arg2 = 0 ∨ s.arg0.toNat + s.arg1.toNat * s.arg2.toNat > s.build.sramWords := by
  rw [← Bool.not_eq_true, renderArgsOk_iff]
  bv_omega

/-- MIXG's operand checks fail as the spec lists it (60_exceptions.md R171). -/
theorem mixgArgsOk_eq_false_iff :
    s.mixgArgsOk = false ↔
      s.arg0.toNat + s.arg2.toNat > s.build.sramWords ∨ s.arg1.toNat + s.arg2.toNat > s.build.sramWords := by
  rw [← Bool.not_eq_true, mixgArgsOk_iff]
  omega

/-- SINEG's operand checks fail as the spec lists it (60_exceptions.md R171). -/
theorem sinegArgsOk_eq_false_iff :
    s.sinegArgsOk = false ↔
      s.arg1.toNat ≥ s.build.sramWords ∨ s.arg0.toNat + s.arg3.toNat > s.build.sramWords := by
  rw [← Bool.not_eq_true, sinegArgsOk_iff]
  omega

theorem exec_create_errcode :
    ∃ t, exec .create s = .next t ∧ t.status.errcode =
      if s.eng.life = .ready then .state else if (fsValid (f32dec s.arg0)).isNone then .arg else .ok := by
  rcases execCreate_cases s with ⟨hl, h⟩ | ⟨hl, hq, h⟩ | ⟨q, hl, hq, h⟩
  · exact ⟨_, h, by simp [hl]⟩
  · exact ⟨_, h, by simp [hl, hq]⟩
  · exact ⟨_, h, by simp [hl, hq]⟩

theorem exec_destroy_errcode :
    ∃ t, exec .destroy s = .next t ∧ t.status.errcode = if s.eng.life = .uninit then .state else .ok := by
  rcases execDestroy_cases s with ⟨hl, h⟩ | ⟨hl, h⟩
  · exact ⟨_, h, by simp [hl]⟩
  · exact ⟨_, h, by simp [hl]⟩

theorem exec_reset_errcode :
    ∃ t, exec .reset s = .next t ∧ t.status.errcode =
      if s.eng.life = .uninit then .state else if (fsValid (f32dec s.arg0)).isNone then .arg else .ok := by
  rcases execReset_cases s with ⟨hl, h⟩ | ⟨hl, hq, h⟩ | ⟨q, hl, hq, h⟩
  · exact ⟨_, h, by simp [hl]⟩
  · exact ⟨_, h, by simp [hl, hq]⟩
  · exact ⟨_, h, by simp [hl, hq]⟩

theorem exec_render_errcode :
    ∃ t, exec .render s = .next t ∧ t.status.errcode =
      if s.eng.life = .uninit then .state else if s.renderArgsOk = false then .arg else .ok := by
  rcases execRender_cases s with ⟨hl, h⟩ | ⟨hl, hok, h⟩ | ⟨hl, hok, h⟩
  · exact ⟨_, h, by simp [hl]⟩
  · exact ⟨_, h, by simp [hl, hok]⟩
  · exact ⟨_, h, by simp [hl, hok]⟩

theorem exec_mixg_errcode :
    ∃ t, exec .mixg s = .next t ∧ t.status.errcode = if s.mixgArgsOk = false then .arg else .ok := by
  rcases execMixg_cases s with ⟨hok, h⟩ | ⟨hok, h⟩
  · exact ⟨_, h, by simp [hok]⟩
  · exact ⟨_, h, by simp [hok]⟩

theorem exec_sineg_errcode :
    ∃ t, exec .sineg s = .next t ∧ t.status.errcode = if s.sinegArgsOk = false then .arg else .ok := by
  rcases execSineg_cases s with ⟨hok, h⟩ | ⟨hok, h⟩
  · exact ⟨_, h, by simp [hok]⟩
  · exact ⟨_, h, by simp [hok]⟩

end

section
variable {operand : F32 → Option Int} {store : Engine → Word → Engine}

/-- A setter ends with STATE in UNINIT, else with the code of its operand check (42_setters.md R130). -/
theorem setter_errcode {code : ErrCode}
    (hcode : (if operand (f32dec s.arg0) = none then .arg else .ok) = code) :
    ∃ t, setter operand store s = .next t ∧ t.status.errcode = if s.eng.life = .uninit then .state else code := by
  subst hcode
  rcases setter_cases s operand store with ⟨hl, h⟩ | ⟨hl, hv, h⟩ | ⟨v, hl, hv, h⟩
  · exact ⟨_, h, by simp [hl]⟩
  · exact ⟨_, h, by simp [hl, hv]⟩
  · exact ⟨_, h, by simp [hl, hv]⟩

/-- A setter whose operand check takes no NaN, no infinity and no finite value with a `low` mantissa ends with ARG for
exactly those. -/
theorem setter_errcode_of_finite {low : Int → Prop} [DecidablePred low] (hnan : operand .nan = none)
    (hpos : operand .posInf = none) (hneg : operand .negInf = none)
    (hfin : ∀ m e, operand (.fin m e) = none ↔ low m) :
    ∃ t, setter operand store s = .next t ∧ t.status.errcode =
      if s.eng.life = .uninit then .state
      else match f32dec s.arg0 with
        | .fin m _ => if low m then .arg else .ok
        | .nan | .posInf | .negInf => .arg := by
  refine setter_errcode ?_
  cases f32dec s.arg0 with
  | nan => exact if_pos hnan
  | posInf => exact if_pos hpos
  | negInf => exact if_pos hneg
  | fin m e => simp only [hfin]

theorem gainOperand_fin_eq_none_iff (m e : Int) : gainOperand (.fin m e) = none ↔ m < 0 := by simp [gainOperand]

theorem cutBaseOperand_fin_eq_none_iff (m e : Int) : cutBaseOperand (.fin m e) = none ↔ m ≤ 0 := by
  simp [cutBaseOperand]

theorem cutSpanOperand_fin_eq_none_iff (m e : Int) : cutSpanOperand (.fin m e) = none ↔ m < 0 := by
  simp [cutSpanOperand]

theorem driveOperand_eq_none_iff (d : F32) : driveOperand d = none ↔ d = .nan := by
  cases d with
  | nan | posInf | negInf | fin => simp [driveOperand]

theorem detuneOperand_eq_none_iff (d : F32) : detuneOperand d = none ↔ d = .nan ∨ d = .posInf ∨ d = .negInf := by
  cases d with
  | nan | posInf | negInf | fin => simp [detuneOperand]

end

/-! ### The idle block -/

/-- An idle block at the sequencer's turn waits: the turn is taken and nothing else happens (60_exceptions.md R185). -/
theorem step_of_idle (hr : s.rstN = true) (hb : s.status.busy = false) (hn : s.SequencerNext) :
    step s = .next s.takeTurn := by
  rw [step_of_sequencerNext hn, sequencerTurn]
  simp [hr, hb]

/-- An idle block left alone for any number of steps keeps its whole state. -/
theorem run_of_idle {n : Nat} (hr : s.rstN = true) (hb : s.status.busy = false)
    (hin : s.inputs = List.replicate n .pass) :
    Host.Core.run Sys2Proof.core (n + 1) s = .next { s with inputs := [], hrdata := none } := by
  induction n generalizing s with
  | zero =>
    rw [run_succ (step_of_idle hr hb (.inl hin)), State.takeTurn, hin]
    rfl
  | succ n ih =>
    exact (run_succ (step_of_idle hr hb (.inr ⟨_, hin⟩)) _).trans (ih (s := s.takeTurn) hr hb (by simp [hin]))

/-- The sequencer's turn always ends in a next state of the same build, and takes no event. -/
theorem sequencerTurn_next (s : State) :
    ∃ t, sequencerTurn s = .next t ∧ t.build = s.build ∧ t.inputs = s.inputs := by
  unfold sequencerTurn
  split_ifs
  · obtain ⟨t, h, -, -, -, -, hbuild, -, -, hin⟩ := completePending_next s
    exact ⟨t, h, hbuild, hin⟩
  · exact ⟨s, rfl, rfl, rfl⟩
  · exact ⟨_, rfl, State.hardReset_build s, State.hardReset_inputs s⟩

/-! ### The phases, frame by frame -/

/-- One more increment. -/
theorem phase_advance_succ (ph inc : Word) (n : Nat) :
    ph + BitVec.ofNat 32 n * inc + inc = ph + BitVec.ofNat 32 (n + 1) * inc := by
  rw [BitVec.ofNat_add, BitVec.add_mul, BitVec.one_mul, BitVec.add_assoc]

/-- Voice 1 moves by one increment a frame (43_render.md R149). -/
theorem Engine.atFrame_ph1 (n : Nat) : (e.atFrame n).ph1 = e.ph1 + BitVec.ofNat 32 n * e.inc1 := by
  induction n with
  | zero => simp [Engine.atFrame]
  | succ n ih =>
    obtain ⟨-, hinc1, -⟩ := Engine.atFrame_rate (e := e) n
    rw [Engine.atFrame, sampleStep_ph1, ih, hinc1, phase_advance_succ]

/-- The LFO moves by one increment a frame (43_render.md R149). -/
theorem Engine.atFrame_modph (n : Nat) : (e.atFrame n).modph = e.modph + BitVec.ofNat 32 n * e.incLfo := by
  induction n with
  | zero => simp [Engine.atFrame]
  | succ n ih =>
    obtain ⟨-, -, hincLfo⟩ := Engine.atFrame_rate (e := e) n
    rw [Engine.atFrame, sampleStep_modph, ih, hincLfo, phase_advance_succ]

/-- Voice 2 moves in each frame by the increment of that frame's smoothed detune and drift (43_render.md R149). -/
theorem Engine.atFrame_succ_ph2 (n : Nat) :
    (e.atFrame (n + 1)).ph2 = (e.atFrame n).ph2
      + inc2Of e.inc1 (sext32 (e.atFrame (n + 1)).cur.detune + drift (e.modph + BitVec.ofNat 32 n * e.incLfo)) := by
  obtain ⟨-, hinc1, -⟩ := Engine.atFrame_rate (e := e) n
  rw [← Engine.atFrame_modph, ← hinc1]
  exact sampleStep_ph2

/-- A RENDER that ends without error leaves the engine as it is after its frames (43_render.md R141). -/
theorem eng_of_exec_render (h : exec .render s = .next t) (hok : t.status.errcode = .ok) :
    t.eng = s.eng.atFrame s.arg1.toNat := by
  cases exec_commandEnd h with
  | error c hc => exact absurd hok (State.cmdError_errcode_ne_ok hc)
  | render => rfl

/-! ### What moves the phases -/

/-- Only a success of RENDER, CREATE, DESTROY or RESET moves a phase. -/
theorem State.CommandEnd.phases_cases (h : s.CommandEnd i t) :
    t.eng.phases = s.eng.phases ∨ (i ∈ [Instr.render, .create, .destroy, .reset] ∧ t.status.errcode = .ok) := by
  cases h with
  | render | create | destroy | reset => exact .inr ⟨by simp, rfl⟩
  | _ => exact .inl rfl

/-- A step that moves a phase is the successful completion of one of those four commands, or a reset of the block. -/
theorem step_phases_cases (h : step s = .next t) (hne : t.eng.phases ≠ s.eng.phases) :
    (s.rstN = true ∧ s.status.busy = true ∧ s.SequencerNext
      ∧ ∃ i ∈ [Instr.render, .create, .destroy, .reset], decode s.pend = .ok i ∧ t.status.errcode = .ok)
    ∨ s.rstN = false ∨ ∃ ev, s.inputs.head? = some ev ∧ s.ResetBy ev := by
  rcases step_next_cases h with ⟨-, hr, -⟩ | ⟨-, -, -, rfl⟩ | ⟨hn, hr, hb, hc⟩ | ⟨ev, rest, hin, rfl⟩
  · exact .inr (.inl hr)
  · exact absurd rfl hne
  · rcases completePending_next_cases hc with rfl | ⟨i, hi, he⟩
    · exact absurd rfl hne
    · rcases he.phases_cases with hp | ⟨hmem, hok⟩
      · exact absurd hp hne
      · exact .inl ⟨hr, hb, hn, i, hmem, hi, hok⟩
  · refine .inr (.inr ⟨ev, by simp [hin], ?_⟩)
    by_contra hno
    exact hne (congrArg Engine.phases (State.hostEvent_eng_of_not_resetBy (s := s.takeTurn) hno))

end Sys2Proof.Machine
end

section
/-! The statements about errors, completions and time, spec/60_exceptions.md. -/

namespace Sys2Proof.Machine

/-- Settles O5: an idle block takes its turn and waits; every other turn ends too, and a host event never stops. -/
theorem noStepEverStops : Obligations.NoStepEverStops := by
  refine ⟨fun s hr hb hn => step_of_idle hr hb hn, fun s => ?_⟩
  rcases step_cases s with ⟨-, h⟩ | ⟨ev, rest, -, -, h⟩
  · rw [h]
    exact sequencerTurn_next s.takeTurn
  · exact ⟨_, h, State.hostEvent_build ev, State.hostEvent_inputs ev⟩

/-- Settles O13: the error record of STATE or of ARG leaves EILL as it was. -/
theorem errorsArePrecise : Obligations.ErrorsArePrecise := by
  intro i s t h he
  obtain ⟨c, hc, rfl⟩ := exec_eq_cmdError h he
  rcases hc with rfl | rfl <;> exact ⟨by simp, by simp [State.cmdError_eq]⟩

/-- Settles O14: every success is a completion with the command's own result. -/
theorem successRecordAndResult : Obligations.SuccessRecordAndResult := by
  intro i s t h hok
  obtain ⟨-, -, hready, -⟩ := statusWord_low_bits t.status t.eng.life
  cases exec_commandEnd h with
  | error c hc => exact absurd hok (State.cmdError_errcode_ne_ok hc)
  | _ => exact ⟨rfl, rfl, rfl, hready⟩

/-- Settles O15: the lifecycle test stands before the operand's in every command, and each operand check refuses what
the statement lists. -/
theorem commandErrorCauses : Obligations.CommandErrorCauses := by
  intro s
  refine ⟨⟨_, execNop_eq s, rfl⟩, exec_create_errcode s, exec_destroy_errcode s, exec_reset_errcode s, ?render,
    fun i hi => ?notNegative, setter_errcode_of_finite rfl rfl rfl cutBaseOperand_fin_eq_none_iff,
    setter_errcode (by simp only [driveOperand_eq_none_iff]),
    setter_errcode (by simp only [detuneOperand_eq_none_iff]), ?mixg, ?sineg⟩
  case render => simpa only [renderArgsOk_eq_false_iff] using exec_render_errcode s
  case notNegative =>
    cases i with
    | setGain | setOutGain => exact setter_errcode_of_finite rfl rfl rfl gainOperand_fin_eq_none_iff
    | setCutSpan => exact setter_errcode_of_finite rfl rfl rfl cutSpanOperand_fin_eq_none_iff
    | _ => simp at hi
  case mixg => simpa only [mixgArgsOk_eq_false_iff] using exec_mixg_errcode s
  case sineg => simpa only [sinegArgsOk_eq_false_iff] using exec_sineg_errcode s

/-- Settles O42: RENDER's engine is the one after its frames, whose phases are counted by them; the steps that move a
phase are those of `step_phases_cases`. -/
theorem timeIsTheSampleCount : Obligations.TimeIsTheSampleCount := by
  refine ⟨fun s t h hok => ?_, fun e n => Engine.atFrame_succ_ph2 n, fun s t h hne => ?_,
    fun s n hr hb => run_of_idle hr hb rfl⟩
  · rw [eng_of_exec_render h hok, Engine.atFrame_ph1, Engine.atFrame_modph, BitVec.ofNat_toNat, BitVec.setWidth_eq]
    exact ⟨rfl, rfl, rfl, Engine.atFrame_rate _⟩
  · rcases step_phases_cases h hne with hcmd | hr | ⟨ev, hin, hr | rfl | ⟨a, w, rfl, hl, hw, hb⟩⟩
    · exact .inl hcmd
    · exact .inr (.inl hr)
    · exact .inr (.inl hr)
    · exact .inr (.inr (.inl hin))
    · exact .inr (.inr (.inr ⟨a, w, hin, hl, hw, hb⟩))

/-- Settles O12: the two records field by field, and `irq` after DONE has risen. -/
theorem completionRecords : Obligations.CompletionRecords :=
  ⟨fun s c _ => ⟨State.cmdError_eq s c, State.cmdError_irq c⟩, State.complete_eq⟩

end Sys2Proof.Machine
end

section
/-! SUPPORT. What the statements about the resets and the hazards are proved from: the registers at reset, the block
held in reset, the turn that ends a command, and the words an abandoned command leaves unspecified. -/

namespace Sys2Proof.Machine

variable {s t : State}

/-! ### The registers at reset -/

theorem State.resetRegs_registersReset (s : State) : s.resetRegs.RegistersReset :=
  ⟨rfl, rfl, rfl, rfl, rfl, rfl, rfl, rfl, rfl⟩

/-- Registers that a reset would not change hold their reset values (10_state.md R38). -/
theorem State.registersReset_of_resetRegs_eq (h : s.resetRegs = s) : s.RegistersReset :=
  h ▸ s.resetRegs_registersReset

/-- At reset IE and DONE are 0, so the interrupt line is 0 (10_state.md R35). -/
theorem State.RegistersReset.irq_eq (h : s.RegistersReset) : s.irq = false := by
  obtain ⟨hie, -⟩ := h
  simp [State.irq, hie]

/-- A CTRL write with SRST = 1 is the soft reset (70_reset_and_hazards.md R192). -/
theorem State.writeCtrl_of_srst {w : Word} (h : w.getLsbD 1 = true) : s.writeCtrl w = s.resetRegs := if_pos h

/-- A CTRL write with SRST = 0 sets IE (10_state.md R26). -/
theorem State.writeCtrl_of_not_srst {w : Word} (h : w.getLsbD 1 = false) :
    s.writeCtrl w = { s with ie := w.getLsbD 0 } :=
  if_neg (ne_true_of_eq_false h)

/-! ### The turn that completes a command -/

/-- A running command ends at the sequencer's turn (70_reset_and_hazards.md R196). -/
theorem run_one_of_busy (hn : s.SequencerNext) (hr : s.rstN = true) (hb : s.status.busy = true) :
    ∃ t, Host.Core.run Sys2Proof.core 1 s = .next t
      ∧ t.status.busy = false ∧ t.status.done = true ∧ t.pend = 0 := by
  obtain ⟨t, ht, hbusy, hdone, hpend, -⟩ := completePending_next s.takeTurn
  exact ⟨t, run_succ ((step_of_busy hn hr hb).trans ht) 0, hbusy, hdone, hpend⟩

/-! ### The block held in reset -/

/-- A block whose registers are at reset runs no command, so another reset changes nothing. -/
theorem State.hardReset_of_resetRegs_eq (h : s.resetRegs = s) : s.hardReset = s := by
  obtain ⟨-, hst, -⟩ := State.registersReset_of_resetRegs_eq h
  have hidle : s.status.busy = false := by rw [hst]; rfl
  rw [State.hardReset, State.abandon_idle s hidle, h]

/-- While `rst_n` = 0 an event changes `rst_n` and the read data alone, and a read delivers 0
(70_reset_and_hazards.md R190). -/
theorem State.hostEvent_of_held (hr : s.rstN = false) (hz : s.resetRegs = s) (ev : HostEvent) :
    ∃ data, s.hostEvent ev = { s with rstN := decide (ev = .rstHigh), hrdata := data }
      ∧ ∀ a, ev = .read a → data = some 0 := by
  have hreset := State.hardReset_of_resetRegs_eq hz
  have hkeep : { s with rstN := false } = s := by rw [← hr]
  cases ev with
  | read a => exact ⟨some 0, by simp [State.hostEvent, hr, hreset], fun _ _ => rfl⟩
  | write a w => exact ⟨s.hrdata, by simp [State.hostEvent, hr, hreset, hkeep], by simp⟩
  | rstLow => exact ⟨s.hrdata, by simp [State.hostEvent, hreset], by simp⟩
  | rstHigh => exact ⟨s.hrdata, by simp [State.hostEvent, hr, hreset], by simp⟩
  | pass => exact ⟨s.hrdata, by simp [State.hostEvent, hkeep], by simp⟩

/-- While `rst_n` = 0 a step takes its event, and changes `rst_n` and the read data alone. -/
theorem step_of_held (hr : s.rstN = false) (hz : s.resetRegs = s) (h : step s = .next t) :
    ∃ data, t = { s with
        inputs := s.inputs.tail, rstN := decide (s.inputs.head? = some .rstHigh), hrdata := data }
      ∧ ∀ a rest, s.inputs = .read a :: rest → data = some 0 := by
  have hturn : s.takeTurn.resetRegs = s.takeTurn := congrArg State.takeTurn hz
  rcases step_next_cases h with ⟨hn, -, rfl⟩ | ⟨-, hr', -⟩ | ⟨-, hr', -⟩ | ⟨ev, rest, hin, rfl⟩
  · have hkeep : { s.takeTurn with rstN := false } = s.takeTurn := by rw [← hr]; rfl
    refine ⟨none, ?_, ?_⟩
    · rw [State.hardReset_of_resetRegs_eq hturn, ← hkeep]
      rcases hn with hin | ⟨rest, hin⟩ <;> simp [State.takeTurn, hin]
    · rcases hn with hin | ⟨rest, hin⟩ <;> simp [hin]
  · simp [hr] at hr'
  · simp [hr] at hr'
  · obtain ⟨data, hev, hread⟩ := State.hostEvent_of_held (s := s.takeTurn) hr hturn ev
    refine ⟨data, ?_, ?_⟩
    · rw [hev]
      simp [State.takeTurn, hin]
    · rw [hin]
      rintro a rest' ⟨⟩
      exact hread a rfl

/-! ### The words of an abandoned command -/

/-- The words a pending command would write, as the operands give them: RENDER's slots, MIXG's elements, and SINEG's
outputs and phase word, each if the command's checks hold (70_reset_and_hazards.md R198). -/
theorem State.mem_pendingWrites_iff {a : Nat} :
    a ∈ s.pendingWrites ↔
      (decode s.pend = .ok .render ∧ s.eng.life = .ready ∧ s.arg1 ≠ 0 ∧ s.arg2 ≠ 0
          ∧ s.arg0.toNat + s.arg1.toNat * s.arg2.toNat ≤ s.build.sramWords
          ∧ s.arg0.toNat ≤ a ∧ a < s.arg0.toNat + s.arg1.toNat * s.arg2.toNat)
        ∨ (decode s.pend = .ok .mixg ∧ s.arg0.toNat + s.arg2.toNat ≤ s.build.sramWords
          ∧ s.arg1.toNat + s.arg2.toNat ≤ s.build.sramWords
          ∧ s.arg0.toNat ≤ a ∧ a < s.arg0.toNat + s.arg2.toNat)
        ∨ (decode s.pend = .ok .sineg ∧ s.arg1.toNat < s.build.sramWords
          ∧ s.arg0.toNat + s.arg3.toNat ≤ s.build.sramWords
          ∧ (a = s.arg1.toNat ∨ (s.arg0.toNat ≤ a ∧ a < s.arg0.toNat + s.arg3.toNat))) := by
  unfold State.pendingWrites
  cases decode s.pend with
  | error r => simp
  | ok i =>
    cases i with
    | render => simp [renderArgsOk_iff, Life.isReady_eq, BitVec.toNat_eq, and_assoc]
    | mixg => simp [mixgArgsOk_iff, and_assoc]
    | sineg => simp [sinegArgsOk_iff, and_assoc, or_comm]
    | _ => simp

/-- Abandoning a running command draws its destination words afresh (70_reset_and_hazards.md R198). -/
theorem State.abandon_busy (h : s.status.busy = true) :
    s.abandon = { s with mem := s.mem.forgetAll (s.draws + 1) s.pendingWrites, draws := s.draws + 1 } := if_pos h

/-- A word the abandoned command would have written holds the fresh draw (70_reset_and_hazards.md R198). -/
theorem State.hardReset_readWord_of_mem {a : Nat} (hwf : s.mem.wf = true) (hb : s.status.busy = true)
    (ha : a ∈ s.pendingWrites) : s.hardReset.mem.readWord a = Config.sramDraw (s.draws + 1) a := by
  rw [State.hardReset_mem, State.abandon_busy hb, Memory.readWord_forgetAll hwf, if_pos ha]

/-- A byte of a word the abandoned command would not have written is kept (70_reset_and_hazards.md R198). -/
theorem State.hardReset_readByte_of_not_mem {b : Nat} (hwf : s.mem.wf = true) (hb : s.status.busy = true)
    (ha : b / 4 ∉ s.pendingWrites) : s.hardReset.mem.readByte b = s.mem.readByte b := by
  rw [State.hardReset_mem, State.abandon_busy hb, Memory.readByte_forgetAll hwf, if_neg ha]

end Sys2Proof.Machine
end

section
/-! The statements about reset and hazards, spec/70_reset_and_hazards.md. -/

namespace Sys2Proof.Machine

/-- Settles O6: the CMD write is accepted, and the sequencer's turn after it is a COMPLETE, which always ends. -/
theorem acceptedCommandCompletes : Obligations.AcceptedCommandCompletes := by
  intro s w hr hb
  obtain ⟨haccept, -⟩ := commandAccept { s with inputs := [.write 0x010 w, .pass] } 0x010 w [.pass] hr rfl
  rw [run_succ (haccept rfl hb)]
  exact run_one_of_busy (.inr ⟨[], rfl⟩) hr rfl

/-- Settles O28: a block held in reset has its registers at reset, and a step of it moves no register and no SRAM. -/
theorem heldInReset : Obligations.HeldInReset := by
  rintro s t ⟨-, -, hz⟩ hr h
  have hregs := State.registersReset_of_resetRegs_eq (hz hr)
  obtain ⟨data, rfl, hread⟩ := step_of_held hr (hz hr) h
  exact ⟨hregs, hregs.irq_eq, rfl, hread, by simp⟩

/-- Settles O29: the step is the reset of `rst_n`; what it abandons while BUSY is what `State.mem_pendingWrites_iff`
lists. -/
theorem resetAsserted : Obligations.ResetAsserted := by
  intro s rest hwf hin
  have hregs := s.takeTurn.abandon.resetRegs_registersReset
  have hinputs : s.takeTurn.hardReset.inputs = rest := by simp [hin]
  refine ⟨_, step_of_event hin (by simp), hregs, rfl, hregs.irq_eq, s.takeTurn.hardReset_build, hinputs,
    s.takeTurn.hardReset_hrdata, fun hb => ?idle, fun hb => ?busy⟩
  case idle =>
    have hmem : s.takeTurn.hardReset.mem = s.mem := by simp [State.abandon_idle, hb]
    have hdraws : s.takeTurn.hardReset.draws = s.draws := by simp [State.abandon_idle, hb]
    exact ⟨hmem, hdraws, fun b => congrArg (Memory.readByte · b) hmem⟩
  case busy =>
    have hdraws : s.takeTurn.hardReset.draws = s.draws + 1 := by simp [State.abandon_busy, hb]
    refine ⟨hdraws, fun a => ?_⟩
    split
    case isTrue ha => exact State.hardReset_readWord_of_mem (s := s.takeTurn) hwf hb (State.mem_pendingWrites_iff.2 ha)
    case isFalse ha =>
      rintro b rfl
      exact State.hardReset_readByte_of_not_mem (s := s.takeTurn) hwf hb (mt State.mem_pendingWrites_iff.1 ha)

/-- Settles O26: a CTRL write is performed while idle, as a soft reset or as a store to IE, and rejected while BUSY. -/
theorem controlWrite : Obligations.ControlWrite := by
  intro s a w rest hr hl hin
  refine ⟨fun hb hw => ?_, fun hb hw => ?_, fun hb => step_of_rejected_write hin hr hb (by rw [hl]; rfl)⟩
  · have hregs := State.resetRegs_registersReset { s with inputs := rest, hrdata := none }
    refine ⟨_, ?_, hregs, hregs.irq_eq, rfl, fun _ => rfl, hr, rfl, rfl, rfl, rfl⟩
    rw [step_of_performed_write hin hr (by simp [hb]), hl, State.store, State.writeCtrl_of_srst hw]
  · rw [step_of_performed_write hin hr (by simp [hb]), hl, State.store, State.writeCtrl_of_not_srst hw]

end Sys2Proof.Machine
end
